-- ==== Sys2Proof/Word.lean ====
section
/-! DEFINITION. The bit-vector widths of 00_scope.md R9 and R11: a byte (`u8`), the 64-bit value bus (VW) and a
sextet byte's 6-bit payload. -/

namespace Sys2Proof

/-- `u8` of R11: a byte, bit 0 its least-significant bit (R10). -/
abbrev Byte := BitVec 8

/-- The integer value bus VALUE and RESULT travel on, 64 bits (R9, `VW`). -/
abbrev Word := BitVec 64

/-- A 6-bit chunk: the payload of one sextet byte (R70). -/
abbrev Chunk := BitVec 6

end Sys2Proof
end

