-- ==== Sys2Proof/Syntax.lean ====
section
/-! DEFINITION. What the host can ask of the block: the seven commands (30_encoding.md R81), the registers by name
(10_state.md R21), the three kinds of host step (R32), and the written host program (R84, R85). -/

namespace Sys2Proof

/-- The commands, one for each row of spec/opcode_table.json (R81). A command word has no operand field (R80). -/
inductive Instr
  /-- SX.CHK (R103) -/
  | sxChk
  /-- VL64.ENCLEN (R130) -/
  | vl64Enclen
  /-- VL64.ENC (R131) -/
  | vl64Enc
  /-- VL64.DECLEN (R132) -/
  | vl64Declen
  /-- VL64.DEC (R133) -/
  | vl64Dec
  /-- B64.ENC (R170) -/
  | b64Enc
  /-- B64.DEC (R171) -/
  | b64Dec
deriving DecidableEq, Repr

/-- The 32 register numbers of R21 by name: seven registers, nine reserved numbers 0x07 + k, sixteen BUF bytes. -/
inductive Reg
  | cmd
  | value
  | len
  | status
  | result
  | count
  | errByte
  | reserved (k : Fin 9)
  | buf (i : Fin 16)
deriving DecidableEq, Repr

/-- The register's number in the map of R21. -/
def Reg.num : Reg → Nat
  | .cmd => 0x00
  | .value => 0x01
  | .len => 0x02
  | .status => 0x03
  | .result => 0x04
  | .count => 0x05
  | .errByte => 0x06
  | .reserved k => 0x07 + k
  | .buf i => 0x10 + i

/-- The register's width in bits (R21, R53). A reserved number has none. -/
def Reg.width : Reg → Option Nat
  | .cmd => some 8
  | .value => some 64
  | .len => some 5
  | .status => some 8
  | .result => some 64
  | .count => some 4
  | .errByte => some 8
  | .reserved _ => none
  | .buf _ => some 8

/-- The registers the host can only read (R21). -/
def Reg.readOnly : Reg → Bool
  | .status => true
  | .result => true
  | .count => true
  | .errByte => true
  | .cmd => false
  | .value => false
  | .len => false
  | .reserved _ => false
  | .buf _ => false

/-- The value one host access moves: a whole register of 8, 64, 5 or 4 bits (20_memory.md R53). -/
inductive RegVal
  | b8 (v : BitVec 8)
  | b64 (v : BitVec 64)
  | b5 (v : BitVec 5)
  | b4 (v : BitVec 4)
deriving DecidableEq, Repr

def RegVal.width : RegVal → Nat
  | .b8 _ => 8
  | .b64 _ => 64
  | .b5 _ => 5
  | .b4 _ => 4

def RegVal.toNat : RegVal → Nat
  | .b8 v => v.toNat
  | .b64 v => v.toNat
  | .b5 v => v.toNat
  | .b4 v => v.toNat

/-- The three kinds of host step (R32): write a register, read a register, reset the block. -/
inductive HostStep
  | write (r : Reg) (v : RegVal)
  | read (r : Reg)
  | reset
deriving DecidableEq, Repr

/-- One line of the written host program (R84), the pseudo-instructions of R85 among them. Integers are the literals
of the line. -/
inductive AsmLine
  | wr (r : Reg) (v : Int)
  | rd (r : Reg)
  | command (i : Instr)
  | comment (text : String)
  | ldbuf (bytes : List Int)
  | vl64Len (v : Int)
  | vl64Put (v : Int)
  | vl64Get (n : Int)
  | b64Put (n v : Int)
  | b64Get (n : Int)
deriving DecidableEq, Repr

end Sys2Proof
end

