-- ==== Sys2Proof/WellFormed.lean ====
section
/-! DEFINITION. Which terms of the syntax the spec gives a meaning: a host write carries a value of its register's
width (10_state.md R34), a line of the host program names registers that have names and literals that fit (R84, R85).
Commands have no fields, so every command is well formed. -/

namespace Sys2Proof

/-- A command word has no operand (R80): nothing can be wrong with a command. -/
def Instr.wf : Instr → Bool
  | .sxChk => true
  | .vl64Enclen => true
  | .vl64Enc => true
  | .vl64Declen => true
  | .vl64Dec => true
  | .b64Enc => true
  | .b64Dec => true

/-- A host write must carry a value of exactly the register's width (R34). A reserved number has no width, and a write
to it has no effect (R36), so any value will do (log 7). -/
def Reg.accepts (r : Reg) (v : RegVal) : Bool :=
  match r.width with
  | some w => v.width == w
  | none => true

/-- A host step is well formed when a write's value has its register's width (R34). -/
def HostStep.wf : HostStep → Bool
  | .write r v => r.accepts v
  | .read _ => true
  | .reset => true

/-- A literal fits a register: it is a value of its width, or, for VALUE, a negative number of at least −2^63, which
means its two's-complement pattern (R84). A reserved number has no name to write it by. -/
def Reg.fits (r : Reg) (v : Int) : Bool :=
  match r.width with
  | some w => (decide (0 ≤ v) || (r == .value && decide (-2 ^ 63 ≤ v))) && decide (v < 2 ^ w)
  | none => false

/-- A line is well formed when its registers have names and its literals fit. A comment stays on its line. `ldbuf b0, …, bk` has k ≤ 15 (R85). -/
def AsmLine.wf : AsmLine → Bool
  | .wr r v => r.fits v
  | .rd r => r.width.isSome
  | .command i => i.wf
  | .comment text => text.toList.all (· != (Char.ofNat 10))
  | .ldbuf bytes => !bytes.isEmpty && decide (bytes.length ≤ 16) && bytes.all (Reg.fits (.buf 0))
  | .vl64Len v => Reg.fits .value v
  | .vl64Put v => Reg.fits .value v
  | .vl64Get n => Reg.fits .len n
  | .b64Put n v => Reg.fits .len n && Reg.fits .value v
  | .b64Get n => Reg.fits .len n

end Sys2Proof
end

