-- ==== Sys2Proof/Decode.lean ====
section
/-! DEFINITION. Decoding the command word (30_encoding.md R80 to R82), the register number (10_state.md R21) and a
host write given as a (register number, value) pair (95_test_vectors.md section 3), each with its encoder. -/

namespace Sys2Proof

/-- Why a command word, or a byte string in a command's place, is no command (R82). -/
inductive CmdReject
  /-- bits 7:3 are not 0b00000 -/
  | reservedBits
  /-- OP is 0b000 -/
  | opZero
  /-- there is no byte at all -/
  | noWord
deriving DecidableEq, Repr

/-- The OP field, bits 2:0 of the command word (R80). -/
def opField (c : Byte) : BitVec 3 := c.extractLsb' 0 3

/-- The RSV field, bits 7:3 of the command word (R80). -/
def rsvField (c : Byte) : BitVec 5 := c.extractLsb' 3 5

/-- `decode_cmd` of R82 over the opcode map of R81. Total: every word is a command or is rejected by name. -/
def decodeCmd (c : Byte) : Except CmdReject Instr :=
  if rsvField c ≠ 0b00000#5 then .error .reservedBits
  else match (opField c).toNat with
    | 0b001 => .ok .sxChk
    | 0b010 => .ok .vl64Enclen
    | 0b011 => .ok .vl64Enc
    | 0b100 => .ok .vl64Declen
    | 0b101 => .ok .vl64Dec
    | 0b110 => .ok .b64Enc
    | 0b111 => .ok .b64Dec
    | _ => .error .opZero

/-- The command's OP code in the opcode map of R81. -/
def Instr.op : Instr → BitVec 3
  | .sxChk => 0b001#3
  | .vl64Enclen => 0b010#3
  | .vl64Enc => 0b011#3
  | .vl64Declen => 0b100#3
  | .vl64Dec => 0b101#3
  | .b64Enc => 0b110#3
  | .b64Dec => 0b111#3

/-- The command word of a command, format CMD8 of R80: RSV = 0b00000, then OP. -/
def encode (i : Instr) : Byte := 0b00000#5 ++ i.op

/-- Decoding at the front of any string of bytes: a command is one byte (R80), and the bytes after it are left over. -/
def decodeBytes : List Byte → Except CmdReject (Instr × List Byte)
  | [] => .error .noWord
  | c :: rest =>
    match decodeCmd c with
    | .ok i => .ok (i, rest)
    | .error e => .error e

/-- The single byte a table word of `nbits` bits lays out. Bits above `nbits` are 0, and no command has more than
8 bits (R80). -/
def tableByte (nbits w : Nat) : Byte := BitVec.ofNat 8 (w % 2 ^ nbits)

/-- The command the decoder reads from a word numbered as spec/opcode_table.json numbers it. -/
def decodeTableWord (nbits w : Nat) : Option Instr :=
  match decodeBytes [tableByte nbits w] with
  | .ok (i, _) => some i
  | .error _ => none

/-- The register a 5-bit register number selects (R21). Total: every number is a register, a reserved number or a BUF
byte. -/
def Reg.ofNum (n : BitVec 5) : Reg :=
  match n.toNat with
  | 0x00 => .cmd
  | 0x01 => .value
  | 0x02 => .len
  | 0x03 => .status
  | 0x04 => .result
  | 0x05 => .count
  | 0x06 => .errByte
  | k => if k < 0x10 then .reserved (Fin.ofNat 9 (k - 0x07)) else .buf (Fin.ofNat 16 (k - 0x10))

/-- A number as a value of a register's width, where the number is one (R34). A reserved number has no width, and
takes any 64-bit value (log 8). -/
def Reg.valOfNat (r : Reg) (v : Nat) : Option RegVal :=
  match r with
  | .cmd | .status | .errByte | .buf _ => if v < 2 ^ 8 then some (.b8 (BitVec.ofNat 8 v)) else none
  | .value | .result | .reserved _ => if v < 2 ^ 64 then some (.b64 (BitVec.ofNat 64 v)) else none
  | .len => if v < 2 ^ 5 then some (.b5 (BitVec.ofNat 5 v)) else none
  | .count => if v < 2 ^ 4 then some (.b4 (BitVec.ofNat 4 v)) else none

/-- A host write from its pair (register number, value), as the spec writes programs down. -/
def decodeWrite (n v : Nat) : Option HostStep :=
  if n < 32 then
    let r := Reg.ofNum (BitVec.ofNat 5 n)
    (r.valOfNat v).map (HostStep.write r)
  else none

/-- The pair (register number, value) of a host write. Reads and resets have none. -/
def encodeWrite : HostStep → Option (Nat × Nat)
  | .write r v => some (r.num, v.toNat)
  | .read _ => none
  | .reset => none

end Sys2Proof
end

