-- ==== Sys2Proof/Config.lean ====
section
/-! DEFINITION. The implementation parameters of 00_scope.md R9, every one of them fixed by the spec, and the values
the model names for what reset leaves unspecified (logs 1 and 2). -/

namespace Sys2Proof.Config

/-- `VW`, the width of VALUE and RESULT (R9). -/
abbrev valueWidth : Nat := 64

/-- `VL64_LMIN`, the shortest VL64 token (R9). -/
abbrev lMin : Nat := 1

/-- `VL64_LMAX`, the longest VL64 token (R9). -/
abbrev lMax : Nat := 6

/-- `VL64_MAG_BITS`, the width of a VL64 magnitude (R9). -/
abbrev magBits : Nat := 32

/-- `VL64_LFIELD_BITS`, the width of a VL64 header's length field (R9). -/
abbrev lFieldBits : Nat := 3

/-- `NB_MAX`, the largest B64 width N (R9). -/
abbrev nbMax : Nat := 10

/-- `NB_MIN`, the smallest B64 width N (R9). -/
abbrev nbMin : Nat := 0

/-- `BUF_BYTES`, the number of bytes of BUF (R9). -/
abbrev bufBytes : Nat := 16

/-- `LEN_MAX`, the largest legal LEN (R9): the bytes available to VL64.DEC. -/
abbrev lenMax : Nat := 16

/-- `SEXTET_MARKER`, bits 7:6 of every sextet byte (R9, R70). -/
abbrev sextetMarker : BitVec 2 := 0b01#2

/-- What an unlisted BUF byte reads as. DESIGN CHOICE, unsafe (log 2): the spec leaves BUF unspecified after reset. -/
abbrev unlistedByte : Byte := 0x00#8

/-- The value after reset of a register of `w` bits that R240 leaves unspecified. DESIGN CHOICE, unsafe (log 1). -/
def unspecifiedReset (w : Nat) : BitVec w := 0#w

end Sys2Proof.Config
end

