-- ==== Sys2Proof/Machine/Bits.lean ====
section
/-! DEFINITION. The pseudocode primitives of 00_scope.md R10 to R12 that the commands use, and the sextet byte's
layout (30_encoding.md R70). -/

namespace Sys2Proof.Machine

/-- The sextet byte that carries a payload: `0b01 ++ p` (R70). -/
def sextetByte (p : Chunk) : Byte := Config.sextetMarker ++ p

/-- The 6-bit slice `v[lo+5 : lo]` (R10). -/
def chunk {w : Nat} (v : BitVec w) (lo : Nat) : Chunk := v.extractLsb' lo 6

/-- `int(v)`, the integer an `s64` pattern stands for (R12). -/
def intOf (v : Word) : Int := v.toInt

/-- `twos_64(i)`, the 64-bit two's-complement pattern of an integer (R12). -/
def twos64 (i : Int) : Word := BitVec.ofInt 64 i

/-- `zext_N(v)` (R12): zero-extension, where `n` is at least the width of `v`. -/
def zext {w : Nat} (n : Nat) (v : BitVec w) : BitVec n := v.setWidth n

/-- `bitlen(m)` (R12): the bits needed to write `m` in unsigned binary, 0 for 0. -/
def bitlen (m : Nat) : Nat := if m = 0 then 0 else Nat.log2 m + 1

/-- The magnitude `abs(int(v))`, exact, up to 2^63 (R121). -/
def magnitude (v : Word) : Nat := (intOf v).natAbs

end Sys2Proof.Machine
end

