-- ==== Sys2Proof/Machine/Flags.lean ====
section
/-! DEFINITION. The status codes and the STATUS word: the block's only flags are STATUS.DONE and STATUS.CODE
(10_state.md R25 and R37, 60_exceptions.md R200 and R202). -/

namespace Sys2Proof.Machine

/-- How a command ends: `raise <Code>(info)` of R202. Only INVALID_HIGH_BITS carries info, the offending byte (R200). -/
inductive Raise
  | ok
  | invalidHighBits (byte : Byte)
  | invalidLength
  | insufficientLength
  | outOfRange
  | badWidth
  | illegalCmd
deriving DecidableEq, Repr

/-- The code's number (R200). Codes 7 to 15 are never produced. -/
def Raise.code : Raise → BitVec 4
  | .ok => 0#4
  | .invalidHighBits _ => 1#4
  | .invalidLength => 2#4
  | .insufficientLength => 3#4
  | .outOfRange => 4#4
  | .badWidth => 5#4
  | .illegalCmd => 6#4

/-- The recorded info (R200): INVALID_HIGH_BITS carries the offending byte, and the others carry nothing. -/
def Raise.info : Raise → Option Byte
  | .ok => none
  | .invalidHighBits b => some b
  | .invalidLength => none
  | .insufficientLength => none
  | .outOfRange => none
  | .badWidth => none
  | .illegalCmd => none

/-- The word a command's end writes into STATUS: `(Code << 4) | 0x01` (R202). -/
def statusWord (r : Raise) : Byte := (r.code.setWidth 8 <<< 4) ||| 0x01#8

/-- STATUS.DONE, bit 0 (R25). -/
def statusDone (status : Byte) : Bool := status.getLsbD 0

/-- STATUS bits 3:1, reserved, always 0 (R25). -/
def statusReserved (status : Byte) : BitVec 3 := status.extractLsb' 1 3

/-- STATUS.CODE, bits 7:4 (R25). -/
def statusCode (status : Byte) : BitVec 4 := status.extractLsb' 4 4

end Sys2Proof.Machine
end

