-- ==== Sys2Proof/Machine/State.lean ====
section
/-! DEFINITION. The state of the block (10_state.md R21 to R29), what the host sees of it, the reasons a step stops,
and the state after reset (70_reset_and_hazards.md R240). -/

namespace Sys2Proof.Machine

/-- BUF as data: (index, byte) cells, indexes rising, none listed at the value an unlisted index reads as. -/
abbrev Memory := List Host.Cell

/-- The whole state. The first eight fields are the registers of R21. `specified` records which registers hold a value
the spec gives (R35), and `readPort` and `pending` are the host's side of R32. -/
structure State where
  /-- CMD, register 0x00 (R22) -/
  cmd : Byte
  /-- VALUE, register 0x01 (R23) -/
  value : Word
  /-- LEN, register 0x02 (R24) -/
  len : BitVec 5
  /-- STATUS, register 0x03 (R25) -/
  status : Byte
  /-- RESULT, register 0x04 (R26) -/
  result : Word
  /-- COUNT, register 0x05 (R27) -/
  count : BitVec 4
  /-- ERRBYTE, register 0x06 (R28) -/
  errByte : Byte
  /-- BUF[0] to BUF[15], registers 0x10 to 0x1F (R29) -/
  buf : Memory
  /-- The numbers of the registers that hold a value the spec gives, rising (R35; log 9). Only `strictStep` reads it. -/
  specified : List Nat
  /-- The value the host's last `read` returned (R32 (b); log 6). -/
  readPort : Option RegVal
  /-- The host's steps still to come, oldest first (R32; log 4). -/
  pending : List HostStep
deriving DecidableEq, Repr

/-- The reasons a run stops with a fault. -/
inductive Fault
  /-- An access to a BUF byte whose index is not 0 to 15 (R29, R50). Raised by `readBuf` and `memWrite`. Safe: the
  byte does not exist, and no command can reach it (log 14). -/
  | bufOutside (index : Nat)
  /-- A read of a register that holds no value the spec gives (R35, R204). Raised by `strictStep` only, never by
  `step`. Safe: it admits no claim about such a value (log 1). -/
  | unspecifiedRead (register : Nat)
deriving DecidableEq, Repr

/-- The reasons the model gives a step no meaning. -/
inductive Refusal
  /-- A command whose meaning is not written yet. Raised by no arm of `exec`. Safe. -/
  | notModelled (mnemonic : String)
  /-- A host write whose value is not of exactly the register's width (R34, D29). Raised by `hostWrite`. Safe: the
  spec has a model refuse it (log 7). -/
  | writeWidth (register width : Nat)
deriving DecidableEq, Repr

/-- The state right after reset (R240): STATUS is 0x00 and holds a value. Every other register is unspecified, and
holds the value the model names (logs 1 and 2). Nothing is pending and nothing has been read (logs 4 and 6). -/
def State.reset : State where
  cmd := Config.unspecifiedReset 8
  value := Config.unspecifiedReset 64
  len := Config.unspecifiedReset 5
  status := 0x00#8
  result := Config.unspecifiedReset 64
  count := Config.unspecifiedReset 4
  errByte := Config.unspecifiedReset 8
  buf := []
  specified := [0x03]
  readPort := none
  pending := []

end Sys2Proof.Machine
end

