-- ==== Sys2Proof/Machine/Ops.lean ====
section
/-! DEFINITION. The named operations over BUF and the registers, and the one shared way a command ends
(60_exceptions.md R202). The block has no trap and no return from one (R208, R209). -/

namespace Sys2Proof.Machine

/-! ### BUF as a list of cells -/

/-- The byte at an index: the listed one, or what an unlisted index reads as (log 2). -/
def Memory.read (m : Memory) (a : Nat) : Byte :=
  match m with
  | [] => Config.unlistedByte
  | (x, c) :: rest => if x = a then c else Memory.read rest a

/-- The cells with a byte put in front, unless it is what an unlisted index reads as. -/
def Memory.consCell (a : Nat) (b : Byte) (m : Memory) : Memory :=
  if b = Config.unlistedByte then m else (a, b) :: m

/-- The cells after a byte is written at an index, in canonical form again. -/
def Memory.write (m : Memory) (a : Nat) (b : Byte) : Memory :=
  match m with
  | [] => Memory.consCell a b []
  | (x, c) :: rest =>
    if a < x then Memory.consCell a b ((x, c) :: rest)
    else if x = a then Memory.consCell a b rest
    else (x, c) :: Memory.write rest a b

/-- The cells after a list of bytes is written from an index upwards. -/
def Memory.writeList (m : Memory) (a : Nat) (bytes : List Byte) : Memory :=
  match bytes with
  | [] => m
  | b :: bs => Memory.writeList (Memory.write m a b) (a + 1) bs

/-- The canonical form: indexes rising and below 16, no cell at what an unlisted index reads as. -/
abbrev Memory.wf (m : Memory) : Prop :=
  m.Pairwise (fun x y => x.1 < y.1) ∧ ∀ c ∈ m, c.1 < Config.bufBytes ∧ c.2 ≠ Config.unlistedByte

/-! ### Which registers hold a value the spec gives (R35) -/

/-- A rising list of numbers with one more number in it. -/
def insertNum (n : Nat) (l : List Nat) : List Nat :=
  match l with
  | [] => [n]
  | x :: rest => if n < x then n :: x :: rest else if x = n then x :: rest else x :: insertNum n rest

/-- "A register receives a value when the host or a command writes it" (R35). -/
def State.markNum (n : Nat) (s : State) : State := { s with specified := insertNum n s.specified }

/-- `n` numbers from `a` upwards are marked. -/
def State.markFrom (a n : Nat) (s : State) : State :=
  match n with
  | 0 => s
  | k + 1 => State.markFrom (a + 1) k (s.markNum a)

/-! ### Register writes: the value, and the fact that the register now holds one (R35) -/

def State.putCmd (v : Byte) (s : State) : State := { s with cmd := v }.markNum 0x00

def State.putValue (v : Word) (s : State) : State := { s with value := v }.markNum 0x01

def State.putLen (v : BitVec 5) (s : State) : State := { s with len := v }.markNum 0x02

def State.putStatus (v : Byte) (s : State) : State := { s with status := v }.markNum 0x03

def State.putResult (v : Word) (s : State) : State := { s with result := v }.markNum 0x04

def State.putCount (v : BitVec 4) (s : State) : State := { s with count := v }.markNum 0x05

def State.putErrByte (v : Byte) (s : State) : State := { s with errByte := v }.markNum 0x06

/-- BUF[a], BUF[a+1], … take the bytes of a list. Called with indexes of BUF only. -/
def State.putBytes (a : Nat) (bytes : List Byte) (s : State) : State :=
  { s with buf := s.buf.writeList a bytes }.markFrom (0x10 + a) bytes.length

/-- BUF[a] as a claim reads it. -/
def State.bufByte (s : State) (a : Nat) : Byte := s.buf.read a

/-! ### How a command's work stops early -/

/-- Work that stops before its end: a status raised (R202), or a fault of the model. -/
inductive Ending
  | raised (r : Raise)
  | faulted (f : Fault)
deriving DecidableEq, Repr

/-- `x = f(...)?` for a unit function (R14): its `Err` ends the command with that status. -/
def unit {α : Type} (x : Except Raise α) : Except Ending α :=
  match x with
  | .ok a => .ok a
  | .error r => .error (.raised r)

/-! ### BUF accesses of the commands (R13) -/

/-- `BUF[i]`, read by a command. A byte outside BUF does not exist (R50). -/
def readBuf (i : Nat) (s : State) : Except Ending Byte :=
  if i < Config.bufBytes then .ok (s.bufByte i) else .error (.faulted (.bufOutside i))

/-- `MemRead(i, n)`: the bytes BUF[i] to BUF[i+n-1], in that order (R13). -/
def memRead (i n : Nat) (s : State) : Except Ending (List Byte) :=
  match n with
  | 0 => .ok []
  | k + 1 => do
    let b ← readBuf i s
    let bs ← memRead (i + 1) k s
    pure (b :: bs)

/-- `MemWrite(i, n, list)`: the list's bytes into BUF[i] onward (R13). A byte outside BUF does not exist (R50). -/
def memWrite (i : Nat) (bytes : List Byte) (s : State) : Except Ending State :=
  if i + bytes.length ≤ Config.bufBytes then .ok (s.putBytes i bytes)
  else .error (.faulted (.bufOutside (i + bytes.length - 1)))

/-! ### The end of a command -/

/-- `raise <Code>(info)` (R202): STATUS takes the code with DONE set, and on INVALID_HIGH_BITS ERRBYTE takes the
offending byte. Nothing else is written. This is the block's only "exception", and nothing returns from it (R208, R209). -/
def State.raise (r : Raise) (s : State) : State :=
  match r with
  | .invalidHighBits b => (s.putErrByte b).putStatus (statusWord (.invalidHighBits b))
  | .ok => s.putStatus (statusWord .ok)
  | .invalidLength => s.putStatus (statusWord .invalidLength)
  | .insufficientLength => s.putStatus (statusWord .insufficientLength)
  | .outOfRange => s.putStatus (statusWord .outOfRange)
  | .badWidth => s.putStatus (statusWord .badWidth)
  | .illegalCmd => s.putStatus (statusWord .illegalCmd)

/-- A whole command: work that succeeds is kept and ends with `raise OK()`. Work that raises another status leaves
nothing behind but that status, because the status is raised on the state the command began with (R202, R203). -/
def endCommand (s : State) (work : Except Ending State) : Host.Outcome State Fault Refusal :=
  match work with
  | .ok t => .next (t.raise .ok)
  | .error (.raised r) => .next (s.raise r)
  | .error (.faulted f) => .fault f

end Sys2Proof.Machine
end

