-- ==== Sys2Proof/Machine/Operands.lean ====
section
/-! DEFINITION. The operand forms: a command's operands are the registers VALUE and LEN and the bytes of BUF
(30_encoding.md R80, 10_state.md R23 and R24). BUF's bytes are read by `readBuf` and `memRead` (Ops). -/

namespace Sys2Proof.Machine

/-- VALUE as the VL64 commands read it, an `s64` signed integer (R23). -/
def State.valueInt (s : State) : Int := intOf s.value

/-- LEN as an unsigned count, 0 to 31 (R24). -/
def State.lenCount (s : State) : Nat := s.len.toNat

/-- LEN where a command reads it: at most `max`, or the command ends with BAD_WIDTH before any other check (R205). -/
def checkedLen (max : Nat) (s : State) : Except Ending Nat :=
  if max < s.lenCount then .error (.raised .badWidth) else .ok s.lenCount

end Sys2Proof.Machine
end

