-- ==== Sys2Proof/Machine/Sextet.lean ====
section
/-! DEFINITION. The sextet byte validator and SX.CHK (40_sextet.md). -/

namespace Sys2Proof.Machine

/-- `sextet_check` (R101): the payload of a byte whose bits 7:6 are the marker, or INVALID_HIGH_BITS with the whole
byte. -/
def sextetCheck (b : Byte) : Except Raise Chunk :=
  if b.extractLsb' 6 2 = Config.sextetMarker then .ok (b.extractLsb' 0 6)
  else .error (.invalidHighBits b)

/-- SX.CHK (R103): RESULT takes the payload of BUF[0], zero-extended. -/
def execSxChk (s : State) : Host.Outcome State Fault Refusal :=
  endCommand s do
    let b ← readBuf 0 s
    let p ← unit (sextetCheck b)
    pure (s.putResult (zext 64 p))

end Sys2Proof.Machine
end

