-- ==== Sys2Proof/Machine/B64.lean ====
section
/-! DEFINITION. The B64 units and commands (42_b64.md). -/

namespace Sys2Proof.Machine

/-- `b64_encode` (R162): byte i carries `v[s+5 : s]` with s = 6(N-1-i). Bits 63:6N are dropped (R163). -/
def b64Encode (v : Word) (n : Nat) : List Byte :=
  (List.range n).map fun i => sextetByte (chunk v (6 * (n - 1 - i)))

/-- The loop of `b64_decode` (R164) over the bytes left, with the value so far. -/
def b64Accumulate (acc : Word) (bs : List Byte) : Except Raise Word :=
  match bs with
  | [] => .ok acc
  | b :: rest => do
    let p ← sextetCheck b
    b64Accumulate ((acc <<< 6) + zext 64 p) rest

/-- `b64_decode` (R164) over b[0..N-1]: the lowest-numbered bad byte is reported. -/
def b64Decode (bs : List Byte) : Except Raise Word := b64Accumulate 0#64 bs

/-- B64.ENC (R170): BUF[0..N-1] takes the low 6N bits of VALUE, with N = LEN, and COUNT takes N. -/
def execB64Enc (s : State) : Host.Outcome State Fault Refusal :=
  endCommand s do
    let n ← checkedLen Config.nbMax s
    let t ← memWrite 0 (b64Encode s.value n) s
    pure (t.putCount (BitVec.ofNat 4 n))

/-- B64.DEC (R171): RESULT takes the value of the N = LEN bytes BUF[0..N-1], and COUNT takes N. -/
def execB64Dec (s : State) : Host.Outcome State Fault Refusal :=
  endCommand s do
    let n ← checkedLen Config.nbMax s
    let bs ← memRead 0 n s
    let v ← unit (b64Decode bs)
    pure ((s.putResult v).putCount (BitVec.ofNat 4 n))

end Sys2Proof.Machine
end

