-- ==== Sys2Proof/Machine/Vl64.lean ====
section
/-! DEFINITION. The VL64 units and commands (41_vl64.md). -/

namespace Sys2Proof.Machine

/-! ### vl64_header_decoder -/

/-- The fields of a legal header byte (30_encoding.md R72): the length L, the sign flag S, magnitude bits 1:0. -/
structure Header where
  len : BitVec 3
  sign : BitVec 1
  low : BitVec 2
deriving DecidableEq, Repr

/-- `vl64_header` (R111), the source's DecodedLength: the marker test first, then the length field. -/
def vl64Header (h : Byte) : Except Raise Header := do
  let _ ← sextetCheck h
  let len := h.extractLsb' 3 3
  if len.toNat < Config.lMin ∨ Config.lMax < len.toNat then .error .invalidLength
  else .ok { len, sign := h.extractLsb' 2 1, low := h.extractLsb' 0 2 }

/-! ### vl64_magnitude_accumulator -/

/-- The loop of `vl64_accumulate` (R113) from continuation byte `k` on, with the magnitude so far. -/
def accumulateFrom (k : Nat) (m : BitVec 32) (cs : List Byte) : Except Raise (BitVec 32) :=
  match cs with
  | [] => .ok m
  | c :: rest => do
    let p ← sextetCheck c
    accumulateFrom (k + 1) (m + (zext 32 p <<< (2 + 6 * (k - 1)))) rest

/-- `vl64_accumulate` (R113) over the continuation bytes c[1..L-1]: the lowest-numbered bad byte is reported. -/
def vl64Accumulate (cs : List Byte) (low : BitVec 2) : Except Raise (BitVec 32) :=
  accumulateFrom 1 (zext 32 low) cs

/-- Applying the sign (R114): `twos_64(-m)` if S = 1, else `twos_64(m)`. -/
def vl64Value (sign : BitVec 1) (m : BitVec 32) : Word :=
  if sign = 1#1 then twos64 (-(m.toNat : Int)) else twos64 (m.toNat : Int)

/-- `vl64_decode` (R117, R118) with `avail` bytes available: the value and the token length. -/
def vl64Decode (avail : Nat) (s : State) : Except Ending (Word × BitVec 3) :=
  if avail = 0 then .error (.raised .insufficientLength)
  else do
    let b ← readBuf 0 s
    let h ← unit (vl64Header b)
    if avail < h.len.toNat then .error (.raised .insufficientLength)
    else do
      let cs ← memRead 1 (h.len.toNat - 1) s
      let m ← unit (vl64Accumulate cs h.low)
      pure (vl64Value h.sign m, h.len)

/-! ### vl64_encoder -/

/-- The encoded length of a magnitude (R122): `(bitlen(m) + 9) div 6`. -/
def vl64EncodedLength (m : Nat) : Nat := (bitlen m + 9) / 6

/-- The magnitude of a value, or OUT_OF_RANGE from 2^32 up (R121). -/
def vl64Range (v : Word) : Except Raise Nat :=
  if 2 ^ Config.magBits ≤ magnitude v then .error .outOfRange else .ok (magnitude v)

/-- The sign flag S of a value: 1 only below zero (R124, R126). -/
def vl64Sign (v : Word) : BitVec 1 := if intOf v < 0 then 1#1 else 0#1

/-- The header byte `0b01 ++ L[2:0] ++ S ++ m[1:0]` (R72, R124). -/
def headerByte (len : BitVec 3) (sign : BitVec 1) (m : BitVec 32) : Byte :=
  Config.sextetMarker ++ (len ++ (sign ++ m.extractLsb' 0 2))

/-- The continuation bytes e[1] to e[n] (R73, R124): byte k carries `m[2+6(k-1)+5 : 2+6(k-1)]`. -/
def continuationBytes (m : BitVec 32) (n : Nat) : List Byte :=
  (List.range n).map fun j => sextetByte (chunk m (2 + 6 * j))

/-- `vl64_encode` (R124): the token length and the token. -/
def vl64Encode (v : Word) : Except Raise (BitVec 3 × List Byte) := do
  let m ← vl64Range v
  let len := BitVec.ofNat 3 (vl64EncodedLength m)
  let mag := BitVec.ofNat 32 m
  pure (len, headerByte len (vl64Sign v) mag :: continuationBytes mag (len.toNat - 1))

/-! ### The commands -/

/-- VL64.ENCLEN (R130): COUNT takes the encoded length of VALUE. -/
def execVl64Enclen (s : State) : Host.Outcome State Fault Refusal :=
  endCommand s do
    let m ← unit (vl64Range s.value)
    pure (s.putCount (BitVec.ofNat 4 (vl64EncodedLength m)))

/-- VL64.ENC (R131): BUF[0..L-1] takes the token of VALUE, COUNT its length. -/
def execVl64Enc (s : State) : Host.Outcome State Fault Refusal :=
  endCommand s do
    let e ← unit (vl64Encode s.value)
    let t ← memWrite 0 e.2 s
    pure (t.putCount (zext 4 e.1))

/-- VL64.DECLEN (R132): COUNT takes the length field of BUF[0]. -/
def execVl64Declen (s : State) : Host.Outcome State Fault Refusal :=
  endCommand s do
    let b ← readBuf 0 s
    let h ← unit (vl64Header b)
    pure (s.putCount (zext 4 h.len))

/-- VL64.DEC (R133): RESULT takes the value of the token at BUF[0], COUNT its length. -/
def execVl64Dec (s : State) : Host.Outcome State Fault Refusal :=
  endCommand s do
    let avail ← checkedLen Config.lenMax s
    let d ← vl64Decode avail s
    pure ((s.putResult d.1).putCount (zext 4 d.2))

end Sys2Proof.Machine
end

