-- ==== Sys2Proof/Machine/Dispatch.lean ====
section
/-! DEFINITION. The case of 10_state.md R33: which meaning each command has. -/

namespace Sys2Proof.Machine

def exec (i : Instr) (s : State) : Host.Outcome State Fault Refusal :=
  match i with
  | .sxChk => Sys2Proof.Machine.execSxChk s
  | .vl64Enclen => Sys2Proof.Machine.execVl64Enclen s
  | .vl64Enc => Sys2Proof.Machine.execVl64Enc s
  | .vl64Declen => Sys2Proof.Machine.execVl64Declen s
  | .vl64Dec => Sys2Proof.Machine.execVl64Dec s
  | .b64Enc => Sys2Proof.Machine.execB64Enc s
  | .b64Dec => Sys2Proof.Machine.execB64Dec s

end Sys2Proof.Machine
end

