-- ==== Sys2Proof/Machine/HostPort.lean ====
section
/-! DEFINITION. The three kinds of host step (10_state.md R32): write, read and reset, and the command a write of CMD
runs (R33). -/

namespace Sys2Proof.Machine

/-- `execute(c)` of R33: CMD keeps the word, legal or not (R22), and then the whole command runs. An illegal word ends
with ILLEGAL_CMD and reads nothing (R206). -/
def runCommand (c : Byte) (s : State) : Host.Outcome State Fault Refusal :=
  match decodeCmd c with
  | .ok i => exec i (s.putCmd c)
  | .error _ => .next ((s.putCmd c).raise .illegalCmd)

/-- What a read of a register returns (R21, R53). A reserved number reads 0 (R36), shown at the widest width (log 8). -/
def regRead (r : Reg) (s : State) : RegVal :=
  match r with
  | .cmd => .b8 s.cmd
  | .value => .b64 s.value
  | .len => .b5 s.len
  | .status => .b8 s.status
  | .result => .b64 s.result
  | .count => .b4 s.count
  | .errByte => .b8 s.errByte
  | .reserved _ => .b64 0#64
  | .buf i => .b8 (s.bufByte i)

/-- `read(n)` (R32 (b)): the host gets the register's value, and no register changes (R59). -/
def hostRead (r : Reg) (s : State) : State := { s with readPort := some (regRead r s) }

/-- The effect of a write whose value has the register's width. A write of CMD runs a command (R32 (a)). A write to a
read-only register (R34) or to a reserved number (R36) does nothing. -/
def regWrite (r : Reg) (v : RegVal) (s : State) : Host.Outcome State Fault Refusal :=
  match r, v with
  | .cmd, .b8 c => runCommand c s
  | .value, .b64 w => .next (s.putValue w)
  | .len, .b5 n => .next (s.putLen n)
  | .buf i, .b8 b => .next (s.putBytes i [b])
  | _, _ => .next s

/-- `write(n, v)` (R32 (a)): a value of any other width than the register's is refused (R34, D29; log 7). -/
def hostWrite (r : Reg) (v : RegVal) (s : State) : Host.Outcome State Fault Refusal :=
  if r.accepts v then regWrite r v s else .refused (.writeWidth r.num v.width)

/-- Reset as a host step (R240): the block is as after power-on. The host's own side, what it has read and what it
will do next, is not part of the block and stays (log 3). -/
def hostReset (s : State) : State := { State.reset with readPort := s.readPort, pending := s.pending }

/-- One host step (R32). -/
def runHostStep (h : HostStep) (s : State) : Host.Outcome State Fault Refusal :=
  match h with
  | .write r v => hostWrite r v s
  | .read r => .next (hostRead r s)
  | .reset => .next (hostReset s)

/-- The step of the machine: the host's next step, or nothing when none is pending (R20; log 5). -/
def stepPending (s : State) : Host.Outcome State Fault Refusal :=
  match s.pending with
  | [] => .next s
  | h :: rest => runHostStep h { s with pending := rest }

/-- More host steps, to be taken after those already pending (log 4). -/
def State.withHost (hs : List HostStep) (s : State) : State := { s with pending := s.pending ++ hs }

/-- The write of CMD that runs a command word is the next host step (log 4). -/
def State.withCommand (c : Byte) (s : State) : State :=
  { s with pending := .write .cmd (.b8 c) :: s.pending }

end Sys2Proof.Machine
end

