-- ==== Sys2Proof/Machine/Step.lean ====
section
/-! DEFINITION. The machine's step, and the state in which a given command word is the next thing that runs. -/

namespace Sys2Proof.Machine

/-- One step: the host's next step, whole (10_state.md R32). -/
def step (s : State) : Host.Outcome State Fault Refusal := stepPending s

/-- The block fetches nothing: a command is the value the host writes into CMD (R63). So the word is placed as the
host's next step, a write of CMD (log 4). -/
def State.withFetchWord (s : State) (nbits w : Nat) : State := s.withCommand (tableByte nbits w)

end Sys2Proof.Machine
end

