-- ==== Sys2Proof/Machine/Checks.lean ====
section
/-! DEFINITION. The table of 60_exceptions.md R207, written as a table: each command's checks in order, and the first
one that fails. No meaning uses it. Claims hold the meanings against it. -/

namespace Sys2Proof.Machine

/-- A byte fails the marker test: its bits 7:6 are not `0b01` (R70). -/
def badMarker (b : Byte) : Bool := b.extractLsb' 6 2 != 0b01#2

/-- A header's length field, bits 5:3 (R72). -/
def lengthField (h : Byte) : Nat := (h.extractLsb' 3 3).toNat

/-- The marker checks of BUF[i] to BUF[i+n-1], in increasing order. -/
def markerChecks (i n : Nat) (s : State) : List (Bool × Raise) :=
  (List.range n).map fun j => (badMarker (s.bufByte (i + j)), .invalidHighBits (s.bufByte (i + j)))

/-- A command's row of R207: whether each check fails, and what it then reports. -/
def orderedChecks (i : Instr) (s : State) : List (Bool × Raise) :=
  match i with
  | .sxChk => [(badMarker (s.bufByte 0), .invalidHighBits (s.bufByte 0))]
  | .vl64Enclen => [(decide (2 ^ 32 ≤ (intOf s.value).natAbs), .outOfRange)]
  | .vl64Enc => [(decide (2 ^ 32 ≤ (intOf s.value).natAbs), .outOfRange)]
  | .vl64Declen =>
    [(badMarker (s.bufByte 0), .invalidHighBits (s.bufByte 0)),
     (decide (lengthField (s.bufByte 0) = 0 ∨ 6 < lengthField (s.bufByte 0)), .invalidLength)]
  | .vl64Dec =>
    [(decide (16 < s.lenCount), .badWidth),
     (decide (s.lenCount = 0), .insufficientLength),
     (badMarker (s.bufByte 0), .invalidHighBits (s.bufByte 0)),
     (decide (lengthField (s.bufByte 0) = 0 ∨ 6 < lengthField (s.bufByte 0)), .invalidLength),
     (decide (s.lenCount < lengthField (s.bufByte 0)), .insufficientLength)] ++
      markerChecks 1 (lengthField (s.bufByte 0) - 1) s
  | .b64Enc => [(decide (10 < s.lenCount), .badWidth)]
  | .b64Dec => [(decide (10 < s.lenCount), .badWidth)] ++ markerChecks 0 s.lenCount s

/-- The row of R207 for a command word: ILLEGAL_CMD is every word's first check. -/
def wordChecks (c : Byte) (s : State) : List (Bool × Raise) :=
  match decodeCmd c with
  | .ok i => (false, .illegalCmd) :: orderedChecks i s
  | .error _ => [(true, .illegalCmd)]

/-- What the first failing check reports, if one fails (R207). -/
def firstFailing (checks : List (Bool × Raise)) : Option Raise :=
  match checks with
  | [] => none
  | (fails, r) :: rest => if fails then some r else firstFailing rest

end Sys2Proof.Machine
end

