-- ==== Sys2Proof/Machine/HostProgram.lean ====
section
/-! DEFINITION. The host's side: the written host program (30_encoding.md R84, R85) and the host loop that decodes a
stream (70_reset_and_hazards.md R246). -/

namespace Sys2Proof.Machine

/-! ### The written host program -/

/-- The name a register is written by (R21, R84). A reserved number has none. -/
def regName : Reg → Option String
  | .cmd => some "CMD"
  | .value => some "VALUE"
  | .len => some "LEN"
  | .status => some "STATUS"
  | .result => some "RESULT"
  | .count => some "COUNT"
  | .errByte => some "ERRBYTE"
  | .reserved _ => none
  | .buf i => some ("BUF" ++ toString i.val)

/-- The mnemonic a command is written by (R81, R84). -/
def mnemonic : Instr → String
  | .sxChk => "SX.CHK"
  | .vl64Enclen => "VL64.ENCLEN"
  | .vl64Enc => "VL64.ENC"
  | .vl64Declen => "VL64.DECLEN"
  | .vl64Dec => "VL64.DEC"
  | .b64Enc => "B64.ENC"
  | .b64Dec => "B64.DEC"

/-- A line as it is written (R84, R85), with literals in decimal. -/
def lineText : AsmLine → String
  | .wr r v => "wr " ++ (regName r).getD "" ++ ", " ++ toString v
  | .rd r => "rd " ++ (regName r).getD ""
  | .command i => mnemonic i
  | .comment text => "; " ++ text
  | .ldbuf bytes => "ldbuf " ++ String.intercalate ", " (bytes.map toString)
  | .vl64Len v => "vl64.len " ++ toString v
  | .vl64Put v => "vl64.put " ++ toString v
  | .vl64Get n => "vl64.get " ++ toString n
  | .b64Put n v => "b64.put " ++ toString n ++ ", " ++ toString v
  | .b64Get n => "b64.get " ++ toString n

/-- The value a literal stands for in a register (R84): a negative one stands for its two's-complement pattern. -/
def literalVal (r : Reg) (v : Int) : RegVal :=
  match r with
  | .cmd | .status | .errByte | .buf _ => .b8 (BitVec.ofInt 8 v)
  | .value | .result | .reserved _ => .b64 (twos64 v)
  | .len => .b5 (BitVec.ofInt 5 v)
  | .count => .b4 (BitVec.ofInt 4 v)

/-- `wr BUF0, b0 ; wr BUF1, b1 ; …` from BUF[i] on (R85). -/
def ldbufLines (i : Nat) (bytes : List Int) : List AsmLine :=
  match bytes with
  | [] => []
  | b :: rest => .wr (.buf (Fin.ofNat 16 i)) b :: ldbufLines (i + 1) rest

/-- A pseudo-instruction as the lines it expands to (R85). Any other line stays as it is. -/
def expandLine : AsmLine → List AsmLine
  | .wr r v => [.wr r v]
  | .rd r => [.rd r]
  | .command i => [.command i]
  | .comment text => [.comment text]
  | .ldbuf bytes => ldbufLines 0 bytes
  | .vl64Len v => [.wr .value v, .command .vl64Enclen]
  | .vl64Put v => [.wr .value v, .command .vl64Enc]
  | .vl64Get n => [.wr .len n, .command .vl64Dec]
  | .b64Put n v => [.wr .value v, .wr .len n, .command .b64Enc]
  | .b64Get n => [.wr .len n, .command .b64Dec]

/-- The host step of a line that is no pseudo-instruction (R84). A command is a write of its code to CMD. A comment is
no step. -/
def lineSteps : AsmLine → List HostStep
  | .wr r v => [.write r (literalVal r v)]
  | .rd r => [.read r]
  | .command i => [.write .cmd (.b8 (encode i))]
  | .comment _ => []
  | .ldbuf _ => []
  | .vl64Len _ => []
  | .vl64Put _ => []
  | .vl64Get _ => []
  | .b64Put _ _ => []
  | .b64Get _ => []

/-- The host steps of a line, pseudo-instructions expanded (R84, R85). An ill-formed line has none (log 15). -/
def assembleLine (l : AsmLine) : Option (List HostStep) :=
  if l.wf then some ((expandLine l).flatMap lineSteps) else none

/-- The host steps of a written program, where every line is well formed. -/
def assemble : List AsmLine → Option (List HostStep)
  | [] => some []
  | l :: rest =>
    match assembleLine l, assemble rest with
    | some hs, some hss => some (hs ++ hss)
    | _, _ => none

/-! ### Running host steps, and the stream loop -/

/-- Host steps one after another, stopping at the first that does not give a next state. -/
def runHostSteps (hs : List HostStep) (s : State) : Host.Outcome State Fault Refusal :=
  match hs with
  | [] => .next s
  | h :: rest =>
    match runHostStep h s with
    | .next t => runHostSteps rest t
    | .fault f => .fault f
    | .refused r => .refused r

/-- Host writes of bytes into BUF[i] onward. -/
def loadSteps (i : Nat) (bytes : List Byte) : List HostStep :=
  match bytes with
  | [] => []
  | b :: rest => .write (.buf (Fin.ofNat 16 i)) (.b8 b) :: loadSteps (i + 1) rest

/-- One turn of the loop of R246, its steps (1) and (2): the stream's next min(remaining, 16) bytes into BUF, LEN set to
that count, and VL64.DEC. -/
def streamSteps (stream : List Byte) : List HostStep :=
  loadSteps 0 (stream.take Config.bufBytes) ++
    [.write .len (.b5 (BitVec.ofNat 5 (min stream.length Config.bufBytes))), .write .cmd (.b8 (encode .vl64Dec))]

/-- What the loop of R246 leaves: the values taken, the bytes of the stream not decoded, and the block. -/
structure StreamResult where
  values : List Word
  left : List Byte
  block : State
deriving DecidableEq, Repr

/-- The host loop of R246, at most `turns` tokens: while bytes remain, decode one token, and on OK take RESULT and
advance the stream by COUNT. A status other than OK ends the loop (log 16). -/
def decodeStream (turns : Nat) (stream : List Byte) (s : State) : Host.Outcome StreamResult Fault Refusal :=
  match turns with
  | 0 => .next { values := [], left := stream, block := s }
  | k + 1 =>
    if stream.isEmpty then .next { values := [], left := [], block := s }
    else match runHostSteps (streamSteps stream) s with
      | .fault f => .fault f
      | .refused r => .refused r
      | .next t =>
        if t.status ≠ statusWord .ok then .next { values := [], left := stream, block := t }
        else match decodeStream k (stream.drop t.count.toNat) t with
          | .fault f => .fault f
          | .refused r => .refused r
          | .next r => .next { r with values := t.result :: r.values }

end Sys2Proof.Machine
end

