-- ==== Sys2Proof/Machine/Ports.lean ====
section
/-! DEFINITION. The six units as the ports of the spec show them (R100, R110, R113, R120, R162, R164). Where a port is
"meaningful only when" something holds, the port is `none` otherwise (log 12). Wires that are plain slices of an input
are shown as they are. For a value of an input wire the spec gives the unit no meaning for, all the unit's outputs are
`none` (log 18). -/

namespace Sys2Proof.Machine

/-- Outputs of `sextet_byte_validator` (R100). -/
structure SextetPorts where
  ok : BitVec 1
  payload : BitVec 6
deriving DecidableEq, Repr

/-- Outputs of `vl64_header_decoder` (R110). -/
structure HeaderPorts where
  err : BitVec 2
  len : BitVec 3
  neg : BitVec 1
  low : BitVec 2
  errbyte : BitVec 8
deriving DecidableEq, Repr

/-- Outputs of `vl64_magnitude_accumulator` (R113). -/
structure AccumulatorPorts where
  err : BitVec 1
  errbyte : Option (BitVec 8)
  mag : Option (BitVec 32)
deriving DecidableEq, Repr

/-- Outputs of `vl64_encoder` (R120): `e` holds the lanes in use, e[0] to e[L-1]. -/
structure EncoderPorts where
  oor : BitVec 1
  len : Option (BitVec 3)
  e : List Byte
deriving DecidableEq, Repr

/-- Outputs of `b64_decoder` (R164). -/
structure B64DecoderPorts where
  err : BitVec 1
  errbyte : Option (BitVec 8)
  value : Option (BitVec 64)
deriving DecidableEq, Repr

/-- `ok` is 1 if and only if `b[7:6] == 0b01`, `payload` is `b[5:0]` (R100). -/
def sextetPorts (b : Byte) : SextetPorts where
  ok := if b.extractLsb' 6 2 = Config.sextetMarker then 1#1 else 0#1
  payload := b.extractLsb' 0 6

/-- `err` is 0 for none, 1 for INVALID_HIGH_BITS, 2 for INVALID_LENGTH. The other ports are slices of `h` (R110). -/
def headerPorts (h : Byte) : HeaderPorts where
  err :=
    if (sextetPorts h).ok = 0#1 then 1#2
    else if h.extractLsb' 3 3 = 0#3 ∨ h.extractLsb' 3 3 = 7#3 then 2#2
    else 0#2
  len := h.extractLsb' 3 3
  neg := h.extractLsb' 2 1
  low := h.extractLsb' 0 2
  errbyte := h

/-- The five lanes c[1..5] go in. Lanes k ≥ len are not used (R113). DESIGN CHOICE, safe (log 18): R113 gives `len` the
values 1 to 6, so for 0 and 7 there is no output. -/
def accumulatorPorts (c : Vector Byte 5) (len : BitVec 3) (low : BitVec 2) : Option AccumulatorPorts :=
  if len.toNat < Config.lMin ∨ Config.lMax < len.toNat then none
  else match vl64Accumulate (c.toList.take (len.toNat - 1)) low with
    | .ok m => some { err := 0#1, errbyte := none, mag := some m }
    | .error (.invalidHighBits b) => some { err := 1#1, errbyte := some b, mag := none }
    | .error _ => some { err := 1#1, errbyte := none, mag := none }

/-- `oor` is 1 if abs(v) ≥ 2^32, and then no length and no lane is meaningful (R120, R121). -/
def encoderPorts (v : Word) : EncoderPorts :=
  match vl64Encode v with
  | .ok r => { oor := 0#1, len := some r.1, e := r.2 }
  | .error _ => { oor := 1#1, len := none, e := [] }

/-- The lanes in use of `b64_encoder`, e[0] to e[n-1] (R162). DESIGN CHOICE, safe (log 18): R162 gives the 4-bit `n` the
values 0 to 10, so for 11 to 15 there is no output. -/
def b64EncoderPorts (v : Word) (n : BitVec 4) : Option (List Byte) :=
  if Config.nbMax < n.toNat then none else some (b64Encode v n.toNat)

/-- The ten lanes b[0..9] go in. Lanes i ≥ n are not used and not checked (R164). DESIGN CHOICE, safe (log 18): R164
gives the 4-bit `n` the values 0 to 10, so for 11 to 15 there is no output. -/
def b64DecoderPorts (b : Vector Byte 10) (n : BitVec 4) : Option B64DecoderPorts :=
  if Config.nbMax < n.toNat then none
  else match b64Decode (b.toList.take n.toNat) with
    | .ok v => some { err := 0#1, errbyte := none, value := some v }
    | .error (.invalidHighBits x) => some { err := 1#1, errbyte := some x, value := none }
    | .error _ => some { err := 1#1, errbyte := none, value := none }

end Sys2Proof.Machine
end

