-- ==== Sys2Proof/Machine/Reads.lean ====
section
/-! DEFINITION. Which registers a host step reads (20_memory.md R55, 70_reset_and_hazards.md R243), and the stricter
step of 10_state.md R35 and 60_exceptions.md R204, which faults where one of them holds no value the spec gives
(logs 1, 9 and 10). -/

namespace Sys2Proof.Machine

/-- The register numbers of `n` BUF bytes from index `i` on. -/
def bufNums (i n : Nat) : List Nat := (List.range n).map fun j => 0x10 + (i + j)

/-- The numbers of the BUF bytes from index `i` on that a B64 decode of `n` more bytes reads: in order, up to and with
the first invalid byte (R55). -/
def b64ReadNums (i n : Nat) (s : State) : List Nat :=
  match n with
  | 0 => []
  | k + 1 =>
    match sextetCheck (s.bufByte i) with
    | .ok _ => (0x10 + i) :: b64ReadNums (i + 1) k s
    | .error _ => [0x10 + i]

/-- The numbers of the BUF bytes VL64.DEC reads with `avail` bytes available: the header if there is a byte, then the
rest of the token if all of it is available (R55; log 10). -/
def vl64ReadNums (avail : Nat) (s : State) : List Nat :=
  if avail = 0 then []
  else match vl64Header (s.bufByte 0) with
    | .error _ => [0x10]
    | .ok h => if avail < h.len.toNat then [0x10] else 0x10 :: bufNums 1 (h.len.toNat - 1)

/-- The numbers of the registers a command reads, in the order of its pseudocode, up to the first status it raises
(R55, R204, R243). -/
def commandReads (i : Instr) (s : State) : List Nat :=
  match i with
  | .sxChk => [0x10]
  | .vl64Enclen => [0x01]
  | .vl64Enc => [0x01]
  | .vl64Declen => [0x10]
  | .vl64Dec => 0x02 :: if Config.lenMax < s.lenCount then [] else vl64ReadNums s.lenCount s
  | .b64Enc => 0x02 :: if Config.nbMax < s.lenCount then [] else [0x01]
  | .b64Dec => 0x02 :: if Config.nbMax < s.lenCount then [] else b64ReadNums 0 s.lenCount s

/-- The numbers of the registers a host step reads: those of the command a legal CMD write runs, or the register a
`read` reads. An illegal command word reads nothing (R206). -/
def hostStepReads (h : HostStep) (s : State) : List Nat :=
  match h with
  | .write .cmd (.b8 c) =>
    match decodeCmd c with
    | .ok i => commandReads i s
    | .error _ => []
  | .write _ _ => []
  | .read r => [r.num]
  | .reset => []

/-- The numbers of the registers the next step reads. -/
def stepReads (s : State) : List Nat :=
  match s.pending with
  | [] => []
  | h :: _ => hostStepReads h s

/-- A register holds a value the spec gives: it was written since reset (R35), or it is a reserved number, which reads
0 (R36). -/
def holdsValue (s : State) (n : Nat) : Bool := (decide (0x07 ≤ n) && decide (n ≤ 0x0F)) || decide (n ∈ s.specified)

/-- The first register of a list that holds no value the spec gives. -/
def firstUnspecified (s : State) (l : List Nat) : Option Nat :=
  match l with
  | [] => none
  | n :: rest => if holdsValue s n then firstUnspecified s rest else some n

/-- The step as R35 and R204 ask a model to take it: a read of a register that holds no value faults, and the host step
does not happen. Everywhere else it is `step`. -/
def strictStep (s : State) : Host.Outcome State Fault Refusal :=
  match firstUnspecified s (stepReads s) with
  | some n => .fault (.unspecifiedRead n)
  | none => step s

end Sys2Proof.Machine
end

