-- ==== Sys2Proof/Safety.lean ====
section
/-! DEFINITION. What a safe step is, the invariant every state of a run keeps, and the frames claims are stated in. -/

namespace Sys2Proof.Machine

/-! ### Bytes -/

/-- A byte is a sextet byte: bits 7:6 are `0b01` (R70). -/
def IsSextet (b : Byte) : Prop := b.extractLsb' 6 2 = 0b01#2

/-- A sextet byte's payload, bits 5:0, as a number (R70). -/
def payload (b : Byte) : Nat := (b.extractLsb' 0 6).toNat

/-! ### Safe steps and the invariant -/

/-- The step neither faults nor is refused, and reads only registers that hold a value the spec gives (R35, R243). -/
def SafeStep (s : State) : Prop := ∃ t, strictStep s = .next t

/-- The next host step is one the host may take (R34): a write carries a value of its register's width. -/
def State.pendingWf (s : State) : Bool :=
  match s.pending with
  | [] => true
  | h :: _ => h.wf

/-- A legal STATUS: 0x00, as reset leaves it, or DONE with bits 3:1 zero and a code of 0 to 6 (R25, R37, R200). -/
def statusLegal (status : Byte) : Prop :=
  status = 0x00#8 ∨
    (statusDone status = true ∧ statusReserved status = 0#3 ∧ statusCode status ≤ 6#4)

/-- A register number that can hold a value the host or a command wrote: not a reserved one (R21, R36). -/
def storingNum (n : Nat) : Prop := n ≤ 0x06 ∨ (0x10 ≤ n ∧ n ≤ 0x1F)

/-- The bookkeeping of R35: rising, of storing registers only, STATUS always among them (R240). -/
def specifiedLegal (l : List Nat) : Prop :=
  l.Pairwise (· < ·) ∧ (∀ n ∈ l, storingNum n) ∧ 0x03 ∈ l

/-- The invariant of the machine: BUF is in canonical form, STATUS is legal, COUNT is at most 10 where it holds a value
(R27), and the record of R35 is legal and agrees with STATUS. Nothing is said of a register that holds no value. Before a command has run since reset (DONE = 0) no register that only commands
write holds a value, after one (DONE = 1) CMD does, and CODE = INVALID_HIGH_BITS only with a value in ERRBYTE (R28, R37). -/
structure State.Inv (s : State) : Prop where
  buf : Memory.wf s.buf
  status : statusLegal s.status
  count : 0x05 ∈ s.specified → s.count.toNat ≤ Config.nbMax
  specified : specifiedLegal s.specified
  beforeCommand : statusDone s.status = false → 0x04 ∉ s.specified ∧ 0x05 ∉ s.specified ∧ 0x06 ∉ s.specified
  afterCommand : statusDone s.status = true → 0x00 ∈ s.specified
  errByteHeld : statusCode s.status = 1#4 → 0x06 ∈ s.specified

/-- Two states agree on everything the spec gives a value: their records of R35 are equal, every register in them reads
alike, and the host's side is the same. -/
structure AgreesOnSpecified (s u : State) : Prop where
  specified : u.specified = s.specified
  pending : u.pending = s.pending
  readPort : u.readPort = s.readPort
  reads : ∀ r : Reg, r.num ∈ s.specified → regRead r u = regRead r s

/-! ### Streams -/

/-- A list of bytes starts with a VL64 token that decodes: a header with L from 1 to 6, L bytes there, and all of them
sextet bytes (R74, R117). -/
def StartsWithToken (bytes : List Byte) : Prop :=
  ∃ h, bytes[0]? = some h ∧ 1 ≤ lengthField h ∧ lengthField h ≤ 6 ∧ lengthField h ≤ bytes.length ∧
    ∀ b ∈ bytes.take (lengthField h), IsSextet b

/-! ### Frames -/

/-- The registers no command writes, and the host's side, are as before (R21: "written by the block: never"). -/
structure KeepsInputs (s t : State) : Prop where
  cmd : t.cmd = s.cmd
  value : t.value = s.value
  len : t.len = s.len
  readPort : t.readPort = s.readPort
  pending : t.pending = s.pending

/-- Every byte of BUF reads as before. -/
def KeepsBuf (s t : State) : Prop := ∀ a, t.bufByte a = s.bufByte a

/-- A command ended OK (R202): STATUS is 0x01, and what no success writes is as before. -/
structure EndsOk (s t : State) : Prop where
  status : t.status = 0x01#8
  errByte : t.errByte = s.errByte
  inputs : KeepsInputs s t

/-- A command ended with a status other than OK (R202): STATUS is `word`, ERRBYTE takes `byte` where there is one, and
everything else is as before. -/
structure EndsWith (word : Byte) (byte : Option Byte) (s t : State) : Prop where
  status : t.status = word
  errByte : t.errByte = byte.getD s.errByte
  result : t.result = s.result
  count : t.count = s.count
  inputs : KeepsInputs s t
  buf : KeepsBuf s t

end Sys2Proof.Machine
end

