-- ==== Sys2Proof/Certificates/Slice0/Obligations.lean ====
section
/-! DEFINITION. The statements for the provers. Each docstring names the rule of spec/ it comes from, or the log entry
of the choice it rests on. -/

open Sys2Proof Sys2Proof.Machine

/-! ### Decoding (30_encoding.md) -/

/-- R81's map, word by word, read off the table: OP 001 is SX.CHK, and so on. -/
def Obligations.DecodesTheOpcodeMapWords : Prop :=
  decodeCmd 0b00000001#8 = .ok .sxChk ∧ decodeCmd 0b00000010#8 = .ok .vl64Enclen ∧
  decodeCmd 0b00000011#8 = .ok .vl64Enc ∧ decodeCmd 0b00000100#8 = .ok .vl64Declen ∧
  decodeCmd 0b00000101#8 = .ok .vl64Dec ∧ decodeCmd 0b00000110#8 = .ok .b64Enc ∧
  decodeCmd 0b00000111#8 = .ok .b64Dec ∧ decodeTableWord 8 0x05 = some .vl64Dec ∧
  decodeCmd 0b10000001#8 = .error .reservedBits ∧ decodeCmd 0b00000000#8 = .error .opZero

/-- R80 to R82: each command has exactly one word, and every other word is rejected by name: bits 7:3 not zero, or OP
zero. -/
def Obligations.EachCommandHasExactlyOneWord : Prop :=
  (∀ i c, decodeCmd c = .ok i ↔ c = encode i) ∧
  (∀ c, decodeCmd c = .error .reservedBits ↔ 0x08 ≤ c.toNat) ∧
  (∀ c, decodeCmd c = .error .opZero ↔ c.toNat = 0)

/-- R21: the 32 register numbers and the registers stand for each other. -/
def Obligations.RegisterNumbersAndRegistersAgree : Prop :=
  (∀ r : Reg, r.num < 32 ∧ Reg.ofNum (BitVec.ofNat 5 r.num) = r) ∧ ∀ n : BitVec 5, (Reg.ofNum n).num = n.toNat

/-- A host write, given as the spec gives programs, as a pair (register number, value), reads back as that write, for
every register that has a width and every value of that width (R21, R34; 95_test_vectors.md section 3). -/
def Obligations.HostWritePairDecodesToItsWrite : Prop :=
  ∀ (r : Reg) (v : RegVal), r.width = some v.width →
    ∃ p, encodeWrite (.write r v) = some p ∧ decodeWrite p.1 p.2 = some (.write r v)

/-! ### The host's steps (10_state.md) -/

/-- When the host's next step writes a command word that decodes to `i`, the machine's step is that of `i` on the state
in which CMD holds the word and the host step is taken off (R32, R33). `withFetchWord` makes any word that next step. -/
def Obligations.StepRunsTheDecodedCommand : Prop :=
  (∀ (s : State) (c : Byte) (i : Instr) (rest : List HostStep),
    s.pending = .write .cmd (.b8 c) :: rest → decodeCmd c = .ok i →
      step s = exec i ({ s with pending := rest }.putCmd c)) ∧
  ∀ (s : State) (w : Nat) (i : Instr), decodeTableWord 8 w = some i →
    step (s.withFetchWord 8 w) = exec i (s.putCmd (BitVec.ofNat 8 w))

/-- A step takes the host's next step, whole, and with nothing pending it changes nothing: "The block never takes a
step on its own" (R20, R32). That an idle step exists is the model's choice (log 5). -/
def Obligations.StepTakesTheNextHostStep : Prop :=
  (∀ s : State, s.pending = [] → step s = .next s) ∧
  ∀ (s : State) (h : HostStep) (rest : List HostStep), s.pending = h :: rest →
    step s = runHostStep h { s with pending := rest }

/-- R206 with R82: a word with bits 7:3 not zero, or with OP zero, ends with ILLEGAL_CMD. CMD keeps the word, and only
STATUS is written beside it. -/
def Obligations.IllegalWordWritesStatusOnly : Prop :=
  ∀ (s : State) (c : Byte), (c.extractLsb' 3 5 ≠ 0#5 ∨ c.extractLsb' 0 3 = 0#3) →
    ∃ t, runHostStep (.write .cmd (.b8 c)) s = .next t ∧ t.cmd = c ∧ EndsWith 0x61#8 none { s with cmd := c } t ∧
      hostStepReads (.write .cmd (.b8 c)) s = []

/-- R210, R22, R32: every write of CMD completes within that host step, sets STATUS.DONE, and CMD reads back the word
written, legal or not. -/
def Obligations.EveryCommandWriteCompletes : Prop :=
  ∀ (s : State) (c : Byte), ∃ t, runHostStep (.write .cmd (.b8 c)) s = .next t ∧
    t.status.getLsbD 0 = true ∧ regRead .cmd t = .b8 c

/-- A write to a read-only register has no effect when its value has the register's width (R34), and a value of another
width is refused, whatever the register. The refusal is the model's choice, after D29 (log 7). -/
def Obligations.ReadOnlyWritesAreIgnoredAndWidthsEnforced : Prop :=
  (∀ (s : State) (r : Reg) (v : RegVal), (r = .status ∨ r = .result ∨ r = .count ∨ r = .errByte) →
    r.width = some v.width → runHostStep (.write r v) s = .next s) ∧
  ∀ (s : State) (r : Reg) (v : RegVal) (w : Nat), r.width = some w → v.width ≠ w →
    runHostStep (.write r v) s = .refused (.writeWidth r.num v.width)

/-- R36: register numbers 0x07 to 0x0F read 0, and a write to one has no effect and starts no command. -/
def Obligations.ReservedNumbersReadZeroAndIgnoreWrites : Prop :=
  ∀ (s : State) (n : BitVec 5) (v : RegVal), 0x07 ≤ n.toNat → n.toNat ≤ 0x0F →
    (regRead (Reg.ofNum n) s).toNat = 0 ∧ runHostStep (.write (Reg.ofNum n) v) s = .next s

/-- R32 (b): a read returns the register's value to the host, and no register changes (R59). -/
def Obligations.ReadReturnsTheRegisterAndChangesNone : Prop :=
  ∀ (s : State) (r : Reg), ∃ t, runHostStep (.read r) s = .next t ∧ t.readPort = some (regRead r s) ∧
    t.pending = s.pending ∧ t.specified = s.specified ∧ ∀ r', regRead r' t = regRead r' s

/-- R61, R244: a host write of VALUE, LEN or a BUF byte is what the very next read of that register returns, and every
other register reads as before. BUF is taken in canonical form, which every step keeps (StepKeepsTheInvariant). -/
def Obligations.HostWriteIsReadBackAndLeavesTheRest : Prop :=
  ∀ (s : State) (r : Reg) (v : RegVal), Memory.wf s.buf → (r = .value ∨ r = .len ∨ ∃ i, r = .buf i) →
    r.width = some v.width →
    ∃ t, runHostStep (.write r v) s = .next t ∧ regRead r t = v ∧ r.num ∈ t.specified ∧
      t.readPort = s.readPort ∧ t.pending = s.pending ∧ ∀ r', r' ≠ r → regRead r' t = regRead r' s

/-- R240: reset, as a host step or at power-on, sets STATUS to 0x00 and leaves every other register but the reserved
numbers holding no value. -/
def Obligations.ResetClearsStatusAndUnspecifiesTheRest : Prop :=
  (∀ s : State, ∃ t, runHostStep .reset s = .next t ∧ t.status = 0x00#8 ∧
    (∀ k : Fin 9, (regRead (.reserved k) t).toNat = 0) ∧
    ∀ n, holdsValue t n = true ↔ n = 0x03 ∨ (0x07 ≤ n ∧ n ≤ 0x0F)) ∧
  State.reset.status = 0x00#8 ∧ (∀ k : Fin 9, (regRead (.reserved k) State.reset).toNat = 0) ∧
  ∀ n, holdsValue State.reset n = true ↔ n = 0x03 ∨ (0x07 ≤ n ∧ n ≤ 0x0F)

/-- R37: every command writes STATUS.DONE and STATUS.CODE when it ends, DONE to 1, and no other host step writes either,
except that reset clears both. No command reads them: whatever STATUS was, a command leaves the same state. -/
def Obligations.OnlyCommandsAndResetWriteTheFlags : Prop :=
  (∀ (s t : State) (h : HostStep), runHostStep h s = .next t →
    (∃ c, h = .write .cmd (.b8 c) ∧ statusDone t.status = true) ∨
    (h = .reset ∧ statusDone t.status = false ∧ statusCode t.status = 0#4) ∨
    ((∀ c, h ≠ .write .cmd (.b8 c)) ∧ h ≠ .reset ∧ t.status = s.status)) ∧
  ∀ (s : State) (c word : Byte),
    runHostStep (.write .cmd (.b8 c)) { s with status := word } = runHostStep (.write .cmd (.b8 c)) s

/-! ### The data encodings (30_encoding.md) -/

/-- R70: the bytes whose bits 7:6 are 01 are exactly 0x40 to 0x7F, and payload = bits 5:0 = byte − 0x40. Every other byte
fails the test, and is reported with its full value (R101). -/
def Obligations.SextetBytesAreExactly40To7F : Prop :=
  ∀ b : Byte, (IsSextet b ↔ 0x40 ≤ b.toNat ∧ b.toNat ≤ 0x7F) ∧
    (0x40 ≤ b.toNat ∧ b.toNat ≤ 0x7F →
      ∃ p, sextetCheck b = .ok p ∧ p.toNat = payload b ∧ payload b = b.toNat - 0x40) ∧
    (b.toNat < 0x40 ∨ 0x7F < b.toNat → sextetCheck b = .error (.invalidHighBits b))

/-- R74: the legal header bytes are 0x48 to 0x77, with L, S and V where R72 puts them. The other sextet bytes give
INVALID_LENGTH, and every other byte INVALID_HIGH_BITS. -/
def Obligations.LegalHeadersAreExactly48To77 : Prop :=
  ∀ h : Byte,
    (0x48 ≤ h.toNat ∧ h.toNat ≤ 0x77 → ∃ d, vl64Header h = .ok d ∧
      h.toNat = 0x40 + 8 * d.len.toNat + 4 * d.sign.toNat + d.low.toNat ∧ 1 ≤ d.len.toNat ∧ d.len.toNat ≤ 6) ∧
    ((0x40 ≤ h.toNat ∧ h.toNat ≤ 0x47) ∨ (0x78 ≤ h.toNat ∧ h.toNat ≤ 0x7F) → vl64Header h = .error .invalidLength) ∧
    (h.toNat < 0x40 ∨ 0x7F < h.toNat → vl64Header h = .error (.invalidHighBits h))

/-- R110 and R100: the ports of the header decoder and its validator say what the unit's function says. That `errbyte`
shows the header byte also where it is not meaningful is the model's choice (log 12). -/
def Obligations.HeaderPortsAgreeWithTheUnit : Prop :=
  ∀ h : Byte, ((sextetPorts h).ok = 1#1 ↔ IsSextet h) ∧
    (∀ p, sextetCheck h = .ok p → (sextetPorts h).payload = p ∧ p = h.extractLsb' 0 6) ∧ (headerPorts h).errbyte = h ∧
    match vl64Header h with
    | .ok d => (headerPorts h).err = 0#2 ∧ (headerPorts h).len = d.len ∧ (headerPorts h).neg = d.sign ∧
        (headerPorts h).low = d.low
    | .error (.invalidHighBits b) => (headerPorts h).err = 1#2 ∧ (headerPorts h).errbyte = b
    | .error r => (headerPorts h).err = 2#2 ∧ r = .invalidLength

/-- R79 and R113: over the lanes k < len, all of them sextet bytes, the accumulator's magnitude is the exact sum of the
chunks, with no overflow. Otherwise it reports the lowest-numbered bad lane. Lanes k ≥ len do not matter. -/
def Obligations.AccumulatorSumsTheChunksInUse : Prop :=
  ∀ (c : Vector Byte 5) (len : BitVec 3) (low : BitVec 2), 1 ≤ len.toNat → len.toNat ≤ 6 →
    ((∀ j : Fin 5, j.val < len.toNat - 1 → IsSextet (c.get j)) →
      ∃ m, accumulatorPorts c len low = some { err := 0#1, errbyte := none, mag := some m } ∧
        m.toNat = low.toNat +
          ∑ j : Fin 5, if j.val < len.toNat - 1 then payload (c.get j) * 2 ^ (2 + 6 * j.val) else 0) ∧
    ∀ j : Fin 5, j.val < len.toNat - 1 → ¬ IsSextet (c.get j) → (∀ k : Fin 5, k < j → IsSextet (c.get k)) →
      accumulatorPorts c len low = some { err := 1#1, errbyte := some (c.get j), mag := none }

/-- R114: the value of a sign and a magnitude is −m if S = 1, else m, exactly, in 64 bits. -/
def Obligations.SignIsAppliedExactly : Prop :=
  ∀ (sign : BitVec 1) (m : BitVec 32),
    (vl64Value sign m).toInt = if sign = 1#1 then -(m.toNat : Int) else (m.toNat : Int)

/-- R122, its table by magnitudes. -/
def Obligations.EncodedLengthTableByMagnitude : Prop :=
  ∀ m : Nat, vl64EncodedLength m = (bitlen m + 9) / 6 ∧
    (m ≤ 3 → vl64EncodedLength m = 1) ∧
    (4 ≤ m ∧ m ≤ 255 → vl64EncodedLength m = 2) ∧
    (256 ≤ m ∧ m ≤ 16383 → vl64EncodedLength m = 3) ∧
    (16384 ≤ m ∧ m ≤ 1048575 → vl64EncodedLength m = 4) ∧
    (1048576 ≤ m ∧ m ≤ 67108863 → vl64EncodedLength m = 5) ∧
    (67108864 ≤ m ∧ m ≤ 4294967295 → vl64EncodedLength m = 6)

/-- R123: the source's second formula, the least length whose capacity holds the magnitude, the same for v and −v, and
never decreasing as the magnitude grows. The ceiling is written as a division of natural numbers. -/
def Obligations.EncodedLengthIsLeastAndMonotone : Prop :=
  (∀ m : Nat, vl64EncodedLength m = if 2 < bitlen m then (bitlen m - 2 + 5) / 6 + 1 else 1) ∧
  (∀ m : Nat, m < 2 ^ (2 + 6 * (vl64EncodedLength m - 1))) ∧
  (∀ m l : Nat, 1 ≤ l → m < 2 ^ (2 + 6 * (l - 1)) → vl64EncodedLength m ≤ l) ∧
  (∀ m n : Nat, m ≤ n → vl64EncodedLength m ≤ vl64EncodedLength n) ∧
  ∀ v : Word, vl64EncodedLength (magnitude v) = vl64EncodedLength (magnitude (-v))

/-! ### What each command does -/

/-- R103, SX.CHK: RESULT takes bits 5:0 of BUF[0] when bits 7:6 are 01, else ERRBYTE takes BUF[0]. All else stays.
The last clause is R103's note on an unwritten BUF[0], for the step that faults there (R35). -/
def Obligations.SxChkTestsTheFirstByte : Prop :=
  encode .sxChk = 0x01#8 ∧
  (∀ s : State, IsSextet (s.bufByte 0) → ∃ t, exec .sxChk s = .next t ∧ EndsOk s t ∧
    t.result.toNat = payload (s.bufByte 0) ∧ t.count = s.count ∧ KeepsBuf s t) ∧
  (∀ s : State, ¬ IsSextet (s.bufByte 0) →
    ∃ t, exec .sxChk s = .next t ∧ EndsWith 0x11#8 (some (s.bufByte 0)) s t) ∧
  ∀ (s : State) (rest : List HostStep), s.pending = .write .cmd (.b8 0x01#8) :: rest → 0x10 ∉ s.specified →
    strictStep s = .fault (.unspecifiedRead 0x10)

/-- R130, VL64.ENCLEN: COUNT takes (bitlen(m) + 9) div 6 of the magnitude m of VALUE, or OUT_OF_RANGE from 2^32 up. -/
def Obligations.Vl64EnclenCountsTheEncodedLength : Prop :=
  encode .vl64Enclen = 0x02#8 ∧
  (∀ s : State, s.value.toInt.natAbs < 2 ^ 32 → ∃ t, exec .vl64Enclen s = .next t ∧ EndsOk s t ∧
    t.count.toNat = (bitlen s.value.toInt.natAbs + 9) / 6 ∧ t.result = s.result ∧ KeepsBuf s t) ∧
  ∀ s : State, 2 ^ 32 ≤ s.value.toInt.natAbs →
    ∃ t, exec .vl64Enclen s = .next t ∧ EndsWith 0x41#8 none s t

/-- R131 with R124, VL64.ENC: BUF[0..L-1] takes the header (marker, L, S, the low two magnitude bits) and the 6-bit
chunks, least significant first. Every other byte of BUF and RESULT stay. -/
def Obligations.Vl64EncWritesTheToken : Prop :=
  encode .vl64Enc = 0x03#8 ∧
  (∀ s : State, s.value.toInt.natAbs < 2 ^ 32 → ∃ t, exec .vl64Enc s = .next t ∧ EndsOk s t ∧
    t.count.toNat = vl64EncodedLength s.value.toInt.natAbs ∧ t.result = s.result ∧
    (t.bufByte 0).toNat = 0x40 + 8 * vl64EncodedLength s.value.toInt.natAbs +
      4 * (if s.value.toInt < 0 then 1 else 0) + s.value.toInt.natAbs % 4 ∧
    (∀ k, 1 ≤ k → k < vl64EncodedLength s.value.toInt.natAbs →
      (t.bufByte k).toNat = 0x40 + s.value.toInt.natAbs / 2 ^ (2 + 6 * (k - 1)) % 64) ∧
    ∀ a, vl64EncodedLength s.value.toInt.natAbs ≤ a → t.bufByte a = s.bufByte a) ∧
  ∀ s : State, 2 ^ 32 ≤ s.value.toInt.natAbs →
    ∃ t, exec .vl64Enc s = .next t ∧ EndsWith 0x41#8 none s t

/-- R132 with R111, VL64.DECLEN: COUNT takes bits 5:3 of a legal header. The marker is tested before the length. -/
def Obligations.Vl64DeclenReadsTheHeader : Prop :=
  encode .vl64Declen = 0x04#8 ∧
  (∀ s : State, IsSextet (s.bufByte 0) → 1 ≤ lengthField (s.bufByte 0) → lengthField (s.bufByte 0) ≤ 6 →
    ∃ t, exec .vl64Declen s = .next t ∧ EndsOk s t ∧ t.count.toNat = lengthField (s.bufByte 0) ∧
      t.result = s.result ∧ KeepsBuf s t) ∧
  (∀ s : State, ¬ IsSextet (s.bufByte 0) →
    ∃ t, exec .vl64Declen s = .next t ∧ EndsWith 0x11#8 (some (s.bufByte 0)) s t) ∧
  ∀ s : State, IsSextet (s.bufByte 0) → (lengthField (s.bufByte 0) = 0 ∨ lengthField (s.bufByte 0) = 7) →
    ∃ t, exec .vl64Declen s = .next t ∧ EndsWith 0x21#8 none s t

/-- R133 with R79, VL64.DEC on a whole legal token: RESULT is ±(V + Σ chunk_k · 2^(2+6(k-1))) by the sign flag, and
COUNT is L. Non-canonical tokens (R115) and S = 1 with magnitude 0 (R114) are among them. -/
def Obligations.Vl64DecReturnsTheTokenValue : Prop :=
  ∀ (s : State) (l m : Nat), l = lengthField (s.bufByte 0) → 1 ≤ l → l ≤ 6 → l ≤ s.len.toNat → s.len.toNat ≤ 16 →
    (∀ k, k < l → IsSextet (s.bufByte k)) →
    m = ((s.bufByte 0).extractLsb' 0 2).toNat +
      ∑ k ∈ Finset.range (l - 1), payload (s.bufByte (k + 1)) * 2 ^ (2 + 6 * k) →
    ∃ t, exec .vl64Dec s = .next t ∧ EndsOk s t ∧ t.count.toNat = l ∧ KeepsBuf s t ∧ m < 2 ^ 32 ∧
      t.result.toInt = if (s.bufByte 0).getLsbD 2 then -(m : Int) else (m : Int)

/-- R117 and R118 with R205: what VL64.DEC reports, and when, in the order of its checks. Nothing but STATUS, and
ERRBYTE where a byte is reported, changes. -/
def Obligations.Vl64DecReportsTheFirstFailingCheck : Prop :=
  ∀ s : State,
    (16 < s.len.toNat → ∃ t, exec .vl64Dec s = .next t ∧ EndsWith 0x51#8 none s t) ∧
    (s.len.toNat = 0 → (∃ t, exec .vl64Dec s = .next t ∧ EndsWith 0x31#8 none s t) ∧ commandReads .vl64Dec s = [0x02]) ∧
    (1 ≤ s.len.toNat → s.len.toNat ≤ 16 →
      (¬ IsSextet (s.bufByte 0) →
        ∃ t, exec .vl64Dec s = .next t ∧ EndsWith 0x11#8 (some (s.bufByte 0)) s t) ∧
      (IsSextet (s.bufByte 0) → (lengthField (s.bufByte 0) = 0 ∨ lengthField (s.bufByte 0) = 7) →
        ∃ t, exec .vl64Dec s = .next t ∧ EndsWith 0x21#8 none s t) ∧
      (IsSextet (s.bufByte 0) → 1 ≤ lengthField (s.bufByte 0) → lengthField (s.bufByte 0) ≤ 6 →
        (s.len.toNat < lengthField (s.bufByte 0) →
          ∃ t, exec .vl64Dec s = .next t ∧ EndsWith 0x31#8 none s t) ∧
        (lengthField (s.bufByte 0) ≤ s.len.toNat → ∀ k, 1 ≤ k → k < lengthField (s.bufByte 0) →
          ¬ IsSextet (s.bufByte k) → (∀ j, 1 ≤ j → j < k → IsSextet (s.bufByte j)) →
            ∃ t, exec .vl64Dec s = .next t ∧ EndsWith 0x11#8 (some (s.bufByte k)) s t)))

/-- R170 with R162, R163 and R161, B64.ENC: byte i of BUF takes bits [6(N-1-i), 6(N-1-i)+5] of VALUE behind the marker,
whatever the higher bits. Every other byte of BUF and RESULT stay. LEN > 10 gives BAD_WIDTH. -/
def Obligations.B64EncWritesTheChunks : Prop :=
  encode .b64Enc = 0x06#8 ∧
  (∀ s : State, s.len.toNat ≤ 10 → ∃ t, exec .b64Enc s = .next t ∧ EndsOk s t ∧
    t.count.toNat = s.len.toNat ∧ t.result = s.result ∧
    (∀ i, i < s.len.toNat →
      (t.bufByte i).toNat = 0x40 + s.value.toNat / 2 ^ (6 * (s.len.toNat - 1 - i)) % 64) ∧
    ∀ a, s.len.toNat ≤ a → t.bufByte a = s.bufByte a) ∧
  ∀ s : State, 10 < s.len.toNat → ∃ t, exec .b64Enc s = .next t ∧ EndsWith 0x51#8 none s t

/-- R171 with R164, R86 and R161, B64.DEC: RESULT is Σ payload_i · 2^(6(N-1-i)) over N = LEN sextet bytes and COUNT is
N. The first bad byte is reported. LEN > 10 gives BAD_WIDTH before any byte is looked at. -/
def Obligations.B64DecReturnsTheChunkSum : Prop :=
  encode .b64Dec = 0x07#8 ∧
  (∀ s : State, s.len.toNat ≤ 10 → (∀ i, i < s.len.toNat → IsSextet (s.bufByte i)) →
    ∃ t, exec .b64Dec s = .next t ∧ EndsOk s t ∧ t.count.toNat = s.len.toNat ∧ KeepsBuf s t ∧
      t.result.toNat = ∑ i ∈ Finset.range s.len.toNat, payload (s.bufByte i) * 2 ^ (6 * (s.len.toNat - 1 - i))) ∧
  (∀ (s : State) (i : Nat), s.len.toNat ≤ 10 → i < s.len.toNat → ¬ IsSextet (s.bufByte i) →
    (∀ j, j < i → IsSextet (s.bufByte j)) →
    ∃ t, exec .b64Dec s = .next t ∧ EndsWith 0x11#8 (some (s.bufByte i)) s t) ∧
  ∀ s : State, 10 < s.len.toNat → ∃ t, exec .b64Dec s = .next t ∧ EndsWith 0x51#8 none s t

/-- R119: the L in an accepted token's header is the COUNT that VL64.DEC and VL64.DECLEN report. -/
def Obligations.AcceptedTokenLengthIsItsHeaderField : Prop :=
  ∀ s t : State, exec .vl64Dec s = .next t → t.status = 0x01#8 →
    t.count.toNat = lengthField (s.bufByte 0) ∧
    ∃ u, exec .vl64Declen s = .next u ∧ u.status = 0x01#8 ∧ u.count = t.count

/-- R116: bytes at or past the token's length, and LEN beyond it, do not matter to VL64.DEC, which reads none of them. -/
def Obligations.Vl64DecIgnoresBytesPastTheToken : Prop :=
  ∀ s u : State, IsSextet (s.bufByte 0) → 1 ≤ lengthField (s.bufByte 0) → lengthField (s.bufByte 0) ≤ 6 →
    (∀ a, a < lengthField (s.bufByte 0) → u.bufByte a = s.bufByte a) →
    lengthField (s.bufByte 0) ≤ s.len.toNat → s.len.toNat ≤ 16 →
    lengthField (s.bufByte 0) ≤ u.len.toNat → u.len.toNat ≤ 16 →
    ∃ s' u', exec .vl64Dec s = .next s' ∧ exec .vl64Dec u = .next u' ∧ s'.status = u'.status ∧
      (s'.status = 0x01#8 → s'.result = u'.result ∧ s'.count = u'.count) ∧
      (s'.status = 0x11#8 → s'.errByte = u'.errByte) ∧
      ∀ n ∈ commandReads .vl64Dec s, n < 0x10 + lengthField (s.bufByte 0)

/-! ### Whole-command rules (60_exceptions.md, 20_memory.md, 10_state.md) -/

/-- R202: raising a code writes (Code << 4) | 1 into STATUS and, on INVALID_HIGH_BITS, the byte into ERRBYTE. A command
that ends with another code than OK writes nothing else, CMD apart, which the host's write stored. -/
def Obligations.FailingCommandsWriteOnlyTheirStatus : Prop :=
  (∀ (r : Raise) (s : State), (s.raise r).status.toNat = r.code.toNat * 16 + 1 ∧
    (s.raise r).errByte = r.info.getD s.errByte ∧ ∀ b, r.info = some b ↔ r = .invalidHighBits b) ∧
  ∀ (c : Byte) (s t : State), runHostStep (.write .cmd (.b8 c)) s = .next t → t.status = 0x01#8 ∨
    ∃ r, r ≠ .ok ∧ EndsWith (statusWord r) r.info { s with cmd := c } t

/-- R200 and R201: the codes each command may end with, as STATUS words. -/
def Obligations.EachCommandRaisesOnlyItsCodes : Prop :=
  ∀ (i : Instr) (s t : State), exec i s = .next t → t.status ∈
    match i with
    | .sxChk => [0x01#8, 0x11#8]
    | .vl64Enclen => [0x01#8, 0x41#8]
    | .vl64Enc => [0x01#8, 0x41#8]
    | .vl64Declen => [0x01#8, 0x11#8, 0x21#8]
    | .vl64Dec => [0x01#8, 0x11#8, 0x21#8, 0x31#8, 0x51#8]
    | .b64Enc => [0x01#8, 0x51#8]
    | .b64Dec => [0x01#8, 0x11#8, 0x51#8]

/-- R205: BAD_WIDTH exactly when LEN is out of the range of a command that reads it, whatever else is wrong. The other
four commands do not read LEN. -/
def Obligations.BadWidthExactlyWhenLenIsOutOfRange : Prop :=
  ∀ (i : Instr) (s : State),
    (∃ t, exec i s = .next t ∧
      (t.status = 0x51#8 ↔ (i = .vl64Dec ∧ 16 < s.len.toNat) ∨ ((i = .b64Enc ∨ i = .b64Dec) ∧ 10 < s.len.toNat))) ∧
    (0x02 ∈ commandReads i s ↔ i = .vl64Dec ∨ i = .b64Enc ∨ i = .b64Dec)

/-- R207: the first failing check of the table's row is the one reported, with nothing else written. With no failing
check the command ends OK. The table is `wordChecks`, written apart from the meanings. -/
def Obligations.FirstFailingCheckIsReported : Prop :=
  ∀ (s : State) (c : Byte), ∃ t, runHostStep (.write .cmd (.b8 c)) s = .next t ∧
    match firstFailing (wordChecks c s) with
    | some r => t = (s.putCmd c).raise r
    | none => t.status = 0x01#8

/-- R57 with R29: an encode that ends OK leaves every BUF byte at or past its output count unchanged, the encoded length
for VL64.ENC and LEN for B64.ENC. No other command, and no failing one, changes BUF at all. Every index reads, so this
is all of memory. -/
def Obligations.OnlyEncodesWriteBufAndOnlyTheirToken : Prop :=
  ∀ (i : Instr) (s t : State), exec i s = .next t →
    (t.status = 0x01#8 → i = .vl64Enc → ∀ a, vl64EncodedLength (magnitude s.value) ≤ a → t.bufByte a = s.bufByte a) ∧
    (t.status = 0x01#8 → i = .b64Enc → ∀ a, s.lenCount ≤ a → t.bufByte a = s.bufByte a) ∧
    (t.status ≠ 0x01#8 ∨ (i ≠ .vl64Enc ∧ i ≠ .b64Enc) → ∀ a, t.bufByte a = s.bufByte a)

/-- R21, its column "written by the block: never": no command writes CMD, VALUE or LEN, nor the host's side. -/
def Obligations.CommandsNeverWriteCmdValueOrLen : Prop :=
  ∀ (i : Instr) (s t : State), exec i s = .next t → KeepsInputs s t

/-- R26 and R27: RESULT is written by SX.CHK, VL64.DEC and B64.DEC on success only, and COUNT by every command but
SX.CHK on success only. -/
def Obligations.ResultAndCountChangeOnlyOnSuccess : Prop :=
  ∀ (i : Instr) (s t : State), exec i s = .next t →
    (t.status ≠ 0x01#8 ∨ i = .vl64Enclen ∨ i = .vl64Enc ∨ i = .vl64Declen ∨ i = .b64Enc → t.result = s.result) ∧
    (t.status ≠ 0x01#8 ∨ i = .sxChk → t.count = s.count) ∧
    (t.status = 0x01#8 → i ≠ .sxChk → i ≠ .b64Enc → i ≠ .b64Dec → 1 ≤ t.count.toNat ∧ t.count.toNat ≤ 6) ∧
    (t.status = 0x01#8 → i = .b64Enc ∨ i = .b64Dec → t.count.toNat = s.len.toNat ∧ t.count.toNat ≤ 10)

/-- R28: ERRBYTE takes the offending byte, a byte of BUF that fails the marker test with none before it failing, on
INVALID_HIGH_BITS, and no other outcome writes it. It is read-only, 8 bits wide, and holds no value after reset. -/
def Obligations.ErrbyteIsTheFirstOffendingByte : Prop :=
  Reg.errByte.readOnly = true ∧ Reg.errByte.width = some 8 ∧ holdsValue State.reset Reg.errByte.num = false ∧
  ∀ (c : Byte) (s t : State), runHostStep (.write .cmd (.b8 c)) s = .next t →
    (t.status = 0x11#8 → ∃ k, k < 16 ∧ t.errByte = s.bufByte k ∧ ¬ IsSextet (s.bufByte k) ∧
      ∀ j, j < k → IsSextet (s.bufByte j)) ∧
    (t.status ≠ 0x11#8 → t.errByte = s.errByte)

/-- R35: "A register receives a value when the host or a command writes it": a command gives a value to STATUS, to
ERRBYTE on INVALID_HIGH_BITS, and on success to RESULT, COUNT and the token's BUF bytes, by command. The record
`specified` is the model's own (log 9). -/
def Obligations.CommandsSpecifyExactlyWhatTheyWrite : Prop :=
  ∀ (i : Instr) (s t : State), exec i s = .next t → ∀ n,
    n ∈ t.specified ↔ n ∈ s.specified ∨ n = 0x03 ∨ (n = 0x06 ∧ t.status = 0x11#8) ∨
      (t.status = 0x01#8 ∧
        ((n = 0x04 ∧ (i = .sxChk ∨ i = .vl64Dec ∨ i = .b64Dec)) ∨ (n = 0x05 ∧ i ≠ .sxChk) ∨
          ((i = .vl64Enc ∨ i = .b64Enc) ∧ 0x10 ≤ n ∧ n < 0x10 + t.count.toNat)))

/-- R31: a command's results depend only on VALUE, LEN and BUF: not on STATUS, RESULT, COUNT or ERRBYTE, and on nothing
hidden. -/
def Obligations.ResultsDependOnlyOnValueLenAndBuf : Prop :=
  ∀ (i : Instr) (s u : State), u.value = s.value → u.len = s.len → (∀ a, u.bufByte a = s.bufByte a) →
    ∃ s' u', exec i s = .next s' ∧ exec i u = .next u' ∧ u'.status = s'.status ∧
      (s'.status = 0x01#8 → (i = .sxChk ∨ i = .vl64Dec ∨ i = .b64Dec) → u'.result = s'.result) ∧
      (s'.status = 0x01#8 → i ≠ .sxChk → u'.count = s'.count) ∧
      (s'.status = 0x11#8 → u'.errByte = s'.errByte) ∧ ∀ a, u'.bufByte a = s'.bufByte a

/-- R59: a read changes no register, a write to a register other than CMD changes that register alone, and writing one
value twice to any register, CMD included, with any reads but no write in between, leaves what writing it once leaves.
The states are those of the invariant, which every step keeps (StepKeepsTheInvariant). -/
def Obligations.RepeatedWritesChangeNothingMore : Prop :=
  ∀ s : State, s.Inv →
    (∀ r r', regRead r' (hostRead r s) = regRead r' s) ∧
    (∀ (r : Reg) (v : RegVal) (t : State), r ≠ .cmd → runHostStep (.write r v) s = .next t →
      ∀ r', r' ≠ r → regRead r' t = regRead r' s) ∧
    ∀ (r : Reg) (v : RegVal) (t : State) (between : List Reg), runHostStep (.write r v) s = .next t →
      runHostStep (.write r v) (between.foldl (fun u r' => hostRead r' u) t) =
        .next (between.foldl (fun u r' => hostRead r' u) t)

/-! ### Round trips -/

/-- R126: VL64.ENC, then LEN set to any available count of at least the token's length, then VL64.DEC, gives VALUE back
in RESULT and the token's length in COUNT. The sign flag is set exactly below zero, and 0 encodes as 0x48. -/
def Obligations.Vl64RoundTrip : Prop :=
  ∀ (s : State) (n : BitVec 5), s.value.toInt.natAbs < 2 ^ 32 →
    vl64EncodedLength s.value.toInt.natAbs ≤ n.toNat → n.toNat ≤ 16 →
    ∃ t u, exec .vl64Enc s = .next t ∧ exec .vl64Dec (t.putLen n) = .next u ∧
      t.status = 0x01#8 ∧ u.status = 0x01#8 ∧
      u.result = s.value ∧ u.count = t.count ∧ t.count.toNat = vl64EncodedLength s.value.toInt.natAbs ∧
      ((t.bufByte 0).getLsbD 2 = true ↔ s.value.toInt < 0) ∧ (s.value = 0#64 → t.bufByte 0 = 0x48#8)

/-- The other way about (from R114, R115, R124 and R126): a token that VL64.DEC accepts, that is canonical and is not
S = 1 with magnitude 0, is what VL64.ENC writes for its value. -/
def Obligations.Vl64ReencodingACanonicalTokenGivesIt : Prop :=
  ∀ s t : State, exec .vl64Dec s = .next t → t.status = 0x01#8 →
    t.count.toNat = vl64EncodedLength t.result.toInt.natAbs →
    ¬ ((s.bufByte 0).getLsbD 2 = true ∧ t.result = 0#64) →
    ∃ u, exec .vl64Enc (t.putValue t.result) = .next u ∧ u.status = 0x01#8 ∧ u.count = t.count ∧
      ∀ a, u.bufByte a = s.bufByte a

/-- R166: B64.ENC then B64.DEC with the same N gives VALUE mod 2^(6N), which is VALUE when VALUE < 2^(6N). -/
def Obligations.B64RoundTrip : Prop :=
  (∀ (v : Word) (n : Nat), n ≤ 10 → b64Decode (b64Encode v n) = .ok (BitVec.ofNat 64 (v.toNat % 2 ^ (6 * n)))) ∧
  ∀ s : State, s.len.toNat ≤ 10 →
    ∃ t u, exec .b64Enc s = .next t ∧ exec .b64Dec t = .next u ∧ u.status = 0x01#8 ∧
      u.result.toNat = s.value.toNat % 2 ^ (6 * s.len.toNat) ∧
      (s.value.toNat < 2 ^ (6 * s.len.toNat) → u.result = s.value)

/-- The other way about (from R77 and R162): every token B64.DEC accepts is what B64.ENC writes for its value. -/
def Obligations.B64ReencodingATokenGivesIt : Prop :=
  ∀ s t : State, exec .b64Dec s = .next t → t.status = 0x01#8 →
    ∃ u, exec .b64Enc (t.putValue t.result) = .next u ∧ u.status = 0x01#8 ∧ u.count = t.count ∧
      ∀ a, u.bufByte a = s.bufByte a

/-- The loop of R246 over the tokens of any in-range values, one after another, takes every value in order and leaves
nothing of the stream. The loop as a function is the model's (log 16). -/
def Obligations.StreamLoopRecoversEveryValue : Prop :=
  ∀ (s : State) (vs : List Word) (toks : List (List Byte)),
    List.Forall₂ (fun v tok => ∃ l, vl64Encode v = .ok (l, tok)) vs toks →
    ∃ u, decodeStream vs.length toks.flatten s = .next { values := vs, left := [], block := u }

/-! ### The host program (30_encoding.md R84, R85) -/

/-- R85: each pseudo-instruction's expansion, as host steps. A literal of VALUE may be negative (R84). -/
def Obligations.PseudoInstructionsExpandAsTabled : Prop :=
  (∀ v : Int, -2 ^ 63 ≤ v → v < 2 ^ 64 →
    assembleLine (.vl64Len v) = some [.write .value (.b64 (BitVec.ofInt 64 v)), .write .cmd (.b8 0x02#8)] ∧
    assembleLine (.vl64Put v) = some [.write .value (.b64 (BitVec.ofInt 64 v)), .write .cmd (.b8 0x03#8)]) ∧
  (∀ n : Int, 0 ≤ n → n < 32 →
    assembleLine (.vl64Get n) = some [.write .len (.b5 (BitVec.ofInt 5 n)), .write .cmd (.b8 0x05#8)] ∧
    assembleLine (.b64Get n) = some [.write .len (.b5 (BitVec.ofInt 5 n)), .write .cmd (.b8 0x07#8)]) ∧
  (∀ n v : Int, 0 ≤ n → n < 32 → -2 ^ 63 ≤ v → v < 2 ^ 64 →
    assembleLine (.b64Put n v) = some [.write .value (.b64 (BitVec.ofInt 64 v)),
      .write .len (.b5 (BitVec.ofInt 5 n)), .write .cmd (.b8 0x06#8)]) ∧
  ∀ bs : List Int, 1 ≤ bs.length → bs.length ≤ 16 → (∀ b ∈ bs, 0 ≤ b ∧ b < 256) →
    ∃ hs, assembleLine (.ldbuf bs) = some hs ∧ hs.length = bs.length ∧
      ∀ (i : Fin 16) (b : Int), bs[i.val]? = some b → hs[i.val]? = some (.write (.buf i) (.b8 (BitVec.ofInt 8 b)))

/-! ### Whole-machine rules -/

/-- The invariant holds right after reset. It bounds COUNT only where COUNT holds a value (R27), so the bound rests on no
value the model chose; that unlisted BUF bytes are kept out of the list is the model's (log 2). -/
def Obligations.ResetMeetsTheInvariant : Prop := State.reset.Inv

/-- Every step keeps the invariant, from every state that meets it (R25, R27, R28, R35, R37 and the canonical form of
BUF, which is the model's, log 2). COUNT is bounded only where it holds a value, so no step is held to a value the model
chose for reset. -/
def Obligations.StepKeepsTheInvariant : Prop :=
  ∀ s t : State, s.Inv → step s = .next t → t.Inv

/-- The block has no trap (R208): no step faults, from any state. A step gives a next state exactly when the host's next
step is one the host may take (R34). -/
def Obligations.NoStepFaults : Prop :=
  (∀ (s : State) (f : Fault), step s ≠ .fault f) ∧
  ∀ s : State, (∃ t, step s = .next t) ↔ s.pendingWf = true

/-- R35, R204 and R243: the stricter step faults exactly where the next host step reads a register that holds no value,
and there it names the first one. Everywhere else it is the step. -/
def Obligations.StrictStepFaultsExactlyOnUnwrittenReads : Prop :=
  ∀ s : State,
    ((∀ n ∈ stepReads s, holdsValue s n = true) → strictStep s = step s) ∧
    ∀ (before after : List Nat) (n : Nat), stepReads s = before ++ n :: after →
      (∀ m ∈ before, holdsValue s m = true) → holdsValue s n = false →
      strictStep s = .fault (.unspecifiedRead n)

/-- R243's table, for the stricter step: once a command's input registers hold values, its CMD write does not fault.
The registers are those of the table. -/
def Obligations.CommandsRunOnceTheirInputsAreWritten : Prop :=
  ∀ (s : State) (i : Instr) (rest : List HostStep), s.pending = .write .cmd (.b8 (encode i)) :: rest →
    (match i with
      | .sxChk => 0x10 ∈ s.specified
      | .vl64Enclen => 0x01 ∈ s.specified
      | .vl64Enc => 0x01 ∈ s.specified
      | .vl64Declen => 0x10 ∈ s.specified
      | .vl64Dec => 0x02 ∈ s.specified ∧ (1 ≤ s.len.toNat → 0x10 ∈ s.specified) ∧
          (lengthField (s.bufByte 0) ≤ s.len.toNat →
            ∀ k, 1 ≤ k → k < lengthField (s.bufByte 0) → 0x10 + k ∈ s.specified)
      | .b64Enc => 0x01 ∈ s.specified ∧ 0x02 ∈ s.specified
      | .b64Dec => 0x02 ∈ s.specified ∧
          (s.len.toNat ≤ 10 → ∀ k, k < s.len.toNat → 0x10 + k ∈ s.specified)) →
    ∃ t, strictStep s = .next t ∧ step s = .next t

/-- No value the model chose for an unspecified register (logs 1, 2 and 3) ever shows, as long as the host reads and
uses only what holds a value (R35, R243): two states of the invariant that agree on all that holds a value step to
states that agree in the same way. -/
def Obligations.UnspecifiedRegistersNeverShow : Prop :=
  ∀ s u s' : State, s.Inv → u.Inv → AgreesOnSpecified s u → strictStep s = .next s' →
    ∃ u', strictStep u = .next u' ∧ AgreesOnSpecified s' u'

/-! ### The other units' ports, and the end of the stream loop -/

/-- R120, R162 and R164: the ports of the VL64 encoder, the B64 encoder and the B64 decoder, for the inputs the spec gives
them a meaning for. That a port which is not meaningful shows as `none` is the model's choice (log 12). -/
def Obligations.EncoderAndB64PortsShowTheirTokens : Prop :=
  (∀ v : Word, 2 ^ 32 ≤ v.toInt.natAbs → (encoderPorts v).oor = 1#1) ∧
  (∀ v : Word, v.toInt.natAbs < 2 ^ 32 → (encoderPorts v).oor = 0#1 ∧
    ∃ l h, (encoderPorts v).len = some l ∧ l.toNat = vl64EncodedLength v.toInt.natAbs ∧
      (encoderPorts v).e.length = l.toNat ∧ (encoderPorts v).e[0]? = some h ∧
      h.toNat = 0x40 + 8 * l.toNat + 4 * (if v.toInt < 0 then 1 else 0) + v.toInt.natAbs % 4 ∧
      ∀ k, 1 ≤ k → k < l.toNat → ∃ b, (encoderPorts v).e[k]? = some b ∧
        b.toNat = 0x40 + v.toInt.natAbs / 2 ^ (2 + 6 * (k - 1)) % 64) ∧
  (∀ (v : Word) (n : BitVec 4), n.toNat ≤ 10 → ∃ e, b64EncoderPorts v n = some e ∧ e.length = n.toNat ∧
    ∀ i, i < n.toNat → ∃ b, e[i]? = some b ∧ b.toNat = 0x40 + v.toNat / 2 ^ (6 * (n.toNat - 1 - i)) % 64) ∧
  ∀ (b : Vector Byte 10) (n : BitVec 4), n.toNat ≤ 10 →
    ((∀ i : Fin 10, i.val < n.toNat → IsSextet (b.get i)) →
      ∃ w, b64DecoderPorts b n = some { err := 0#1, errbyte := none, value := some w } ∧
        w.toNat = ∑ i : Fin 10, if i.val < n.toNat then payload (b.get i) * 2 ^ (6 * (n.toNat - 1 - i.val)) else 0) ∧
    ∀ i : Fin 10, i.val < n.toNat → ¬ IsSextet (b.get i) → (∀ j : Fin 10, j < i → IsSextet (b.get j)) →
      b64DecoderPorts b n = some { err := 1#1, errbyte := some (b.get i), value := none }

/-- R246, "An error ends the loop": on the tokens of any in-range values with bytes after them that do not start with a
token that decodes, the loop, given a turn more than there are values, takes every value and then ends, with the command's
error in STATUS. That it keeps the values taken and the bytes not decoded is the model's choice (log 16). BUF is taken in
canonical form, which every step keeps (StepKeepsTheInvariant). -/
def Obligations.StreamLoopEndsAtTheFirstError : Prop :=
  ∀ (s : State) (vs : List Word) (toks : List (List Byte)) (rest : List Byte) (turns : Nat), Memory.wf s.buf →
    List.Forall₂ (fun v tok => ∃ l, vl64Encode v = .ok (l, tok)) vs toks →
    rest ≠ [] → ¬ StartsWithToken rest → vs.length < turns →
    ∃ u, decodeStream turns (toks.flatten ++ rest) s = .next { values := vs, left := rest, block := u } ∧
      statusDone u.status = true ∧ statusCode u.status ≠ 0#4
end

