-- ==== Sys2Proof/Laws/Memory.lean ====
section
/-! SUPPORT. The laws of BUF as a list of cells: read after write, and that every write keeps the canonical form. The
laws of the record of R35. -/

namespace Sys2Proof.Machine

/-! ### Reads -/

@[simp] theorem Memory.read_nil (a : Nat) : Memory.read [] a = Config.unlistedByte := rfl

theorem Memory.read_cons (x : Nat) (c : Byte) (m : Memory) (a : Nat) :
    Memory.read ((x, c) :: m) a = if x = a then c else Memory.read m a := rfl

/-- An index below every listed one reads as an unlisted one. -/
theorem Memory.read_unlisted (m : Memory) (a : Nat) (h : ∀ c ∈ m, c.1 ≠ a) :
    m.read a = Config.unlistedByte := by
  induction m with
  | nil => rfl
  | cons c m ih =>
    obtain ⟨x, b⟩ := c
    have hx : x ≠ a := h (x, b) (by simp)
    rw [Memory.read_cons, if_neg hx]
    exact ih fun c hc => h c (by simp [hc])

/-! ### Read after write -/

theorem Memory.read_consCell_other (m : Memory) (a : Nat) (b : Byte) (x : Nat) (h : x ≠ a) :
    (Memory.consCell a b m).read x = m.read x := by
  unfold Memory.consCell
  split
  · rfl
  · rw [Memory.read_cons, if_neg (Ne.symm h)]

/-- A write leaves every other byte alone. -/
theorem Memory.read_write_other (m : Memory) (a : Nat) (b : Byte) (x : Nat) (h : x ≠ a) :
    (m.write a b).read x = m.read x := by
  induction m with
  | nil => exact Memory.read_consCell_other [] a b x h
  | cons c m ih =>
    obtain ⟨y, d⟩ := c
    rw [Memory.write]
    split
    · exact Memory.read_consCell_other _ a b x h
    · split
      · next hy =>
        rw [Memory.read_consCell_other m a b x h, Memory.read_cons, if_neg (by omega)]
      · rw [Memory.read_cons, Memory.read_cons, ih]

/-- A byte written reads back, whatever the cells, if it is not what an unlisted index reads as. -/
theorem Memory.read_write_same_of_ne (m : Memory) (a : Nat) (b : Byte) (hb : b ≠ Config.unlistedByte) :
    (m.write a b).read a = b := by
  induction m with
  | nil => simp [Memory.write, Memory.consCell, hb, Memory.read_cons]
  | cons c m ih =>
    obtain ⟨y, d⟩ := c
    rw [Memory.write]
    split
    · simp [Memory.consCell, hb, Memory.read_cons]
    · split
      · simp [Memory.consCell, hb, Memory.read_cons]
      · next hy => rw [Memory.read_cons, if_neg hy, ih]

theorem Memory.read_consCell_same (m : Memory) (a : Nat) (b : Byte) (h : ∀ c ∈ m, c.1 ≠ a) :
    (Memory.consCell a b m).read a = b := by
  unfold Memory.consCell
  split
  · next hb => rw [Memory.read_unlisted m a h, hb]
  · simp [Memory.read_cons]

/-- A byte written to cells with rising indexes reads back. -/
theorem Memory.read_write_same (m : Memory) (a : Nat) (b : Byte) (hm : m.Pairwise (fun x y => x.1 < y.1)) :
    (m.write a b).read a = b := by
  induction m with
  | nil => exact Memory.read_consCell_same [] a b (by simp)
  | cons c m ih =>
    obtain ⟨y, d⟩ := c
    have hp := List.pairwise_cons.mp hm
    rw [Memory.write]
    split
    · next hy =>
      refine Memory.read_consCell_same _ a b fun c hc => ?_
      rcases List.mem_cons.mp hc with rfl | hc
      · exact ne_of_gt hy
      · exact ne_of_gt (lt_trans hy (hp.1 c hc))
    · split
      · next hy => exact Memory.read_consCell_same m a b fun c hc => ne_of_gt (hy ▸ hp.1 c hc)
      · next hy => rw [Memory.read_cons, if_neg hy, ih hp.2]

/-! ### The canonical form -/

theorem Memory.mem_consCell (m : Memory) (a : Nat) (b : Byte) (c : Host.Cell) (h : c ∈ Memory.consCell a b m) :
    (c = (a, b) ∧ b ≠ Config.unlistedByte) ∨ c ∈ m := by
  unfold Memory.consCell at h
  split at h
  · exact .inr h
  · next hb => exact (List.mem_cons.mp h).imp (fun h => ⟨h, hb⟩) id

/-- A cell after a write is the written one or an old one. -/
theorem Memory.mem_write (m : Memory) (a : Nat) (b : Byte) (c : Host.Cell) (h : c ∈ m.write a b) :
    (c = (a, b) ∧ b ≠ Config.unlistedByte) ∨ c ∈ m := by
  induction m with
  | nil => exact Memory.mem_consCell [] a b c h
  | cons d m ih =>
    obtain ⟨y, e⟩ := d
    rw [Memory.write] at h
    split at h
    · exact Memory.mem_consCell _ a b c h
    · split at h
      · exact (Memory.mem_consCell m a b c h).imp id fun h => by simp [h]
      · rcases List.mem_cons.mp h with rfl | h
        · exact .inr (by simp)
        · exact (ih h).imp id fun h => by simp [h]

/-- A write keeps the indexes rising. -/
theorem Memory.write_pairwise (m : Memory) (a : Nat) (b : Byte) (hm : m.Pairwise (fun x y => x.1 < y.1)) :
    (m.write a b).Pairwise (fun x y => x.1 < y.1) := by
  induction m with
  | nil => rw [Memory.write, Memory.consCell]; split <;> simp
  | cons d m ih =>
    obtain ⟨y, e⟩ := d
    have hp := List.pairwise_cons.mp hm
    rw [Memory.write]
    split
    · next hy =>
      unfold Memory.consCell
      split
      · exact hm
      · refine List.pairwise_cons.mpr ⟨fun c hc => ?_, hm⟩
        rcases List.mem_cons.mp hc with rfl | hc
        · exact hy
        · exact lt_trans hy (hp.1 c hc)
    · split
      · next hy =>
        unfold Memory.consCell
        split
        · exact hp.2
        · exact List.pairwise_cons.mpr ⟨fun c hc => hy ▸ hp.1 c hc, hp.2⟩
      · next hlt hne =>
        refine List.pairwise_cons.mpr ⟨fun c hc => ?_, ih hp.2⟩
        rcases Memory.mem_write m a b c hc with ⟨rfl, -⟩ | hc
        · show y < a
          omega
        · exact hp.1 c hc

/-- A write inside BUF keeps the canonical form. -/
theorem Memory.write_wf (m : Memory) (a : Nat) (b : Byte) (hm : m.wf) (ha : a < Config.bufBytes) :
    (m.write a b).wf := by
  refine ⟨Memory.write_pairwise m a b hm.1, fun c hc => ?_⟩
  rcases Memory.mem_write m a b c hc with ⟨rfl, hb⟩ | hc
  · exact ⟨ha, hb⟩
  · exact hm.2 c hc

/-- Writing a list of bytes inside BUF keeps the canonical form. -/
theorem Memory.writeList_wf (m : Memory) (a : Nat) (bs : List Byte) (hm : m.wf)
    (ha : a + bs.length ≤ Config.bufBytes) : (m.writeList a bs).wf := by
  induction bs generalizing m a with
  | nil => exact hm
  | cons b bs ih =>
    simp only [List.length_cons] at ha
    exact ih _ _ (Memory.write_wf m a b hm (by omega)) (by omega)

/-- Writing a list of bytes leaves every byte outside them alone. -/
theorem Memory.read_writeList_other (m : Memory) (a : Nat) (bs : List Byte) (x : Nat)
    (hx : x < a ∨ a + bs.length ≤ x) : (m.writeList a bs).read x = m.read x := by
  induction bs generalizing m a with
  | nil => rfl
  | cons b bs ih =>
    simp only [List.length_cons] at hx
    rw [Memory.writeList, ih _ _ (by omega), Memory.read_write_other m a b x (by omega)]

/-- A list of bytes that are never what an unlisted index reads as reads back where it was written. -/
theorem Memory.read_writeList_same_of_ne (m : Memory) (a : Nat) (bs : List Byte)
    (hb : ∀ b ∈ bs, b ≠ Config.unlistedByte) (j : Nat) (hj : j < bs.length) :
    (m.writeList a bs).read (a + j) = bs[j] := by
  induction bs generalizing m a j with
  | nil => simp at hj
  | cons b bs ih =>
    cases j with
    | zero =>
      rw [Memory.writeList, Memory.read_writeList_other _ _ _ _ (by omega)]
      exact Memory.read_write_same_of_ne m a b (hb b (by simp))
    | succ j =>
      have := ih (m.write a b) (a + 1) (fun c hc => hb c (by simp [hc])) j (by simpa using hj)
      simpa [Memory.writeList, Nat.add_assoc, Nat.add_comm 1 j] using this

/-- A list of bytes written to cells with rising indexes reads back where it was written. -/
theorem Memory.read_writeList_same (m : Memory) (a : Nat) (bs : List Byte)
    (hm : m.Pairwise (fun x y => x.1 < y.1)) (j : Nat) (hj : j < bs.length) :
    (m.writeList a bs).read (a + j) = bs[j] := by
  induction bs generalizing m a j with
  | nil => simp at hj
  | cons b bs ih =>
    cases j with
    | zero =>
      rw [Memory.writeList, Memory.read_writeList_other _ _ _ _ (by omega)]
      exact Memory.read_write_same m a b hm
    | succ j =>
      have := ih (m.write a b) (a + 1) (Memory.write_pairwise m a b hm) j (by simpa using hj)
      simpa [Memory.writeList, Nat.add_assoc, Nat.add_comm 1 j] using this

/-- Two lists of cells in canonical form that read alike everywhere are equal. -/
theorem Memory.ext_of_read (m n : Memory) (hm : m.wf) (hn : n.wf) (h : ∀ a, m.read a = n.read a) : m = n := by
  induction m generalizing n with
  | nil =>
    cases n with
    | nil => rfl
    | cons d n =>
      obtain ⟨y, e⟩ := d
      have h0 := h y
      rw [Memory.read_nil, Memory.read_cons, if_pos rfl] at h0
      exact absurd h0.symm (hn.2 (y, e) (by simp)).2
  | cons c m ih =>
    obtain ⟨x, b⟩ := c
    have hpm := List.pairwise_cons.mp hm.1
    cases n with
    | nil =>
      have h0 := h x
      rw [Memory.read_nil, Memory.read_cons, if_pos rfl] at h0
      exact absurd h0 (hm.2 (x, b) (by simp)).2
    | cons d n =>
      obtain ⟨y, e⟩ := d
      have hpn := List.pairwise_cons.mp hn.1
      have hxy : x = y := by
        rcases Nat.lt_trichotomy x y with hlt | heq | hlt
        · have h0 := h x
          rw [Memory.read_cons, if_pos rfl, Memory.read_unlisted ((y, e) :: n) x] at h0
          · exact absurd h0 (hm.2 (x, b) (by simp)).2
          · intro c hc
            rcases List.mem_cons.mp hc with rfl | hc
            · exact ne_of_gt hlt
            · exact ne_of_gt (lt_trans hlt (hpn.1 c hc))
        · exact heq
        · have h0 := h y
          rw [Memory.read_cons y e n y, if_pos rfl, Memory.read_unlisted ((x, b) :: m) y] at h0
          · exact absurd h0.symm (hn.2 (y, e) (by simp)).2
          · intro c hc
            rcases List.mem_cons.mp hc with rfl | hc
            · exact ne_of_gt hlt
            · exact ne_of_gt (lt_trans hlt (hpm.1 c hc))
      subst hxy
      have hbe : b = e := by simpa [Memory.read_cons] using h x
      subst hbe
      have hmn : m = n := by
        refine ih n ⟨hpm.2, fun c hc => hm.2 c (by simp [hc])⟩ ⟨hpn.2, fun c hc => hn.2 c (by simp [hc])⟩ fun a => ?_
        by_cases ha : x = a
        · subst ha
          rw [Memory.read_unlisted m x fun c hc => ne_of_gt (hpm.1 c hc),
            Memory.read_unlisted n x fun c hc => ne_of_gt (hpn.1 c hc)]
        · simpa [Memory.read_cons, ha] using h a
      rw [hmn]

/-! ### The record of R35 -/

@[simp] theorem mem_insertNum (n x : Nat) (l : List Nat) : x ∈ insertNum n l ↔ x = n ∨ x ∈ l := by
  induction l with
  | nil => simp [insertNum]
  | cons y l ih =>
    rw [insertNum]
    split
    · simp
    · split
      · next hy => subst hy; simp
      · simp only [List.mem_cons, ih]; tauto

theorem insertNum_pairwise (n : Nat) (l : List Nat) (hl : l.Pairwise (· < ·)) :
    (insertNum n l).Pairwise (· < ·) := by
  induction l with
  | nil => simp [insertNum]
  | cons y l ih =>
    have hp := List.pairwise_cons.mp hl
    rw [insertNum]
    split
    · next hn =>
      refine List.pairwise_cons.mpr ⟨fun z hz => ?_, hl⟩
      rcases List.mem_cons.mp hz with rfl | hz
      · exact hn
      · exact lt_trans hn (hp.1 z hz)
    · split
      · exact hl
      · refine List.pairwise_cons.mpr ⟨fun z hz => ?_, ih hp.2⟩
        rcases (mem_insertNum n z l).mp hz with rfl | hz
        · omega
        · exact hp.1 z hz

theorem State.mem_markFrom_specified (a n x : Nat) (s : State) :
    x ∈ (s.markFrom a n).specified ↔ (a ≤ x ∧ x < a + n) ∨ x ∈ s.specified := by
  induction n generalizing a s with
  | zero => simp only [State.markFrom]; constructor
            · exact .inr
            · rintro (h | h)
              · omega
              · exact h
  | succ k ih =>
    rw [State.markFrom, ih]
    simp only [State.markNum, mem_insertNum]
    constructor
    · rintro (h | h | h)
      · exact .inl (by omega)
      · exact .inl (by omega)
      · exact .inr h
    · rintro (h | h)
      · by_cases hx : x = a
        · exact .inr (.inl hx)
        · exact .inl (by omega)
      · exact .inr (.inr h)

theorem State.markFrom_specified_pairwise (a n : Nat) (s : State) (hs : s.specified.Pairwise (· < ·)) :
    (s.markFrom a n).specified.Pairwise (· < ·) := by
  induction n generalizing a s with
  | zero => exact hs
  | succ k ih => exact ih (a + 1) (s.markNum a) (insertNum_pairwise a s.specified hs)

end Sys2Proof.Machine
end

