-- ==== Sys2Proof/Laws/State.lean ====
section
/-! SUPPORT. One lemma for each field of State under each update, so that no later proof unfolds a record update. -/

namespace Sys2Proof.Machine

/-! ### markNum -/

@[simp] theorem State.markNum_cmd (n : Nat) (s : State) : (s.markNum n).cmd = s.cmd := rfl
@[simp] theorem State.markNum_value (n : Nat) (s : State) : (s.markNum n).value = s.value := rfl
@[simp] theorem State.markNum_len (n : Nat) (s : State) : (s.markNum n).len = s.len := rfl
@[simp] theorem State.markNum_status (n : Nat) (s : State) : (s.markNum n).status = s.status := rfl
@[simp] theorem State.markNum_result (n : Nat) (s : State) : (s.markNum n).result = s.result := rfl
@[simp] theorem State.markNum_count (n : Nat) (s : State) : (s.markNum n).count = s.count := rfl
@[simp] theorem State.markNum_errByte (n : Nat) (s : State) : (s.markNum n).errByte = s.errByte := rfl
@[simp] theorem State.markNum_buf (n : Nat) (s : State) : (s.markNum n).buf = s.buf := rfl
@[simp] theorem State.markNum_specified (n : Nat) (s : State) : (s.markNum n).specified = insertNum n s.specified := rfl
@[simp] theorem State.markNum_readPort (n : Nat) (s : State) : (s.markNum n).readPort = s.readPort := rfl
@[simp] theorem State.markNum_pending (n : Nat) (s : State) : (s.markNum n).pending = s.pending := rfl

/-! ### putCmd -/

@[simp] theorem State.putCmd_cmd (v : Byte) (s : State) : (s.putCmd v).cmd = v := rfl
@[simp] theorem State.putCmd_value (v : Byte) (s : State) : (s.putCmd v).value = s.value := rfl
@[simp] theorem State.putCmd_len (v : Byte) (s : State) : (s.putCmd v).len = s.len := rfl
@[simp] theorem State.putCmd_status (v : Byte) (s : State) : (s.putCmd v).status = s.status := rfl
@[simp] theorem State.putCmd_result (v : Byte) (s : State) : (s.putCmd v).result = s.result := rfl
@[simp] theorem State.putCmd_count (v : Byte) (s : State) : (s.putCmd v).count = s.count := rfl
@[simp] theorem State.putCmd_errByte (v : Byte) (s : State) : (s.putCmd v).errByte = s.errByte := rfl
@[simp] theorem State.putCmd_buf (v : Byte) (s : State) : (s.putCmd v).buf = s.buf := rfl
@[simp] theorem State.putCmd_specified (v : Byte) (s : State) : (s.putCmd v).specified = insertNum 0 s.specified := rfl
@[simp] theorem State.putCmd_readPort (v : Byte) (s : State) : (s.putCmd v).readPort = s.readPort := rfl
@[simp] theorem State.putCmd_pending (v : Byte) (s : State) : (s.putCmd v).pending = s.pending := rfl

/-! ### putValue -/

@[simp] theorem State.putValue_cmd (v : Word) (s : State) : (s.putValue v).cmd = s.cmd := rfl
@[simp] theorem State.putValue_value (v : Word) (s : State) : (s.putValue v).value = v := rfl
@[simp] theorem State.putValue_len (v : Word) (s : State) : (s.putValue v).len = s.len := rfl
@[simp] theorem State.putValue_status (v : Word) (s : State) : (s.putValue v).status = s.status := rfl
@[simp] theorem State.putValue_result (v : Word) (s : State) : (s.putValue v).result = s.result := rfl
@[simp] theorem State.putValue_count (v : Word) (s : State) : (s.putValue v).count = s.count := rfl
@[simp] theorem State.putValue_errByte (v : Word) (s : State) : (s.putValue v).errByte = s.errByte := rfl
@[simp] theorem State.putValue_buf (v : Word) (s : State) : (s.putValue v).buf = s.buf := rfl
@[simp] theorem State.putValue_specified (v : Word) (s : State) : (s.putValue v).specified = insertNum 1 s.specified := rfl
@[simp] theorem State.putValue_readPort (v : Word) (s : State) : (s.putValue v).readPort = s.readPort := rfl
@[simp] theorem State.putValue_pending (v : Word) (s : State) : (s.putValue v).pending = s.pending := rfl

/-! ### putLen -/

@[simp] theorem State.putLen_cmd (v : BitVec 5) (s : State) : (s.putLen v).cmd = s.cmd := rfl
@[simp] theorem State.putLen_value (v : BitVec 5) (s : State) : (s.putLen v).value = s.value := rfl
@[simp] theorem State.putLen_len (v : BitVec 5) (s : State) : (s.putLen v).len = v := rfl
@[simp] theorem State.putLen_status (v : BitVec 5) (s : State) : (s.putLen v).status = s.status := rfl
@[simp] theorem State.putLen_result (v : BitVec 5) (s : State) : (s.putLen v).result = s.result := rfl
@[simp] theorem State.putLen_count (v : BitVec 5) (s : State) : (s.putLen v).count = s.count := rfl
@[simp] theorem State.putLen_errByte (v : BitVec 5) (s : State) : (s.putLen v).errByte = s.errByte := rfl
@[simp] theorem State.putLen_buf (v : BitVec 5) (s : State) : (s.putLen v).buf = s.buf := rfl
@[simp] theorem State.putLen_specified (v : BitVec 5) (s : State) : (s.putLen v).specified = insertNum 2 s.specified := rfl
@[simp] theorem State.putLen_readPort (v : BitVec 5) (s : State) : (s.putLen v).readPort = s.readPort := rfl
@[simp] theorem State.putLen_pending (v : BitVec 5) (s : State) : (s.putLen v).pending = s.pending := rfl

/-! ### putStatus -/

@[simp] theorem State.putStatus_cmd (v : Byte) (s : State) : (s.putStatus v).cmd = s.cmd := rfl
@[simp] theorem State.putStatus_value (v : Byte) (s : State) : (s.putStatus v).value = s.value := rfl
@[simp] theorem State.putStatus_len (v : Byte) (s : State) : (s.putStatus v).len = s.len := rfl
@[simp] theorem State.putStatus_status (v : Byte) (s : State) : (s.putStatus v).status = v := rfl
@[simp] theorem State.putStatus_result (v : Byte) (s : State) : (s.putStatus v).result = s.result := rfl
@[simp] theorem State.putStatus_count (v : Byte) (s : State) : (s.putStatus v).count = s.count := rfl
@[simp] theorem State.putStatus_errByte (v : Byte) (s : State) : (s.putStatus v).errByte = s.errByte := rfl
@[simp] theorem State.putStatus_buf (v : Byte) (s : State) : (s.putStatus v).buf = s.buf := rfl
@[simp] theorem State.putStatus_specified (v : Byte) (s : State) : (s.putStatus v).specified = insertNum 3 s.specified := rfl
@[simp] theorem State.putStatus_readPort (v : Byte) (s : State) : (s.putStatus v).readPort = s.readPort := rfl
@[simp] theorem State.putStatus_pending (v : Byte) (s : State) : (s.putStatus v).pending = s.pending := rfl

/-! ### putResult -/

@[simp] theorem State.putResult_cmd (v : Word) (s : State) : (s.putResult v).cmd = s.cmd := rfl
@[simp] theorem State.putResult_value (v : Word) (s : State) : (s.putResult v).value = s.value := rfl
@[simp] theorem State.putResult_len (v : Word) (s : State) : (s.putResult v).len = s.len := rfl
@[simp] theorem State.putResult_status (v : Word) (s : State) : (s.putResult v).status = s.status := rfl
@[simp] theorem State.putResult_result (v : Word) (s : State) : (s.putResult v).result = v := rfl
@[simp] theorem State.putResult_count (v : Word) (s : State) : (s.putResult v).count = s.count := rfl
@[simp] theorem State.putResult_errByte (v : Word) (s : State) : (s.putResult v).errByte = s.errByte := rfl
@[simp] theorem State.putResult_buf (v : Word) (s : State) : (s.putResult v).buf = s.buf := rfl
@[simp] theorem State.putResult_specified (v : Word) (s : State) : (s.putResult v).specified = insertNum 4 s.specified := rfl
@[simp] theorem State.putResult_readPort (v : Word) (s : State) : (s.putResult v).readPort = s.readPort := rfl
@[simp] theorem State.putResult_pending (v : Word) (s : State) : (s.putResult v).pending = s.pending := rfl

/-! ### putCount -/

@[simp] theorem State.putCount_cmd (v : BitVec 4) (s : State) : (s.putCount v).cmd = s.cmd := rfl
@[simp] theorem State.putCount_value (v : BitVec 4) (s : State) : (s.putCount v).value = s.value := rfl
@[simp] theorem State.putCount_len (v : BitVec 4) (s : State) : (s.putCount v).len = s.len := rfl
@[simp] theorem State.putCount_status (v : BitVec 4) (s : State) : (s.putCount v).status = s.status := rfl
@[simp] theorem State.putCount_result (v : BitVec 4) (s : State) : (s.putCount v).result = s.result := rfl
@[simp] theorem State.putCount_count (v : BitVec 4) (s : State) : (s.putCount v).count = v := rfl
@[simp] theorem State.putCount_errByte (v : BitVec 4) (s : State) : (s.putCount v).errByte = s.errByte := rfl
@[simp] theorem State.putCount_buf (v : BitVec 4) (s : State) : (s.putCount v).buf = s.buf := rfl
@[simp] theorem State.putCount_specified (v : BitVec 4) (s : State) : (s.putCount v).specified = insertNum 5 s.specified := rfl
@[simp] theorem State.putCount_readPort (v : BitVec 4) (s : State) : (s.putCount v).readPort = s.readPort := rfl
@[simp] theorem State.putCount_pending (v : BitVec 4) (s : State) : (s.putCount v).pending = s.pending := rfl

/-! ### putErrByte -/

@[simp] theorem State.putErrByte_cmd (v : Byte) (s : State) : (s.putErrByte v).cmd = s.cmd := rfl
@[simp] theorem State.putErrByte_value (v : Byte) (s : State) : (s.putErrByte v).value = s.value := rfl
@[simp] theorem State.putErrByte_len (v : Byte) (s : State) : (s.putErrByte v).len = s.len := rfl
@[simp] theorem State.putErrByte_status (v : Byte) (s : State) : (s.putErrByte v).status = s.status := rfl
@[simp] theorem State.putErrByte_result (v : Byte) (s : State) : (s.putErrByte v).result = s.result := rfl
@[simp] theorem State.putErrByte_count (v : Byte) (s : State) : (s.putErrByte v).count = s.count := rfl
@[simp] theorem State.putErrByte_errByte (v : Byte) (s : State) : (s.putErrByte v).errByte = v := rfl
@[simp] theorem State.putErrByte_buf (v : Byte) (s : State) : (s.putErrByte v).buf = s.buf := rfl
@[simp] theorem State.putErrByte_specified (v : Byte) (s : State) : (s.putErrByte v).specified = insertNum 6 s.specified := rfl
@[simp] theorem State.putErrByte_readPort (v : Byte) (s : State) : (s.putErrByte v).readPort = s.readPort := rfl
@[simp] theorem State.putErrByte_pending (v : Byte) (s : State) : (s.putErrByte v).pending = s.pending := rfl

/-! ### markFrom, by induction on the count -/

@[simp] theorem State.markFrom_cmd (a n : Nat) (s : State) : (s.markFrom a n).cmd = s.cmd := by
  induction n generalizing a s with
  | zero => rfl
  | succ k ih => simp [State.markFrom, ih]
@[simp] theorem State.markFrom_value (a n : Nat) (s : State) : (s.markFrom a n).value = s.value := by
  induction n generalizing a s with
  | zero => rfl
  | succ k ih => simp [State.markFrom, ih]
@[simp] theorem State.markFrom_len (a n : Nat) (s : State) : (s.markFrom a n).len = s.len := by
  induction n generalizing a s with
  | zero => rfl
  | succ k ih => simp [State.markFrom, ih]
@[simp] theorem State.markFrom_status (a n : Nat) (s : State) : (s.markFrom a n).status = s.status := by
  induction n generalizing a s with
  | zero => rfl
  | succ k ih => simp [State.markFrom, ih]
@[simp] theorem State.markFrom_result (a n : Nat) (s : State) : (s.markFrom a n).result = s.result := by
  induction n generalizing a s with
  | zero => rfl
  | succ k ih => simp [State.markFrom, ih]
@[simp] theorem State.markFrom_count (a n : Nat) (s : State) : (s.markFrom a n).count = s.count := by
  induction n generalizing a s with
  | zero => rfl
  | succ k ih => simp [State.markFrom, ih]
@[simp] theorem State.markFrom_errByte (a n : Nat) (s : State) : (s.markFrom a n).errByte = s.errByte := by
  induction n generalizing a s with
  | zero => rfl
  | succ k ih => simp [State.markFrom, ih]
@[simp] theorem State.markFrom_buf (a n : Nat) (s : State) : (s.markFrom a n).buf = s.buf := by
  induction n generalizing a s with
  | zero => rfl
  | succ k ih => simp [State.markFrom, ih]
@[simp] theorem State.markFrom_readPort (a n : Nat) (s : State) : (s.markFrom a n).readPort = s.readPort := by
  induction n generalizing a s with
  | zero => rfl
  | succ k ih => simp [State.markFrom, ih]
@[simp] theorem State.markFrom_pending (a n : Nat) (s : State) : (s.markFrom a n).pending = s.pending := by
  induction n generalizing a s with
  | zero => rfl
  | succ k ih => simp [State.markFrom, ih]

/-! ### putBytes -/

@[simp] theorem State.putBytes_cmd (a : Nat) (bs : List Byte) (s : State) : (s.putBytes a bs).cmd = s.cmd := by
  simp [State.putBytes]
@[simp] theorem State.putBytes_value (a : Nat) (bs : List Byte) (s : State) : (s.putBytes a bs).value = s.value := by
  simp [State.putBytes]
@[simp] theorem State.putBytes_len (a : Nat) (bs : List Byte) (s : State) : (s.putBytes a bs).len = s.len := by
  simp [State.putBytes]
@[simp] theorem State.putBytes_status (a : Nat) (bs : List Byte) (s : State) : (s.putBytes a bs).status = s.status := by
  simp [State.putBytes]
@[simp] theorem State.putBytes_result (a : Nat) (bs : List Byte) (s : State) : (s.putBytes a bs).result = s.result := by
  simp [State.putBytes]
@[simp] theorem State.putBytes_count (a : Nat) (bs : List Byte) (s : State) : (s.putBytes a bs).count = s.count := by
  simp [State.putBytes]
@[simp] theorem State.putBytes_errByte (a : Nat) (bs : List Byte) (s : State) : (s.putBytes a bs).errByte = s.errByte := by
  simp [State.putBytes]
@[simp] theorem State.putBytes_buf (a : Nat) (bs : List Byte) (s : State) : (s.putBytes a bs).buf = s.buf.writeList a bs := by
  simp [State.putBytes]
@[simp] theorem State.putBytes_readPort (a : Nat) (bs : List Byte) (s : State) : (s.putBytes a bs).readPort = s.readPort := by
  simp [State.putBytes]
@[simp] theorem State.putBytes_pending (a : Nat) (bs : List Byte) (s : State) : (s.putBytes a bs).pending = s.pending := by
  simp [State.putBytes]

/-! ### raise -/

@[simp] theorem State.raise_cmd (r : Raise) (s : State) : (s.raise r).cmd = s.cmd := by
  cases r <;> rfl
@[simp] theorem State.raise_value (r : Raise) (s : State) : (s.raise r).value = s.value := by
  cases r <;> rfl
@[simp] theorem State.raise_len (r : Raise) (s : State) : (s.raise r).len = s.len := by
  cases r <;> rfl
@[simp] theorem State.raise_status (r : Raise) (s : State) : (s.raise r).status = statusWord r := by
  cases r <;> rfl
@[simp] theorem State.raise_result (r : Raise) (s : State) : (s.raise r).result = s.result := by
  cases r <;> rfl
@[simp] theorem State.raise_count (r : Raise) (s : State) : (s.raise r).count = s.count := by
  cases r <;> rfl
theorem State.raise_errByte (r : Raise) (s : State) :
    (s.raise r).errByte = r.info.getD s.errByte := by
  cases r <;> rfl
@[simp] theorem State.raise_ok_errByte (s : State) : (s.raise .ok).errByte = s.errByte := rfl
@[simp] theorem State.raise_buf (r : Raise) (s : State) : (s.raise r).buf = s.buf := by
  cases r <;> rfl
@[simp] theorem State.raise_readPort (r : Raise) (s : State) : (s.raise r).readPort = s.readPort := by
  cases r <;> rfl
@[simp] theorem State.raise_pending (r : Raise) (s : State) : (s.raise r).pending = s.pending := by
  cases r <;> rfl
@[simp] theorem State.raise_ok_specified (s : State) : (s.raise .ok).specified = insertNum 3 s.specified := rfl

/-! ### The host's updates -/

@[simp] theorem hostRead_cmd (r : Reg) (s : State) : (hostRead r s).cmd = s.cmd := rfl
@[simp] theorem hostRead_value (r : Reg) (s : State) : (hostRead r s).value = s.value := rfl
@[simp] theorem hostRead_len (r : Reg) (s : State) : (hostRead r s).len = s.len := rfl
@[simp] theorem hostRead_status (r : Reg) (s : State) : (hostRead r s).status = s.status := rfl
@[simp] theorem hostRead_result (r : Reg) (s : State) : (hostRead r s).result = s.result := rfl
@[simp] theorem hostRead_count (r : Reg) (s : State) : (hostRead r s).count = s.count := rfl
@[simp] theorem hostRead_errByte (r : Reg) (s : State) : (hostRead r s).errByte = s.errByte := rfl
@[simp] theorem hostRead_buf (r : Reg) (s : State) : (hostRead r s).buf = s.buf := rfl
@[simp] theorem hostRead_specified (r : Reg) (s : State) : (hostRead r s).specified = s.specified := rfl
@[simp] theorem hostRead_readPort (r : Reg) (s : State) : (hostRead r s).readPort = some (regRead r s) := rfl
@[simp] theorem hostRead_pending (r : Reg) (s : State) : (hostRead r s).pending = s.pending := rfl
@[simp] theorem hostReset_cmd (s : State) : (hostReset s).cmd = State.reset.cmd := rfl
@[simp] theorem hostReset_value (s : State) : (hostReset s).value = State.reset.value := rfl
@[simp] theorem hostReset_len (s : State) : (hostReset s).len = State.reset.len := rfl
@[simp] theorem hostReset_status (s : State) : (hostReset s).status = State.reset.status := rfl
@[simp] theorem hostReset_result (s : State) : (hostReset s).result = State.reset.result := rfl
@[simp] theorem hostReset_count (s : State) : (hostReset s).count = State.reset.count := rfl
@[simp] theorem hostReset_errByte (s : State) : (hostReset s).errByte = State.reset.errByte := rfl
@[simp] theorem hostReset_buf (s : State) : (hostReset s).buf = State.reset.buf := rfl
@[simp] theorem hostReset_specified (s : State) : (hostReset s).specified = State.reset.specified := rfl
@[simp] theorem hostReset_readPort (s : State) : (hostReset s).readPort = s.readPort := rfl
@[simp] theorem hostReset_pending (s : State) : (hostReset s).pending = s.pending := rfl
@[simp] theorem State.withCommand_cmd (c : Byte) (s : State) : (s.withCommand c).cmd = s.cmd := rfl
@[simp] theorem State.withCommand_value (c : Byte) (s : State) : (s.withCommand c).value = s.value := rfl
@[simp] theorem State.withCommand_len (c : Byte) (s : State) : (s.withCommand c).len = s.len := rfl
@[simp] theorem State.withCommand_status (c : Byte) (s : State) : (s.withCommand c).status = s.status := rfl
@[simp] theorem State.withCommand_result (c : Byte) (s : State) : (s.withCommand c).result = s.result := rfl
@[simp] theorem State.withCommand_count (c : Byte) (s : State) : (s.withCommand c).count = s.count := rfl
@[simp] theorem State.withCommand_errByte (c : Byte) (s : State) : (s.withCommand c).errByte = s.errByte := rfl
@[simp] theorem State.withCommand_buf (c : Byte) (s : State) : (s.withCommand c).buf = s.buf := rfl
@[simp] theorem State.withCommand_specified (c : Byte) (s : State) : (s.withCommand c).specified = s.specified := rfl
@[simp] theorem State.withCommand_readPort (c : Byte) (s : State) : (s.withCommand c).readPort = s.readPort := rfl
@[simp] theorem State.withCommand_pending (c : Byte) (s : State) : (s.withCommand c).pending = .write .cmd (.b8 c) :: s.pending := rfl

end Sys2Proof.Machine
end

