-- ==== Sys2Proof/Laws/Ops.lean ====
section
/-! SUPPORT. What each shared operation can do, said once: BUF accesses, the unit-to-command lift, and the end of a
command. -/

namespace Sys2Proof.Machine

/-! ### BUF accesses -/

theorem readBuf_eq (i : Nat) (s : State) (h : i < 16) : readBuf i s = .ok (s.bufByte i) := by
  simp [readBuf, Config.bufBytes, h]

@[simp] theorem readBuf_zero (s : State) : readBuf 0 s = .ok (s.bufByte 0) := readBuf_eq 0 s (by omega)

/-- `MemRead` inside BUF answers its bytes in order. -/
theorem memRead_eq (i n : Nat) (s : State) (h : i + n ≤ 16) :
    memRead i n s = .ok ((List.range n).map fun j => s.bufByte (i + j)) := by
  induction n generalizing i with
  | zero => rfl
  | succ k ih =>
    have hk := ih (i + 1) (by omega)
    simp only [memRead, readBuf_eq i s (by omega), hk, bind, Except.bind, pure, Except.pure]
    rw [List.range_succ_eq_map, List.map_cons, List.map_map]
    congr 3
    funext j
    show s.bufByte (i + 1 + j) = s.bufByte (i + (j + 1))
    congr 1
    omega

/-- `MemWrite` inside BUF writes. -/
theorem memWrite_eq (i : Nat) (bs : List Byte) (s : State) (h : i + bs.length ≤ 16) :
    memWrite i bs s = .ok (s.putBytes i bs) := by
  simp [memWrite, Config.bufBytes, h]

theorem State.putBytes_bufByte_other (s : State) (a : Nat) (bs : List Byte) (x : Nat)
    (h : x < a ∨ a + bs.length ≤ x) : (s.putBytes a bs).bufByte x = s.bufByte x := by
  simpa [State.bufByte] using Memory.read_writeList_other s.buf a bs x h

theorem State.putBytes_bufByte_same_of_ne (s : State) (a : Nat) (bs : List Byte)
    (hb : ∀ b ∈ bs, b ≠ Config.unlistedByte) (j : Nat) (hj : j < bs.length) :
    (s.putBytes a bs).bufByte (a + j) = bs[j] := by
  simpa [State.bufByte] using Memory.read_writeList_same_of_ne s.buf a bs hb j hj

theorem State.mem_putBytes_specified (a x : Nat) (bs : List Byte) (s : State) :
    x ∈ (s.putBytes a bs).specified ↔ (0x10 + a ≤ x ∧ x < 0x10 + a + bs.length) ∨ x ∈ s.specified := by
  simp [State.putBytes, State.mem_markFrom_specified]

/-! ### BUF as the register updates leave it -/

@[simp] theorem State.putCmd_bufByte (v : Byte) (s : State) (a : Nat) : (s.putCmd v).bufByte a = s.bufByte a := rfl
@[simp] theorem State.putValue_bufByte (v : Word) (s : State) (a : Nat) : (s.putValue v).bufByte a = s.bufByte a := rfl
@[simp] theorem State.putLen_bufByte (v : BitVec 5) (s : State) (a : Nat) : (s.putLen v).bufByte a = s.bufByte a := rfl
@[simp] theorem State.putStatus_bufByte (v : Byte) (s : State) (a : Nat) : (s.putStatus v).bufByte a = s.bufByte a := rfl
@[simp] theorem State.putResult_bufByte (v : Word) (s : State) (a : Nat) : (s.putResult v).bufByte a = s.bufByte a := rfl
@[simp] theorem State.putCount_bufByte (v : BitVec 4) (s : State) (a : Nat) : (s.putCount v).bufByte a = s.bufByte a := rfl
@[simp] theorem State.putErrByte_bufByte (v : Byte) (s : State) (a : Nat) : (s.putErrByte v).bufByte a = s.bufByte a := rfl
@[simp] theorem State.raise_bufByte (r : Raise) (s : State) (a : Nat) : (s.raise r).bufByte a = s.bufByte a := by
  cases r <;> rfl

/-! ### Unit functions inside a command -/

@[simp] theorem unit_ok {α : Type} (a : α) : unit (.ok a : Except Raise α) = .ok a := rfl
@[simp] theorem unit_error {α : Type} (r : Raise) : unit (.error r : Except Raise α) = .error (.raised r) := rfl

theorem checkedLen_bad (max : Nat) (s : State) (h : max < s.len.toNat) :
    checkedLen max s = .error (.raised .badWidth) := by
  simp [checkedLen, State.lenCount, h]

theorem checkedLen_ok (max : Nat) (s : State) (h : s.len.toNat ≤ max) : checkedLen max s = .ok s.len.toNat := by
  simp [checkedLen, State.lenCount, Nat.not_lt.mpr h]

/-! ### The end of a command -/

@[simp] theorem endCommand_ok (s t : State) : endCommand s (.ok t) = .next (t.raise .ok) := rfl
@[simp] theorem endCommand_raised (s : State) (r : Raise) : endCommand s (.error (.raised r)) = .next (s.raise r) := rfl
@[simp] theorem endCommand_faulted (s : State) (f : Fault) : endCommand s (.error (.faulted f)) = .fault f := rfl

/-- A command that answers a next state either kept its work and raised OK, or kept nothing and raised a status. -/
theorem endCommand_next {s t : State} {w : Except Ending State} (h : endCommand s w = .next t) :
    (∃ u, w = .ok u ∧ t = u.raise .ok) ∨ (∃ r, w = .error (.raised r) ∧ t = s.raise r) := by
  match w, h with
  | .ok u, h => exact .inl ⟨u, rfl, by simpa using h.symm⟩
  | .error (.raised r), h => exact .inr ⟨r, rfl, by simpa using h.symm⟩

/-- Which registers hold a value after a status is raised: STATUS, ERRBYTE on INVALID_HIGH_BITS, and those that did. -/
theorem State.mem_raise_specified (r : Raise) (s : State) (x : Nat) :
    x ∈ (s.raise r).specified ↔ x = 3 ∨ (x = 6 ∧ ∃ b, r = .invalidHighBits b) ∨ x ∈ s.specified := by
  cases r <;> simp [State.raise]

/-! ### The STATUS word -/

theorem statusDone_statusWord (r : Raise) : statusDone (statusWord r) = true := by cases r <;> decide +revert

theorem statusReserved_statusWord (r : Raise) : statusReserved (statusWord r) = 0#3 := by
  cases r <;> simp [statusWord, Raise.code, statusReserved]

theorem statusCode_statusWord (r : Raise) : statusCode (statusWord r) = r.code := by
  cases r <;> simp [statusWord, Raise.code, statusCode]

end Sys2Proof.Machine
end

