-- ==== Sys2Proof/Laws/Units.lean ====
section
/-! SUPPORT. What each unit function can do, said once, and each command's meaning as an equation over the units with
no BUF access left to fault. -/

namespace Sys2Proof.Machine

/-! ### The sextet byte (R70, R101) -/

theorem sextetByte_marker (p : Chunk) : (sextetByte p).extractLsb' 6 2 = 0b01#2 := by
  unfold sextetByte Config.sextetMarker; decide +revert

theorem sextetByte_payload (p : Chunk) : (sextetByte p).extractLsb' 0 6 = p := by
  unfold sextetByte Config.sextetMarker; decide +revert

/-- A sextet byte is never what an unlisted BUF byte reads as. -/
theorem sextetByte_ne_unlisted (p : Chunk) : sextetByte p ≠ Config.unlistedByte := by
  unfold sextetByte Config.sextetMarker Config.unlistedByte; decide +revert

@[simp] theorem sextetCheck_sextetByte (p : Chunk) : sextetCheck (sextetByte p) = .ok p := by
  simp only [sextetCheck, sextetByte_marker, sextetByte_payload, Config.sextetMarker, if_true]

theorem sextetCheck_ok {b : Byte} {p : Chunk} (h : sextetCheck b = .ok p) :
    b.extractLsb' 6 2 = 0b01#2 ∧ p = b.extractLsb' 0 6 := by
  unfold sextetCheck at h
  split at h
  · next hb => exact ⟨hb, (Except.ok.inj h).symm⟩
  · cases h

theorem sextetCheck_error {b : Byte} {r : Raise} (h : sextetCheck b = .error r) :
    b.extractLsb' 6 2 ≠ 0b01#2 ∧ r = .invalidHighBits b := by
  unfold sextetCheck at h
  split at h
  · cases h
  · next hb => exact ⟨hb, (Except.error.inj h).symm⟩

theorem sextetCheck_eq_ok {b : Byte} (h : b.extractLsb' 6 2 = 0b01#2) : sextetCheck b = .ok (b.extractLsb' 0 6) :=
  if_pos h

theorem sextetCheck_eq_error {b : Byte} (h : b.extractLsb' 6 2 ≠ 0b01#2) :
    sextetCheck b = .error (.invalidHighBits b) :=
  if_neg h

/-! ### The header decoder (R111) -/

theorem vl64Header_eq_ok {h : Byte} (hm : h.extractLsb' 6 2 = 0b01#2) (h1 : 1 ≤ (h.extractLsb' 3 3).toNat)
    (h6 : (h.extractLsb' 3 3).toNat ≤ 6) :
    vl64Header h = .ok { len := h.extractLsb' 3 3, sign := h.extractLsb' 2 1, low := h.extractLsb' 0 2 } := by
  simp only [vl64Header, sextetCheck_eq_ok hm, bind, Except.bind]
  exact if_neg (by show ¬((h.extractLsb' 3 3).toNat < 1 ∨ 6 < (h.extractLsb' 3 3).toNat); omega)

theorem vl64Header_eq_invalidHighBits {h : Byte} (hm : h.extractLsb' 6 2 ≠ 0b01#2) :
    vl64Header h = .error (.invalidHighBits h) := by
  simp only [vl64Header, sextetCheck_eq_error hm, bind, Except.bind]

theorem vl64Header_eq_invalidLength {h : Byte} (hm : h.extractLsb' 6 2 = 0b01#2)
    (hl : (h.extractLsb' 3 3).toNat < 1 ∨ 6 < (h.extractLsb' 3 3).toNat) :
    vl64Header h = .error .invalidLength := by
  simp only [vl64Header, sextetCheck_eq_ok hm, bind, Except.bind]
  exact if_pos hl

/-- A legal header has the marker, a length of 1 to 6, and its fields where R72 puts them. -/
theorem vl64Header_ok {h : Byte} {d : Header} (hd : vl64Header h = .ok d) :
    h.extractLsb' 6 2 = 0b01#2 ∧ 1 ≤ d.len.toNat ∧ d.len.toNat ≤ 6 ∧
      d.len = h.extractLsb' 3 3 ∧ d.sign = h.extractLsb' 2 1 ∧ d.low = h.extractLsb' 0 2 := by
  by_cases hm : h.extractLsb' 6 2 = 0b01#2
  · by_cases hl : (h.extractLsb' 3 3).toNat < 1 ∨ 6 < (h.extractLsb' 3 3).toNat
    · rw [vl64Header_eq_invalidLength hm hl] at hd; cases hd
    · rw [vl64Header_eq_ok hm (by omega) (by omega)] at hd
      cases hd
      exact ⟨hm, by show 1 ≤ (h.extractLsb' 3 3).toNat; omega, by show (h.extractLsb' 3 3).toNat ≤ 6; omega, rfl, rfl, rfl⟩
  · rw [vl64Header_eq_invalidHighBits hm] at hd; cases hd

/-- The two ways a header fails (R111). -/
theorem vl64Header_error {h : Byte} {r : Raise} (hr : vl64Header h = .error r) :
    r = .invalidHighBits h ∨ r = .invalidLength := by
  by_cases hm : h.extractLsb' 6 2 = 0b01#2
  · by_cases hl : (h.extractLsb' 3 3).toNat < 1 ∨ 6 < (h.extractLsb' 3 3).toNat
    · rw [vl64Header_eq_invalidLength hm hl] at hr; cases hr; exact .inr rfl
    · rw [vl64Header_eq_ok hm (by omega) (by omega)] at hr; cases hr
  · rw [vl64Header_eq_invalidHighBits hm] at hr; cases hr; exact .inl rfl

/-! ### Lengths -/

@[simp] theorem continuationBytes_length (m : BitVec 32) (n : Nat) : (continuationBytes m n).length = n := by
  simp [continuationBytes]

@[simp] theorem b64Encode_length (v : Word) (n : Nat) : (b64Encode v n).length = n := by simp [b64Encode]

theorem bitlen_le (m k : Nat) (h : m < 2 ^ k) : bitlen m ≤ k := by
  unfold bitlen
  split
  · omega
  · next hm => exact (Nat.log2_lt hm).mpr h

theorem le_two_pow_bitlen (m : Nat) : m < 2 ^ bitlen m := by
  unfold bitlen
  split
  · next hm => simp [hm]
  · exact Nat.lt_log2_self

/-- An in-range magnitude has an encoded length of 1 to 6 (R122). -/
theorem vl64EncodedLength_bounds (m : Nat) (h : m < 2 ^ 32) :
    1 ≤ vl64EncodedLength m ∧ vl64EncodedLength m ≤ 6 := by
  have := bitlen_le m 32 h
  unfold vl64EncodedLength
  omega

theorem vl64Range_ok {v : Word} (h : magnitude v < 2 ^ 32) : vl64Range v = .ok (magnitude v) :=
  if_neg (Nat.not_le.mpr h)

theorem vl64Range_error {v : Word} (h : 2 ^ 32 ≤ magnitude v) : vl64Range v = .error .outOfRange :=
  if_pos h

/-- The token of an in-range value. -/
def vl64Token (v : Word) : List Byte :=
  headerByte (BitVec.ofNat 3 (vl64EncodedLength (magnitude v))) (vl64Sign v) (BitVec.ofNat 32 (magnitude v)) ::
    continuationBytes (BitVec.ofNat 32 (magnitude v)) (vl64EncodedLength (magnitude v) - 1)

theorem vl64EncodedLength_toNat (m : Nat) (h : m < 2 ^ 32) :
    (BitVec.ofNat 3 (vl64EncodedLength m)).toNat = vl64EncodedLength m := by
  have := vl64EncodedLength_bounds m h
  rw [BitVec.toNat_ofNat]
  exact Nat.mod_eq_of_lt (by omega)

theorem vl64Encode_ok {v : Word} (h : magnitude v < 2 ^ 32) :
    vl64Encode v = .ok (BitVec.ofNat 3 (vl64EncodedLength (magnitude v)), vl64Token v) := by
  simp only [vl64Encode, vl64Range_ok h, bind, Except.bind, pure, Except.pure, vl64EncodedLength_toNat _ h, vl64Token]

theorem vl64Encode_error {v : Word} (h : 2 ^ 32 ≤ magnitude v) : vl64Encode v = .error .outOfRange := by
  simp only [vl64Encode, vl64Range_error h, bind, Except.bind]

@[simp] theorem vl64Token_length (v : Word) (h : magnitude v < 2 ^ 32) :
    (vl64Token v).length = vl64EncodedLength (magnitude v) := by
  have := vl64EncodedLength_bounds (magnitude v) h
  simp [vl64Token]
  omega

/-! ### Each command's meaning as an equation -/

theorem execSxChk_eq (s : State) :
    execSxChk s = match sextetCheck (s.bufByte 0) with
      | .ok p => .next ((s.putResult (zext 64 p)).raise .ok)
      | .error r => .next (s.raise r) := by
  simp only [execSxChk, readBuf_zero, bind, Except.bind]
  cases sextetCheck (s.bufByte 0) <;> rfl

theorem execVl64Enclen_eq (s : State) :
    execVl64Enclen s = match vl64Range s.value with
      | .ok m => .next ((s.putCount (BitVec.ofNat 4 (vl64EncodedLength m))).raise .ok)
      | .error r => .next (s.raise r) := by
  simp only [execVl64Enclen, bind, Except.bind]
  cases vl64Range s.value <;> rfl

theorem execVl64Enc_ok (s : State) (h : magnitude s.value < 2 ^ 32) :
    execVl64Enc s = .next (((s.putBytes 0 (vl64Token s.value)).putCount
      (zext 4 (BitVec.ofNat 3 (vl64EncodedLength (magnitude s.value))))).raise .ok) := by
  have hb := vl64EncodedLength_bounds (magnitude s.value) h
  have hw := memWrite_eq 0 (vl64Token s.value) s (by rw [vl64Token_length _ h]; omega)
  simp only [execVl64Enc, vl64Encode_ok h, bind, Except.bind, unit_ok, hw]
  rfl

theorem execVl64Enc_error (s : State) (h : 2 ^ 32 ≤ magnitude s.value) :
    execVl64Enc s = .next (s.raise .outOfRange) := by
  simp only [execVl64Enc, vl64Encode_error h, bind, Except.bind, unit_error]
  rfl

theorem execVl64Declen_eq (s : State) :
    execVl64Declen s = match vl64Header (s.bufByte 0) with
      | .ok h => .next ((s.putCount (zext 4 h.len)).raise .ok)
      | .error r => .next (s.raise r) := by
  simp only [execVl64Declen, readBuf_zero, bind, Except.bind]
  cases vl64Header (s.bufByte 0) <;> rfl

/-- The continuation bytes of a token of length `len` at BUF[0]. -/
def tokenTail (s : State) (len : Nat) : List Byte := (List.range (len - 1)).map fun j => s.bufByte (1 + j)

/-- `vl64_decode` with its BUF accesses done. -/
theorem vl64Decode_eq (avail : Nat) (s : State) :
    vl64Decode avail s =
      if avail = 0 then .error (.raised .insufficientLength)
      else match vl64Header (s.bufByte 0) with
        | .error r => .error (.raised r)
        | .ok h =>
          if avail < h.len.toNat then .error (.raised .insufficientLength)
          else match vl64Accumulate (tokenTail s h.len.toNat) h.low with
            | .error r => .error (.raised r)
            | .ok m => .ok (vl64Value h.sign m, h.len) := by
  unfold vl64Decode
  split
  · rfl
  · simp only [readBuf_zero, bind, Except.bind]
    cases hh : vl64Header (s.bufByte 0) with
    | error r => rfl
    | ok h =>
      simp only [unit_ok]
      split
      · rfl
      · have hb := vl64Header_ok hh
        rw [memRead_eq 1 (h.len.toNat - 1) s (by omega)]
        have ht : (List.range (h.len.toNat - 1)).map (fun j => s.bufByte (1 + j)) = tokenTail s h.len.toNat := rfl
        simp only [ht]
        cases vl64Accumulate (tokenTail s h.len.toNat) h.low <;> rfl

theorem execVl64Dec_badWidth (s : State) (h : 16 < s.len.toNat) : execVl64Dec s = .next (s.raise .badWidth) := by
  simp only [execVl64Dec, checkedLen_bad Config.lenMax s h, bind, Except.bind]
  rfl

theorem execVl64Dec_eq (s : State) (h : s.len.toNat ≤ 16) :
    execVl64Dec s = endCommand s (match vl64Decode s.len.toNat s with
      | .ok d => .ok ((s.putResult d.1).putCount (zext 4 d.2))
      | .error e => .error e) := by
  simp only [execVl64Dec, checkedLen_ok Config.lenMax s h, bind, Except.bind]
  cases vl64Decode s.len.toNat s <;> rfl

/-- VL64.DEC on a token whose header is legal, whose bytes are available and whose continuation bytes are sextet bytes. -/
theorem execVl64Dec_ok (s : State) (h16 : s.len.toNat ≤ 16) {h : Header} (hh : vl64Header (s.bufByte 0) = .ok h)
    (ha : h.len.toNat ≤ s.len.toNat) {m : BitVec 32} (hm : vl64Accumulate (tokenTail s h.len.toNat) h.low = .ok m) :
    execVl64Dec s = .next (((s.putResult (vl64Value h.sign m)).putCount (zext 4 h.len)).raise .ok) := by
  have hb := vl64Header_ok hh
  rw [execVl64Dec_eq s h16, vl64Decode_eq, if_neg (by omega), hh]
  simp only [if_neg (Nat.not_lt.mpr ha), hm, endCommand_ok]

/-- VL64.DEC with a bad continuation byte. -/
theorem execVl64Dec_badByte (s : State) (h16 : s.len.toNat ≤ 16) {h : Header} (hh : vl64Header (s.bufByte 0) = .ok h)
    (ha : h.len.toNat ≤ s.len.toNat) {r : Raise} (hr : vl64Accumulate (tokenTail s h.len.toNat) h.low = .error r) :
    execVl64Dec s = .next (s.raise r) := by
  have hb := vl64Header_ok hh
  rw [execVl64Dec_eq s h16, vl64Decode_eq, if_neg (by omega), hh]
  simp only [if_neg (Nat.not_lt.mpr ha), hr, endCommand_raised]

/-- VL64.DEC on a truncated token: its header is legal, and fewer bytes are available than it declares. -/
theorem execVl64Dec_truncated (s : State) (h0 : s.len.toNat ≠ 0) (h16 : s.len.toNat ≤ 16) {h : Header}
    (hh : vl64Header (s.bufByte 0) = .ok h) (ha : s.len.toNat < h.len.toNat) :
    execVl64Dec s = .next (s.raise .insufficientLength) := by
  rw [execVl64Dec_eq s h16, vl64Decode_eq, if_neg h0, hh]
  simp only [if_pos ha, endCommand_raised]

/-- VL64.DEC on a bad header. -/
theorem execVl64Dec_badHeader (s : State) (h0 : s.len.toNat ≠ 0) (h16 : s.len.toNat ≤ 16) {r : Raise}
    (hr : vl64Header (s.bufByte 0) = .error r) : execVl64Dec s = .next (s.raise r) := by
  rw [execVl64Dec_eq s h16, vl64Decode_eq, if_neg h0, hr]
  rfl

/-- VL64.DEC with no byte available (R118). -/
theorem execVl64Dec_noByte (s : State) (h0 : s.len.toNat = 0) :
    execVl64Dec s = .next (s.raise .insufficientLength) := by
  rw [execVl64Dec_eq s (by omega), vl64Decode_eq, if_pos h0, endCommand_raised]

theorem execB64Enc_badWidth (s : State) (h : 10 < s.len.toNat) : execB64Enc s = .next (s.raise .badWidth) := by
  simp only [execB64Enc, checkedLen_bad Config.nbMax s h, bind, Except.bind]
  rfl

theorem execB64Enc_ok (s : State) (h : s.len.toNat ≤ 10) :
    execB64Enc s = .next (((s.putBytes 0 (b64Encode s.value s.len.toNat)).putCount
      (BitVec.ofNat 4 s.len.toNat)).raise .ok) := by
  have hw := memWrite_eq 0 (b64Encode s.value s.len.toNat) s (by rw [b64Encode_length]; omega)
  simp only [execB64Enc, checkedLen_ok Config.nbMax s h, bind, Except.bind, hw]
  rfl

theorem execB64Dec_badWidth (s : State) (h : 10 < s.len.toNat) : execB64Dec s = .next (s.raise .badWidth) := by
  simp only [execB64Dec, checkedLen_bad Config.nbMax s h, bind, Except.bind]
  rfl

theorem execB64Dec_eq (s : State) (h : s.len.toNat ≤ 10) :
    execB64Dec s = match b64Decode ((List.range s.len.toNat).map fun j => s.bufByte j) with
      | .ok v => .next ((s.putResult v).putCount (BitVec.ofNat 4 s.len.toNat) |>.raise .ok)
      | .error r => .next (s.raise r) := by
  have hr := memRead_eq 0 s.len.toNat s (by omega)
  simp only [Nat.zero_add] at hr
  simp only [execB64Dec, checkedLen_ok Config.nbMax s h, bind, Except.bind, hr]
  cases b64Decode ((List.range s.len.toNat).map fun j => s.bufByte j) <;> rfl

end Sys2Proof.Machine
end

