-- ==== Sys2Proof/Laws/Exec.lean ====
section
/-! SUPPORT. Everything a command can do, said once: `exec` always gives a next state, and that state is one of nine
forms, each with the conditions under which it is reached. -/

namespace Sys2Proof.Machine

/-! ### How the loops fail -/

/-- The accumulator's loop fails on the first bad byte, with that byte (R113). -/
theorem accumulateFrom_error {k : Nat} {m : BitVec 32} {cs : List Byte} {r : Raise} (h : accumulateFrom k m cs = .error r) :
    ∃ j, ∃ hj : j < cs.length, r = .invalidHighBits cs[j] ∧ ¬ IsSextet cs[j] ∧
      ∀ i, (hi : i < j) → IsSextet cs[i] := by
  induction cs generalizing k m with
  | nil => simp [accumulateFrom] at h
  | cons c cs ih =>
    simp only [accumulateFrom, bind, Except.bind] at h
    cases hc : sextetCheck c with
    | error e =>
      simp [hc] at h
      obtain ⟨h1, h2⟩ := sextetCheck_error hc
      exact ⟨0, by simp, by simpa [h2] using h.symm, h1, by simp⟩
    | ok p =>
      simp [hc] at h
      obtain ⟨j, hj, h1, h2, h3⟩ := ih h
      refine ⟨j+1, by simpa using hj, by simpa using h1, by simpa using h2, ?_⟩
      intro i hi
      cases i with
      | zero => exact (sextetCheck_ok hc).1
      | succ i => simpa using h3 i (by omega)

/-- The B64 decoder's loop fails on the first bad byte, with that byte (R164). -/
theorem b64Accumulate_error {a : Word} {cs : List Byte} {r : Raise} (h : b64Accumulate a cs = .error r) :
    ∃ j, ∃ hj : j < cs.length, r = .invalidHighBits cs[j] ∧ ¬ IsSextet cs[j] ∧
      ∀ i, (hi : i < j) → IsSextet cs[i] := by
  induction cs generalizing a with
  | nil => simp [b64Accumulate] at h
  | cons c cs ih =>
    simp only [b64Accumulate, bind, Except.bind] at h
    cases hc : sextetCheck c with
    | error e =>
      simp [hc] at h
      obtain ⟨h1, h2⟩ := sextetCheck_error hc
      exact ⟨0, by simp, by simpa [h2] using h.symm, h1, by simp⟩
    | ok p =>
      simp [hc] at h
      obtain ⟨j, hj, h1, h2, h3⟩ := ih h
      refine ⟨j+1, by simpa using hj, by simpa using h1, by simpa using h2, ?_⟩
      intro i hi
      cases i with
      | zero => exact (sextetCheck_ok hc).1
      | succ i => simpa using h3 i (by omega)

/-- A header that fails the marker test is no sextet byte (R111). -/
theorem vl64Header_invalidHighBits {h b : Byte} (hr : vl64Header h = .error (.invalidHighBits b)) :
    b = h ∧ ¬ IsSextet h := by
  by_cases hm : h.extractLsb' 6 2 = 0b01#2
  · by_cases hl : (h.extractLsb' 3 3).toNat < 1 ∨ 6 < (h.extractLsb' 3 3).toNat
    · rw [vl64Header_eq_invalidLength hm hl] at hr; simp at hr
    · rw [vl64Header_eq_ok hm (by omega) (by omega)] at hr; simp at hr
  · rw [vl64Header_eq_invalidHighBits hm] at hr
    exact ⟨by simpa using hr.symm, hm⟩

/-! ### The inversion lemma -/

/-- When a command can raise each status (R200, R201, R205). -/
def RaisedBy (i : Instr) (s : State) : Raise → Prop
  | .ok => False
  | .invalidHighBits b =>
    (∃ k, k < 16 ∧ b = s.bufByte k ∧ ¬ IsSextet b ∧ ∀ j, j < k → IsSextet (s.bufByte j)) ∧
      (i = .sxChk ∨ i = .vl64Declen ∨ i = .vl64Dec ∨ i = .b64Dec)
  | .invalidLength => i = .vl64Declen ∨ i = .vl64Dec
  | .insufficientLength => i = .vl64Dec
  | .outOfRange => i = .vl64Enclen ∨ i = .vl64Enc
  | .badWidth => (i = .vl64Dec ∧ 16 < s.len.toNat) ∨ ((i = .b64Enc ∨ i = .b64Dec) ∧ 10 < s.len.toNat)
  | .illegalCmd => False

/-- The states a command can end in: a status raised on the state it began with, or its own writes with OK. -/
inductive CommandEnds (i : Instr) (s : State) : State → Prop
  | bad (r : Raise) (hr : r ≠ .ok) (hk : RaisedBy i s r) : CommandEnds i s (s.raise r)
  | sxChk (hi : i = .sxChk) (p : Chunk) (h : sextetCheck (s.bufByte 0) = .ok p) :
      CommandEnds i s ((s.putResult (zext 64 p)).raise .ok)
  | enclen (hi : i = .vl64Enclen) (h : magnitude s.value < 2 ^ 32) :
      CommandEnds i s ((s.putCount (BitVec.ofNat 4 (vl64EncodedLength (magnitude s.value)))).raise .ok)
  | enc (hi : i = .vl64Enc) (h : magnitude s.value < 2 ^ 32) :
      CommandEnds i s (((s.putBytes 0 (vl64Token s.value)).putCount
        (zext 4 (BitVec.ofNat 3 (vl64EncodedLength (magnitude s.value))))).raise .ok)
  | declen (hi : i = .vl64Declen) (h : Header) (hh : vl64Header (s.bufByte 0) = .ok h) :
      CommandEnds i s ((s.putCount (zext 4 h.len)).raise .ok)
  | dec (hi : i = .vl64Dec) (hl : s.len.toNat ≤ 16) (h : Header) (hh : vl64Header (s.bufByte 0) = .ok h)
      (ha : h.len.toNat ≤ s.len.toNat) (m : BitVec 32) (hm : vl64Accumulate (tokenTail s h.len.toNat) h.low = .ok m) :
      CommandEnds i s (((s.putResult (vl64Value h.sign m)).putCount (zext 4 h.len)).raise .ok)
  | b64Enc (hi : i = .b64Enc) (hl : s.len.toNat ≤ 10) :
      CommandEnds i s (((s.putBytes 0 (b64Encode s.value s.len.toNat)).putCount
        (BitVec.ofNat 4 s.len.toNat)).raise .ok)
  | b64Dec (hi : i = .b64Dec) (hl : s.len.toNat ≤ 10) (v : Word)
      (hv : b64Decode ((List.range s.len.toNat).map fun j => s.bufByte j) = .ok v) :
      CommandEnds i s (((s.putResult v).putCount (BitVec.ofNat 4 s.len.toNat)).raise .ok)

/-- Every command, on every state, gives a next state, in one of the ways of `CommandEnds`. -/
theorem exec_commandEnds (i : Instr) (s : State) : ∃ t, exec i s = .next t ∧ CommandEnds i s t := by
  cases i with
  | sxChk =>
    simp only [exec, execSxChk_eq]
    cases h : sextetCheck (s.bufByte 0) with
    | ok p => exact ⟨_, rfl, .sxChk rfl p h⟩
    | error r =>
      obtain ⟨h1, h2⟩ := sextetCheck_error h
      exact ⟨_, rfl, .bad r (by simp [h2]) (by subst h2; exact ⟨⟨0, by omega, rfl, h1, by simp⟩, by simp⟩)⟩
  | vl64Enclen =>
    simp only [exec, execVl64Enclen_eq]
    by_cases h : magnitude s.value < 2 ^ 32
    · rw [vl64Range_ok h]; exact ⟨_, rfl, .enclen rfl h⟩
    · rw [vl64Range_error (by omega)]; exact ⟨_, rfl, .bad _ (by simp) (by simp [RaisedBy])⟩
  | vl64Enc =>
    simp only [exec]
    by_cases h : magnitude s.value < 2 ^ 32
    · rw [execVl64Enc_ok s h]; exact ⟨_, rfl, .enc rfl h⟩
    · rw [execVl64Enc_error s (by omega)]; exact ⟨_, rfl, .bad _ (by simp) (by simp [RaisedBy])⟩
  | vl64Declen =>
    simp only [exec, execVl64Declen_eq]
    cases h : vl64Header (s.bufByte 0) with
    | ok p => exact ⟨_, rfl, .declen rfl p h⟩
    | error r =>
      rcases vl64Header_error h with rfl | rfl
      · exact ⟨_, rfl, .bad _ (by simp) ⟨⟨0, by omega, rfl, (vl64Header_invalidHighBits h).2, by simp⟩, by simp⟩⟩
      · exact ⟨_, rfl, .bad _ (by simp) (by simp [RaisedBy])⟩
  | vl64Dec =>
    simp only [exec]
    by_cases hl : s.len.toNat ≤ 16
    · rw [execVl64Dec_eq s hl, vl64Decode_eq]
      split_ifs with h0
      · exact ⟨_, rfl, .bad _ (by simp) (by simp [RaisedBy])⟩
      · cases h : vl64Header (s.bufByte 0) with
        | error r =>
          rcases vl64Header_error h with rfl | rfl
          · exact ⟨_, rfl, .bad _ (by simp) ⟨⟨0, by omega, rfl, (vl64Header_invalidHighBits h).2, by simp⟩, by simp⟩⟩
          · exact ⟨_, rfl, .bad _ (by simp) (by simp [RaisedBy])⟩
        | ok h' =>
          dsimp only
          split_ifs with h2
          · exact ⟨_, rfl, .bad _ (by simp) (by simp [RaisedBy])⟩
          · have hb := vl64Header_ok h
            cases hm : vl64Accumulate (tokenTail s h'.len.toNat) h'.low with
            | error r =>
              obtain ⟨j, hj, h1, h3, h4⟩ := accumulateFrom_error hm
              simp [tokenTail] at hj h1 h3 h4
              refine ⟨_, rfl, .bad _ (by simp [h1]) ?_⟩
              subst h1
              refine ⟨⟨1 + j, by omega, rfl, h3, ?_⟩, by simp⟩
              intro i hi
              cases i with
              | zero => exact hb.1
              | succ i => have := h4 i (by omega); rwa [Nat.add_comm] at this
            | ok m => exact ⟨_, rfl, .dec rfl hl h' h (by omega) m hm⟩
    · rw [execVl64Dec_badWidth s (by omega)]; exact ⟨_, rfl, .bad _ (by simp) (by simp [RaisedBy]; omega)⟩
  | b64Enc =>
    simp only [exec]
    by_cases hl : s.len.toNat ≤ 10
    · rw [execB64Enc_ok s hl]; exact ⟨_, rfl, .b64Enc rfl hl⟩
    · rw [execB64Enc_badWidth s (by omega)]; exact ⟨_, rfl, .bad _ (by simp) (by simp [RaisedBy]; omega)⟩
  | b64Dec =>
    simp only [exec]
    by_cases hl : s.len.toNat ≤ 10
    · rw [execB64Dec_eq s hl]
      cases h : b64Decode ((List.range s.len.toNat).map fun j => s.bufByte j) with
      | ok v => exact ⟨_, rfl, .b64Dec rfl hl v h⟩
      | error r =>
        obtain ⟨j, hj, h1, h3, h4⟩ := b64Accumulate_error h
        simp at hj h1 h3 h4
        refine ⟨_, rfl, .bad _ (by simp [h1]) ?_⟩
        subst h1
        exact ⟨⟨j, by omega, rfl, h3, fun i hi => h4 i hi⟩, by simp⟩
    · rw [execB64Dec_badWidth s (by omega)]; exact ⟨_, rfl, .bad _ (by simp) (by simp [RaisedBy]; omega)⟩

/-- Whatever next state a command gives is one of those forms. -/
theorem commandEnds_of_exec {i : Instr} {s t : State} (h : exec i s = .next t) : CommandEnds i s t := by
  obtain ⟨u, hu, he⟩ := exec_commandEnds i s
  rw [hu] at h
  cases h
  exact he

end Sys2Proof.Machine
end

