-- ==== Sys2Proof/Laws/Host.lean ====
section
/-! SUPPORT. What the host's steps can do, when two states are equal, and which inputs the units' ports answer for. -/

namespace Sys2Proof.Machine

/-- A write of CMD of the right width runs the word (R32, R33). -/
@[simp] theorem runHostStep_write_cmd (c : Byte) (s : State) : runHostStep (.write .cmd (.b8 c)) s = runCommand c s := by
  simp [runHostStep, hostWrite, Reg.accepts, Reg.width, RegVal.width, regWrite]

/-- A command word always gives a next state: ILLEGAL_CMD raised, or one of the forms of its command. -/
theorem runCommand_cases (c : Byte) (s : State) :
    ∃ t, runCommand c s = .next t ∧
      ((∃ e, decodeCmd c = .error e ∧ t = (s.putCmd c).raise .illegalCmd) ∨
        ∃ i, decodeCmd c = .ok i ∧ exec i (s.putCmd c) = .next t ∧ CommandEnds i (s.putCmd c) t) := by
  unfold runCommand
  cases h : decodeCmd c with
  | error e => exact ⟨_, rfl, .inl ⟨e, rfl, rfl⟩⟩
  | ok i =>
    obtain ⟨t, ht, he⟩ := exec_commandEnds i (s.putCmd c)
    exact ⟨t, ht, .inr ⟨i, rfl, ht, he⟩⟩

/-- Host steps in two parts: the second part runs from where the first one got to. -/
theorem runHostSteps_append (a b : List HostStep) (s : State) :
    runHostSteps (a ++ b) s = match runHostSteps a s with
      | .next t => runHostSteps b t
      | .fault f => .fault f
      | .refused r => .refused r := by
  induction a generalizing s with
  | nil => rfl
  | cons h a ih =>
    simp only [List.cons_append, runHostSteps]
    cases runHostStep h s with
    | next t => exact ih t
    | fault f => rfl
    | refused r => rfl

/-- Writing several bytes keeps the record rising. -/
theorem State.putBytes_specified_pairwise (s : State) (a : Nat) (bs : List Byte)
    (h : s.specified.Pairwise (· < ·)) : (s.putBytes a bs).specified.Pairwise (· < ·) :=
  State.markFrom_specified_pairwise _ _ _ h

/-- Raising a status keeps the record rising. -/
theorem State.raise_specified_pairwise (s : State) (r : Raise) (h : s.specified.Pairwise (· < ·)) :
    (s.raise r).specified.Pairwise (· < ·) := by
  cases r <;> simp only [State.raise, State.putStatus_specified, State.putErrByte_specified] <;>
    first
    | exact insertNum_pairwise _ _ h
    | exact insertNum_pairwise _ _ (insertNum_pairwise _ _ h)

/-- Marking a number that is in a rising record changes nothing. -/
theorem insertNum_of_mem (n : Nat) (l : List Nat) (hl : l.Pairwise (· < ·)) (h : n ∈ l) : insertNum n l = l := by
  induction l with
  | nil => simp at h
  | cons x l ih =>
    have hp := List.pairwise_cons.mp hl
    rw [insertNum]
    rcases List.mem_cons.mp h with rfl | h
    · simp
    · have := hp.1 n h
      rw [if_neg (by omega), if_neg (by omega), ih hp.2 h]

/-- Rising records with the same members are equal. -/
theorem rising_ext (l m : List Nat) (hl : l.Pairwise (· < ·)) (hm : m.Pairwise (· < ·)) (h : ∀ n, n ∈ l ↔ n ∈ m) :
    l = m := by
  have h1 : l.Nodup := hl.imp (fun h => ne_of_lt h)
  have h2 : m.Nodup := hm.imp (fun h => ne_of_lt h)
  exact ((List.perm_ext_iff_of_nodup h1 h2).mpr h).eq_of_pairwise (fun a b _ _ h1 h2 => by omega) hl hm

/-- Two states with canonical BUFs and rising records are equal when everything in them reads alike. -/
theorem State.ext_of_reads (s t : State) (hs : Memory.wf s.buf) (ht : Memory.wf t.buf)
    (hsp : s.specified.Pairwise (· < ·)) (htp : t.specified.Pairwise (· < ·)) (hregs : ∀ r, regRead r s = regRead r t)
    (hmem : ∀ n, n ∈ s.specified ↔ n ∈ t.specified) (hport : s.readPort = t.readPort) (hpend : s.pending = t.pending) :
    s = t := by
  have hbuf : s.buf = t.buf := by
    apply Memory.ext_of_read _ _ hs ht
    intro a
    by_cases ha : a < 16
    · simpa [regRead, State.bufByte] using hregs (.buf ⟨a, ha⟩)
    · have h : ∀ m : Memory, m.wf → m.read a = Config.unlistedByte := fun m hm =>
        Memory.read_unlisted m a fun c hc => by
          have := (hm.2 c hc).1
          unfold Config.bufBytes at this
          omega
      rw [h _ hs, h _ ht]
  have h1 := hregs .cmd
  have h2 := hregs .value
  have h3 := hregs .len
  have h4 := hregs .status
  have h5 := hregs .result
  have h6 := hregs .count
  have h7 := hregs .errByte
  have h8 := rising_ext _ _ hsp htp hmem
  cases s
  cases t
  simp_all [regRead]

/-! ### Ports over the inputs the spec gives a meaning (log 18) -/

theorem b64EncoderPorts_eq (v : Word) (n : BitVec 4) (h : n.toNat ≤ 10) :
    b64EncoderPorts v n = some (b64Encode v n.toNat) :=
  if_neg (Nat.not_lt.mpr h)

theorem b64DecoderPorts_ok (b : Vector Byte 10) (n : BitVec 4) (h : n.toNat ≤ 10) {w : Word}
    (hw : b64Decode (b.toList.take n.toNat) = .ok w) :
    b64DecoderPorts b n = some { err := 0#1, errbyte := none, value := some w } := by
  rw [b64DecoderPorts, if_neg (Nat.not_lt.mpr h), hw]

theorem accumulatorPorts_ok (c : Vector Byte 5) (len : BitVec 3) (low : BitVec 2) (h1 : 1 ≤ len.toNat)
    (h6 : len.toNat ≤ 6) {m : BitVec 32} (hm : vl64Accumulate (c.toList.take (len.toNat - 1)) low = .ok m) :
    accumulatorPorts c len low = some { err := 0#1, errbyte := none, mag := some m } := by
  rw [accumulatorPorts, if_neg (by show ¬(len.toNat < 1 ∨ 6 < len.toNat); omega), hm]

end Sys2Proof.Machine
end

