-- ==== Sys2Proof/Laws/PerInstr.lean ====
section
/-! SUPPORT. Statements about every command as syntax, one lemma for each constructor. -/

namespace Sys2Proof.Laws.Encoding

/-- A command is well formed, and its word has RSV = 0 and its own OP code, which is not 0 (R80, R81). -/
def Statement (i : Instr) : Prop :=
  i.wf = true ∧ rsvField (encode i) = 0#5 ∧ opField (encode i) = i.op ∧ i.op ≠ 0#3

theorem sxChk : Statement .sxChk := by unfold Statement; decide

theorem vl64Enclen : Statement .vl64Enclen := by unfold Statement; decide

theorem vl64Enc : Statement .vl64Enc := by unfold Statement; decide

theorem vl64Declen : Statement .vl64Declen := by unfold Statement; decide

theorem vl64Dec : Statement .vl64Dec := by unfold Statement; decide

theorem b64Enc : Statement .b64Enc := by unfold Statement; decide

theorem b64Dec : Statement .b64Dec := by unfold Statement; decide

end Sys2Proof.Laws.Encoding
end

