-- ==== Sys2Proof/Tests/Slice0.lean ====
section
/-! SUPPORT. Tests: ill-formed terms, command words bit by bit, one-step runs with the values of 95_test_vectors.md,
and, for each statement with hypotheses, states and operands that meet them. -/

namespace Sys2Proof.Tests

open Sys2Proof.Machine

/-! ### Ill-formed terms are refused -/

/-- LEN is 5 bits wide (R21), so an 8-bit value is refused (R34). -/
theorem test_wf_write_width : HostStep.wf (.write .len (.b8 0#8)) = false := by decide

theorem test_wf_write_ok : HostStep.wf (.write .len (.b5 31#5)) = true := by decide

/-- 256 does not fit a BUF byte. -/
theorem test_wf_literal_too_large : AsmLine.wf (.wr (.buf 0) 256) = false := by decide

/-- Only VALUE takes a negative literal (R84), of at least −2^63. -/
theorem test_wf_negative_literals :
    AsmLine.wf (.wr .len (-1)) = false ∧ AsmLine.wf (.wr .value (-2 ^ 63 - 1)) = false ∧
      AsmLine.wf (.wr .value (-2 ^ 63)) = true := by decide

/-- A reserved number has no name to write or read it by. -/
theorem test_wf_reserved : AsmLine.wf (.wr (.reserved 0) 0) = false ∧ AsmLine.wf (.rd (.reserved 8)) = false := by decide

/-- `ldbuf` loads 1 to 16 bytes (R85). -/
theorem test_wf_ldbuf : AsmLine.wf (.ldbuf []) = false ∧ AsmLine.wf (.ldbuf (List.replicate 17 0)) = false ∧
    AsmLine.wf (.ldbuf (List.replicate 16 0)) = true := by decide

theorem test_wf_pseudo : AsmLine.wf (.vl64Len (2 ^ 64)) = false ∧ AsmLine.wf (.vl64Put (2 ^ 64)) = false ∧
    AsmLine.wf (.vl64Get 32) = false ∧ AsmLine.wf (.b64Put 32 0) = false ∧ AsmLine.wf (.b64Get (-1)) = false := by decide

theorem test_wf_comment : AsmLine.wf (.comment (String.ofList [Char.ofNat 10])) = false := by decide

/-! ### Command words, bit by bit (R80, R81): 00000, then OP -/

theorem test_decode_sxChk : decodeCmd 0b00000001#8 = .ok .sxChk := by decide
theorem test_decode_vl64Enclen : decodeCmd 0b00000010#8 = .ok .vl64Enclen := by decide
theorem test_decode_vl64Enc : decodeCmd 0b00000011#8 = .ok .vl64Enc := by decide
theorem test_decode_vl64Declen : decodeCmd 0b00000100#8 = .ok .vl64Declen := by decide
theorem test_decode_vl64Dec : decodeCmd 0b00000101#8 = .ok .vl64Dec := by decide
theorem test_decode_b64Enc : decodeCmd 0b00000110#8 = .ok .b64Enc := by decide
theorem test_decode_b64Dec : decodeCmd 0b00000111#8 = .ok .b64Dec := by decide

/-- The illegal words of 95_test_vectors.md section 2.7. -/
theorem test_decode_illegal : decodeCmd 0x00#8 = .error .opZero ∧ decodeCmd 0x08#8 = .error .reservedBits ∧
    decodeCmd 0x81#8 = .error .reservedBits ∧ decodeCmd 0xFF#8 = .error .reservedBits := by decide

theorem test_decode_bytes : decodeBytes [] = .error .noWord ∧
    decodeBytes [0x03#8, 0xAA#8] = .ok (.vl64Enc, [0xAA#8]) := by decide

/-- The host writes of program P1, as its pairs. -/
theorem test_decode_writes : decodeWrite 0x01 0xFFFFFFFFFFFFFFFB = some (.write .value (.b64 0xFFFFFFFFFFFFFFFB#64)) ∧
    decodeWrite 0x02 2 = some (.write .len (.b5 2#5)) ∧ decodeWrite 0x11 0x41 = some (.write (.buf 1) (.b8 0x41#8)) ∧
    decodeWrite 0x02 32 = none ∧ decodeWrite 32 0 = none := by decide

/-! ### One step of each command, with the values of 95_test_vectors.md section 2 -/

/-- A block with a VALUE, a LEN and BUF's first bytes, after some command: every register holds a value. -/
def block (v : Int) (n : Nat) (bytes : List Byte) : State :=
  { State.reset with
    value := BitVec.ofInt 64 v, len := BitVec.ofNat 5 n, buf := Memory.writeList [] 0 bytes, status := 0x01#8,
    cmd := 0x01#8, specified := List.range 7 ++ (List.range 16).map (0x10 + ·) }

/-- What a command leaves, one projection of it. -/
def after {α : Type} (i : Instr) (s : State) (f : State → α) : Option α :=
  match exec i s with
  | .next t => some (f t)
  | .fault _ => none
  | .refused _ => none

/-- BUF's first bytes. -/
def bufHead (n : Nat) (s : State) : List Byte := (List.range n).map s.bufByte

theorem test_sxChk_payload : after .sxChk (block 0 0 [0x55#8]) (fun t => (t.status, t.result, t.errByte)) =
    some (0x01#8, 21#64, 0x00#8) := by decide

theorem test_sxChk_bad : after .sxChk (block 0 0 [0xC0#8]) (fun t => (t.status, t.result, t.errByte)) =
    some (0x11#8, 0#64, 0xC0#8) := by decide

theorem test_vl64Enclen_boundary : after .vl64Enclen (block 67108864 0 []) (fun t => (t.status, t.count)) =
    some (0x01#8, 6#4) := by decide

theorem test_vl64Enclen_range : after .vl64Enclen (block (-4294967296) 0 []) (fun t => (t.status, t.count)) =
    some (0x41#8, 0#4) := by decide

theorem test_vl64Enc_minus1000 : after .vl64Enc (block (-1000) 0 [0#8, 0#8, 0#8, 0xEE#8])
    (fun t => (t.status, t.count, bufHead 4 t)) = some (0x01#8, 3#4, [0x5C#8, 0x7A#8, 0x43#8, 0xEE#8]) := by decide

theorem test_vl64Enc_smallest : after .vl64Enc (block (-4294967295) 0 []) (fun t => (t.count, bufHead 6 t)) =
    some (6#4, [0x77#8, 0x7F#8, 0x7F#8, 0x7F#8, 0x7F#8, 0x7F#8]) := by decide

theorem test_vl64Declen_six : after .vl64Declen (block 0 0 [0x77#8]) (fun t => (t.status, t.count)) =
    some (0x01#8, 6#4) := by decide

theorem test_vl64Declen_seven : after .vl64Declen (block 0 0 [0x78#8]) (fun t => (t.status, t.count)) =
    some (0x21#8, 0#4) := by decide

theorem test_vl64Dec_minInt32 : after .vl64Dec (block 0 6 [0x74#8, 0x40#8, 0x40#8, 0x40#8, 0x40#8, 0x60#8])
    (fun t => (t.status, t.result.toInt, t.count)) = some (0x01#8, -2147483648, 6#4) := by decide

theorem test_vl64Dec_badByte : after .vl64Dec (block 0 3 [0x58#8, 0x80#8, 0x00#8])
    (fun t => (t.status, t.result, t.errByte)) = some (0x11#8, 0#64, 0x80#8) := by decide

theorem test_b64Enc_five : after .b64Enc (block 12345678 5 []) (fun t => (t.status, t.count, bufHead 5 t)) =
    some (0x01#8, 5#4, [0x40#8, 0x6F#8, 0x46#8, 0x45#8, 0x4E#8]) := by decide

theorem test_b64Enc_badWidth : after .b64Enc (block 7 11 [0xEE#8]) (fun t => (t.status, t.count, bufHead 1 t)) =
    some (0x51#8, 0#4, [0xEE#8]) := by decide

theorem test_b64Dec_300 : after .b64Dec (block 0 2 [0x44#8, 0x6C#8]) (fun t => (t.status, t.result, t.count)) =
    some (0x01#8, 300#64, 2#4) := by decide

theorem test_b64Dec_badByte : after .b64Dec (block 0 3 [0x41#8, 0x80#8, 0x00#8])
    (fun t => (t.status, t.result, t.errByte)) = some (0x11#8, 0#64, 0x80#8) := by decide

/-! ### The host's side -/

/-- The first command after reset, placed by `withFetchWord`: B64.ENC of the reset state's LEN of 0 (log 1). -/
theorem test_first_step : (match step (State.reset.withFetchWord 8 0x06) with
    | .next t => some (t.status, t.count, t.cmd, t.pending)
    | _ => none) = some (0x01#8, 0#4, 0x06#8, []) := by decide

theorem test_illegal_word : (match runHostStep (.write .cmd (.b8 0x81#8)) (block 5 1 []) with
    | .next t => some (t.status, t.cmd, t.value)
    | _ => none) = some (0x61#8, 0x81#8, 5#64) := by decide

/-- A read of RESULT right after reset: the stricter step names the register (R35, P4's end state). -/
theorem test_strict_read : (match strictStep (State.reset.withHost [.read .result]) with
    | .fault (.unspecifiedRead n) => some n
    | _ => none) = some 0x04 := by decide

/-- Program P1's lines as host steps. -/
theorem test_assemble : assemble [.wr .value (-5), .command .vl64Enc, .comment "-5", .vl64Get 2] =
    some [.write .value (.b64 0xFFFFFFFFFFFFFFFB#64), .write .cmd (.b8 0x03#8), .write .len (.b5 2#5),
      .write .cmd (.b8 0x05#8)] := by decide

/-- The ports of the spec's B64 example, 300 with n = 2, and of an n the spec gives the units no meaning for (log 18). -/
theorem test_b64_ports : b64EncoderPorts 300#64 2#4 = some [0x44#8, 0x6C#8] ∧ b64EncoderPorts 300#64 11#4 = none ∧
    b64DecoderPorts (Vector.replicate 10 0x40#8) 11#4 = none ∧
    accumulatorPorts (Vector.replicate 5 0x40#8) 7#3 0#2 = none := by decide

theorem test_lineText : lineText (.wr (.buf 3) 64) = "wr BUF3, 64" ∧
    lineText (.ldbuf [72, 65]) = "ldbuf 72, 65" ∧ lineText (.command .vl64Enclen) = "VL64.ENCLEN" := by decide

/-! ### Witnesses: every statement's hypotheses can be met -/

/-- For the statements about any next state of a command: it gives some next state with the property. -/
theorem witness_of_after {i : Instr} {s : State} {p : State → Bool} (h : after i s p = some true) :
    ∃ t, exec i s = .next t ∧ p t = true := by
  unfold after at h
  split at h
  · next t ht => exact ⟨t, ht, Option.some.inj h⟩
  · cases h
  · cases h

/-- Every `block` over at most 16 bytes meets the invariant. -/
theorem block_inv (v : Int) (n : Nat) (bytes : List Byte) (hb : Memory.wf (block v n bytes).buf) :
    (block v n bytes).Inv where
  buf := hb
  status := .inr (by unfold block; dsimp only; decide)
  count := fun _ => by unfold block State.reset; dsimp only; decide
  specified := by unfold block specifiedLegal storingNum; dsimp only; decide
  beforeCommand := by unfold block; dsimp only; decide
  afterCommand := by unfold block; dsimp only; decide
  errByteHeld := by unfold block; dsimp only; decide

theorem witness_HostWritePairDecodesToItsWrite :
    Reg.width .cmd = some (RegVal.b8 0xFF#8).width ∧ Reg.width .value = some (RegVal.b64 (-1#64)).width ∧
      Reg.width .len = some (RegVal.b5 31#5).width ∧ Reg.width .count = some (RegVal.b4 15#4).width ∧
      Reg.width (.buf 15) = some (RegVal.b8 0x00#8).width := by decide

theorem witness_StepRunsTheDecodedCommand :
    (State.reset.withCommand 0x07#8).pending = .write .cmd (.b8 0x07#8) :: [] ∧ decodeCmd 0x07#8 = .ok .b64Dec ∧
      decodeTableWord 8 0x01 = some .sxChk ∧ decodeTableWord 8 0x107 = some .b64Dec := by decide

theorem witness_StepTakesTheNextHostStep :
    State.reset.pending = [] ∧ (State.reset.withHost [.reset, .read .len]).pending = .reset :: [.read .len] := by decide

theorem witness_IllegalWordWritesStatusOnly :
    (0x08#8 : Byte).extractLsb' 3 5 ≠ 0#5 ∧ (0xFF#8 : Byte).extractLsb' 3 5 ≠ 0#5 ∧
      (0x00#8 : Byte).extractLsb' 0 3 = 0#3 := by decide

theorem witness_ReadOnlyWritesAreIgnoredAndWidthsEnforced :
    Reg.width .status = some (RegVal.b8 0xFF#8).width ∧ Reg.width .result = some (RegVal.b64 1#64).width ∧
      Reg.width .count = some (RegVal.b4 15#4).width ∧ Reg.width .errByte = some (RegVal.b8 0#8).width ∧
      Reg.width .cmd = some 8 ∧ (RegVal.b5 1#5).width ≠ 8 ∧ Reg.width .len = some 5 ∧ (RegVal.b4 1#4).width ≠ 5 := by
  decide

theorem witness_ReservedNumbersReadZeroAndIgnoreWrites :
    0x07 ≤ (0x07#5).toNat ∧ (0x07#5).toNat ≤ 0x0F ∧ 0x07 ≤ (0x0F#5).toNat ∧ (0x0F#5).toNat ≤ 0x0F := by decide

theorem witness_HostWriteIsReadBackAndLeavesTheRest :
    Memory.wf (block 0 0 [0x41#8]).buf ∧ Reg.width .value = some (RegVal.b64 (-1#64)).width ∧
      Reg.width .len = some (RegVal.b5 31#5).width ∧ Reg.width (.buf 0) = some (RegVal.b8 0x00#8).width ∧
      Reg.width (.buf 15) = some (RegVal.b8 0xFF#8).width := by decide

theorem witness_OnlyCommandsAndResetWriteTheFlags :
    (∃ t, runHostStep (.write .cmd (.b8 0x06#8)) State.reset = .next t) ∧
      (∃ t, runHostStep (.write .cmd (.b8 0x00#8)) State.reset = .next t) ∧
      (∃ t, runHostStep .reset (block 1 1 []) = .next t) ∧
      (∃ t, runHostStep (.write .status (.b8 0xFF#8)) (block 1 1 []) = .next t) ∧
      ∃ t, runHostStep (.read .status) State.reset = .next t :=
  ⟨⟨_, rfl⟩, ⟨_, rfl⟩, ⟨_, rfl⟩, ⟨_, rfl⟩, ⟨_, rfl⟩⟩

/-- 0x3F and 0x80 lie just outside the sextet bytes, 0x40 and 0x7F just inside. -/
theorem witness_SextetBytesAreExactly40To7F :
    (0x40 ≤ (0x40#8).toNat ∧ (0x40#8).toNat ≤ 0x7F) ∧ (0x40 ≤ (0x7F#8).toNat ∧ (0x7F#8).toNat ≤ 0x7F) ∧
      (0x3F#8).toNat < 0x40 ∧ 0x7F < (0x80#8).toNat := by decide

theorem witness_LegalHeadersAreExactly48To77 :
    (0x48 ≤ (0x48#8).toNat ∧ (0x48#8).toNat ≤ 0x77) ∧ (0x48 ≤ (0x77#8).toNat ∧ (0x77#8).toNat ≤ 0x77) ∧
      (0x40 ≤ (0x40#8).toNat ∧ (0x47#8).toNat ≤ 0x47) ∧ (0x78 ≤ (0x78#8).toNat ∧ (0x7F#8).toNat ≤ 0x7F) ∧
      (0x3F#8).toNat < 0x40 ∧ 0x7F < (0x80#8).toNat := by decide

/-- len 1 uses no lane, len 6 all five, and the last lane can be the bad one. -/
theorem witness_AccumulatorSumsTheChunksInUse :
    1 ≤ (1#3).toNat ∧ (1#3).toNat ≤ 6 ∧ 1 ≤ (6#3).toNat ∧ (6#3).toNat ≤ 6 ∧
      (∀ j : Fin 5, j.val < (6#3).toNat - 1 → IsSextet ((Vector.replicate 5 0x7F#8).get j)) ∧
      ((4 : Fin 5).val < (6#3).toNat - 1 ∧ ¬ IsSextet ((#v[0x40#8, 0x40#8, 0x40#8, 0x40#8, 0x80#8]).get 4) ∧
        ∀ k : Fin 5, k < 4 → IsSextet ((#v[0x40#8, 0x40#8, 0x40#8, 0x40#8, 0x80#8]).get k)) := by
  unfold IsSextet; decide

theorem witness_EncodedLengthTableByMagnitude :
    [0, 3, 4, 255, 256, 16383, 16384].map vl64EncodedLength = [1, 1, 2, 2, 3, 3, 4] ∧
      [1048575, 1048576, 67108863, 67108864, 4294967295].map vl64EncodedLength = [4, 5, 5, 6, 6] := by decide

theorem witness_EncodedLengthIsLeastAndMonotone :
    1 ≤ 6 ∧ 4294967295 < 2 ^ (2 + 6 * (6 - 1)) ∧ 3 < 2 ^ (2 + 6 * (1 - 1)) ∧ 255 ≤ 256 := by decide

theorem witness_SxChkTestsTheFirstByte :
    IsSextet ((block 0 0 [0x40#8]).bufByte 0) ∧ ¬ IsSextet ((block 0 0 [0x80#8]).bufByte 0) ∧
      (State.reset.withCommand 0x01#8).pending = .write .cmd (.b8 0x01#8) :: [] ∧
      0x10 ∉ (State.reset.withCommand 0x01#8).specified := by unfold IsSextet; decide

theorem witness_Vl64EnclenCountsTheEncodedLength :
    (block 4294967295 0 []).value.toInt.natAbs < 2 ^ 32 ∧ (block (-4294967295) 0 []).value.toInt.natAbs < 2 ^ 32 ∧
      2 ^ 32 ≤ (block 4294967296 0 []).value.toInt.natAbs ∧ 2 ^ 32 ≤ (block (-2 ^ 63) 0 []).value.toInt.natAbs := by
  decide

theorem witness_Vl64EncWritesTheToken :
    (block 0 0 []).value.toInt.natAbs < 2 ^ 32 ∧ (block (-4294967295) 0 []).value.toInt.natAbs < 2 ^ 32 ∧
      2 ^ 32 ≤ (block (-4294967296) 0 []).value.toInt.natAbs := by decide

theorem witness_Vl64DeclenReadsTheHeader :
    (IsSextet ((block 0 0 [0x48#8]).bufByte 0) ∧ lengthField ((block 0 0 [0x48#8]).bufByte 0) = 1) ∧
      (IsSextet ((block 0 0 [0x77#8]).bufByte 0) ∧ lengthField ((block 0 0 [0x77#8]).bufByte 0) = 6) ∧
      ¬ IsSextet ((block 0 0 [0x3F#8]).bufByte 0) ∧
      (IsSextet ((block 0 0 [0x47#8]).bufByte 0) ∧ lengthField ((block 0 0 [0x47#8]).bufByte 0) = 0) ∧
      (IsSextet ((block 0 0 [0x78#8]).bufByte 0) ∧ lengthField ((block 0 0 [0x78#8]).bufByte 0) = 7) := by
  unfold IsSextet; decide

/-- The longest token with exactly its bytes available, and the shortest with 16. -/
theorem witness_Vl64DecReturnsTheTokenValue :
    (lengthField ((block 0 6 (0x77#8 :: List.replicate 5 0x7F#8)).bufByte 0) = 6 ∧
      ∀ k, k < 6 → IsSextet ((block 0 6 (0x77#8 :: List.replicate 5 0x7F#8)).bufByte k)) ∧
    (lengthField ((block 0 16 [0x48#8]).bufByte 0) = 1 ∧ (block 0 16 [0x48#8]).len.toNat = 16 ∧
      ∀ k, k < 1 → IsSextet ((block 0 16 [0x48#8]).bufByte k)) := by
  unfold IsSextet; decide

theorem witness_Vl64DecReportsTheFirstFailingCheck :
    16 < (block 0 17 [0x48#8]).len.toNat ∧ (block 0 0 []).len.toNat = 0 ∧
      (1 ≤ (block 0 1 [0x00#8]).len.toNat ∧ ¬ IsSextet ((block 0 1 [0x00#8]).bufByte 0)) ∧
      (IsSextet ((block 0 16 [0x78#8]).bufByte 0) ∧ lengthField ((block 0 16 [0x78#8]).bufByte 0) = 7) ∧
      (block 0 1 [0x50#8]).len.toNat < lengthField ((block 0 1 [0x50#8]).bufByte 0) ∧
      (lengthField ((block 0 2 [0x50#8, 0x00#8]).bufByte 0) ≤ (block 0 2 [0x50#8, 0x00#8]).len.toNat ∧
        ¬ IsSextet ((block 0 2 [0x50#8, 0x00#8]).bufByte 1)) := by
  unfold IsSextet; decide

theorem witness_B64EncWritesTheChunks :
    (block 7 0 []).len.toNat ≤ 10 ∧ (block 7 10 []).len.toNat ≤ 10 ∧ 10 < (block 7 11 []).len.toNat := by decide

theorem witness_B64DecReturnsTheChunkSum :
    ((block 0 10 (List.replicate 10 0x7F#8)).len.toNat ≤ 10 ∧
      ∀ i, i < 10 → IsSextet ((block 0 10 (List.replicate 10 0x7F#8)).bufByte i)) ∧
    ((block 0 3 [0x41#8, 0x80#8]).len.toNat ≤ 10 ∧ ¬ IsSextet ((block 0 3 [0x41#8, 0x80#8]).bufByte 1) ∧
      ∀ j, j < 1 → IsSextet ((block 0 3 [0x41#8, 0x80#8]).bufByte j)) ∧
    10 < (block 0 11 []).len.toNat := by
  unfold IsSextet; decide

theorem witness_AcceptedTokenLengthIsItsHeaderField :
    ∃ t, exec .vl64Dec (block 0 2 [0x55#8, 0x41#8]) = .next t ∧ (t.status == 0x01#8) = true :=
  witness_of_after (by decide)

/-- Both run, one with a byte after the token and more of them available. -/
theorem witness_Vl64DecIgnoresBytesPastTheToken :
    IsSextet ((block 0 1 [0x49#8]).bufByte 0) ∧ lengthField ((block 0 1 [0x49#8]).bufByte 0) = 1 ∧
      (∀ a, a < 1 → (block 0 16 [0x49#8, 0xFF#8]).bufByte a = (block 0 1 [0x49#8]).bufByte a) ∧
      1 ≤ (block 0 1 [0x49#8]).len.toNat ∧ (block 0 16 [0x49#8, 0xFF#8]).len.toNat = 16 := by
  unfold IsSextet; decide

theorem witness_FailingCommandsWriteOnlyTheirStatus :
    (∃ t, runHostStep (.write .cmd (.b8 0x06#8)) (block 7 11 []) = .next t ∧ t.status = 0x51#8) ∧
      (∃ t, runHostStep (.write .cmd (.b8 0x04#8)) (block 0 0 [0x80#8]) = .next t ∧ t.status = 0x11#8) ∧
      ∃ t, runHostStep (.write .cmd (.b8 0xFF#8)) (block 0 0 []) = .next t ∧ t.status = 0x61#8 :=
  ⟨⟨_, rfl, by decide⟩, ⟨_, rfl, by decide⟩, ⟨_, rfl, by decide⟩⟩

theorem witness_EachCommandRaisesOnlyItsCodes :
    (∃ t, exec .vl64Dec (block 0 1 [0x50#8]) = .next t ∧ (t.status == 0x31#8) = true) ∧
      (∃ t, exec .vl64Dec (block 0 1 [0x78#8]) = .next t ∧ (t.status == 0x21#8) = true) ∧
      ∃ t, exec .vl64Enclen (block (2 ^ 32) 1 []) = .next t ∧ (t.status == 0x41#8) = true :=
  ⟨witness_of_after (by decide), witness_of_after (by decide), witness_of_after (by decide)⟩

theorem witness_OnlyEncodesWriteBufAndOnlyTheirToken :
    (∃ t, exec .vl64Enc (block 300 0 []) = .next t ∧ (t.status == 0x01#8) = true) ∧
      (∃ t, exec .b64Enc (block 300 2 []) = .next t ∧ (t.status == 0x01#8) = true) ∧
      (∃ t, exec .vl64Enc (block (2 ^ 32) 0 []) = .next t ∧ (t.status != 0x01#8) = true) ∧
      ∃ t, exec .b64Dec (block 0 2 [0x44#8, 0x6C#8]) = .next t ∧ (t.status == 0x01#8) = true :=
  ⟨witness_of_after (by decide), witness_of_after (by decide), witness_of_after (by decide),
    witness_of_after (by decide)⟩

theorem witness_CommandsNeverWriteCmdValueOrLen :
    ∃ t, exec .vl64Enc (block 300 9 []) = .next t ∧ (t.len == 9#5) = true := witness_of_after (by decide)

theorem witness_ResultAndCountChangeOnlyOnSuccess :
    (∃ t, exec .b64Dec (block 0 10 (List.replicate 10 0x7F#8)) = .next t ∧ (t.status == 0x01#8) = true) ∧
      (∃ t, exec .vl64Enclen (block 5 0 []) = .next t ∧ (t.status == 0x01#8) = true) ∧
      ∃ t, exec .sxChk (block 5 0 [0x41#8]) = .next t ∧ (t.status == 0x01#8) = true :=
  ⟨witness_of_after (by decide), witness_of_after (by decide), witness_of_after (by decide)⟩

theorem witness_ErrbyteIsTheFirstOffendingByte :
    (∃ t, runHostStep (.write .cmd (.b8 0x07#8)) (block 0 10 (List.replicate 9 0x40#8)) = .next t ∧ t.status = 0x11#8) ∧
      ∃ t, runHostStep (.write .cmd (.b8 0x07#8)) (block 0 0 []) = .next t ∧ t.status ≠ 0x11#8 :=
  ⟨⟨_, rfl, by decide⟩, ⟨_, rfl, by decide⟩⟩

theorem witness_CommandsSpecifyExactlyWhatTheyWrite :
    (∃ t, exec .vl64Enc State.reset = .next t ∧ decide (0x10 ∈ t.specified) = true) ∧
      ∃ t, exec .sxChk State.reset = .next t ∧ decide (0x06 ∈ t.specified) = true :=
  ⟨witness_of_after (by decide), witness_of_after (by decide)⟩

/-- Two states that differ in STATUS, RESULT, COUNT and ERRBYTE alone. -/
theorem witness_ResultsDependOnlyOnValueLenAndBuf :
    ∃ u : State, u.value = State.reset.value ∧ u.len = State.reset.len ∧
      (∀ a, u.bufByte a = State.reset.bufByte a) ∧ u ≠ State.reset :=
  ⟨{ State.reset with result := 7#64, count := 3#4, errByte := 1#8, status := 0x11#8 }, rfl, rfl, fun _ => rfl, by decide⟩

theorem witness_RepeatedWritesChangeNothingMore :
    (block 300 2 [0x44#8, 0x6C#8]).Inv ∧
      (∃ t, runHostStep (.write .cmd (.b8 0x07#8)) (block 300 2 [0x44#8, 0x6C#8]) = .next t) ∧
      ∃ t, runHostStep (.write .len (.b5 3#5)) (block 300 2 [0x44#8, 0x6C#8]) = .next t :=
  ⟨block_inv _ _ _ (by decide), ⟨_, rfl⟩, ⟨_, rfl⟩⟩

theorem witness_Vl64RoundTrip :
    ((block (-4294967295) 0 []).value.toInt.natAbs < 2 ^ 32 ∧
      vl64EncodedLength (block (-4294967295) 0 []).value.toInt.natAbs ≤ (6#5).toNat ∧ (6#5).toNat ≤ 16) ∧
    vl64EncodedLength (block 0 0 []).value.toInt.natAbs ≤ (16#5).toNat ∧ (16#5).toNat ≤ 16 := by decide

theorem witness_Vl64ReencodingACanonicalTokenGivesIt :
    ∃ t, exec .vl64Dec (block 0 2 [0x55#8, 0x41#8]) = .next t ∧
      (t.status == 0x01#8 && t.count.toNat == vl64EncodedLength t.result.toInt.natAbs && t.result != 0#64) = true :=
  witness_of_after (by decide)

theorem witness_B64RoundTrip :
    (block 300 10 []).len.toNat ≤ 10 ∧ (block 4095 2 []).value.toNat < 2 ^ (6 * (block 4095 2 []).len.toNat) ∧
      (block 0 0 []).value.toNat < 2 ^ (6 * (block 0 0 []).len.toNat) := by decide

theorem witness_B64ReencodingATokenGivesIt :
    ∃ t, exec .b64Dec (block 0 2 [0x40#8, 0x41#8]) = .next t ∧ (t.status == 0x01#8) = true :=
  witness_of_after (by decide)

/-- The tokens of program P2: 1, −5 and 0. -/
theorem witness_StreamLoopRecoversEveryValue :
    List.Forall₂ (fun v tok => ∃ l, vl64Encode v = .ok (l, tok)) [1#64, BitVec.ofInt 64 (-5), 0#64]
      [[0x49#8], [0x55#8, 0x41#8], [0x48#8]] :=
  .cons ⟨1#3, by decide⟩ (.cons ⟨2#3, by decide⟩ (.cons ⟨1#3, by decide⟩ .nil))

theorem witness_PseudoInstructionsExpandAsTabled :
    (-2 ^ 63 ≤ (-2 ^ 63 : Int) ∧ (2 ^ 64 - 1 : Int) < 2 ^ 64) ∧ ((0 : Int) ≤ 0 ∧ (31 : Int) < 32) ∧
      (1 ≤ [72, 255].length ∧ [72, 255].length ≤ 16 ∧ ∀ b ∈ ([72, 255] : List Int), 0 ≤ b ∧ b < 256) ∧
      ([72, 255] : List Int)[(1 : Fin 16).val]? = some 255 := by decide

theorem witness_StepKeepsTheInvariant :
    (block 300 0 []).Inv ∧ ((block 300 0 []).withCommand 0x03#8).Inv ∧
      ∃ t, step ((block 300 0 []).withCommand 0x03#8) = .next t := by
  have h := block_inv 300 0 [] (by decide)
  exact ⟨h, ⟨h.buf, h.status, h.count, h.specified, h.beforeCommand, h.afterCommand, h.errByteHeld⟩, ⟨_, rfl⟩⟩

/-- A host write of a value of the wrong width is the only step refused. -/
theorem witness_NoStepFaults :
    (State.reset.withCommand 0xFF#8).pendingWf = true ∧
      (State.reset.withHost [.write .value (.b8 0#8)]).pendingWf = false := by decide

theorem witness_StrictStepFaultsExactlyOnUnwrittenReads :
    (∀ n ∈ stepReads (State.reset.withHost [.read .status]), holdsValue (State.reset.withHost [.read .status]) n = true) ∧
      stepReads (State.reset.withCommand 0x07#8) = [] ++ 0x02 :: [] ∧
      holdsValue (State.reset.withCommand 0x07#8) 0x02 = false := by decide

/-- VL64.DEC with its whole token in BUF, and with LEN = 0 where BUF needs no value. -/
theorem witness_CommandsRunOnceTheirInputsAreWritten :
    ((block 0 2 [0x55#8, 0x41#8]).withCommand (encode .vl64Dec)).pending = .write .cmd (.b8 (encode .vl64Dec)) :: [] ∧
      (0x02 ∈ (block 0 2 [0x55#8, 0x41#8]).specified ∧ 0x10 ∈ (block 0 2 [0x55#8, 0x41#8]).specified ∧
        ∀ k, k < lengthField ((block 0 2 [0x55#8, 0x41#8]).bufByte 0) → 0x10 + k ∈ (block 0 2 [0x55#8, 0x41#8]).specified) ∧
      (0x02 ∈ (State.reset.putLen 0#5).specified ∧ ¬ 1 ≤ (State.reset.putLen 0#5).len.toNat) := by decide

/-- Two states that differ only in an unspecified VALUE, and a step of both. -/
theorem witness_UnspecifiedRegistersNeverShow :
    ∃ u : State, (State.reset.putLen 3#5).Inv ∧ u.Inv ∧ AgreesOnSpecified (State.reset.putLen 3#5) u ∧
      u ≠ State.reset.putLen 3#5 ∧ ∃ s', strictStep (State.reset.putLen 3#5) = .next s' := by
  have h : (State.reset.putLen 3#5).Inv :=
    ⟨by decide, .inl rfl, by decide, by unfold specifiedLegal storingNum; decide, by decide, by decide, by decide⟩
  refine ⟨{ State.reset.putLen 3#5 with value := 7#64 }, h,
    ⟨h.buf, h.status, h.count, h.specified, h.beforeCommand, h.afterCommand, h.errByteHeld⟩,
    ⟨rfl, rfl, rfl, ?_⟩, by decide, ⟨_, rfl⟩⟩
  intro r hr
  cases r <;> first | rfl | (exact absurd hr (by decide))

/-- The encoder at both ends of its range and just past it, and the B64 units at n = 10, with a bad last lane. -/
theorem witness_EncoderAndB64PortsShowTheirTokens :
    2 ^ 32 ≤ (BitVec.ofInt 64 (-4294967296)).toInt.natAbs ∧ (BitVec.ofInt 64 (-4294967295)).toInt.natAbs < 2 ^ 32 ∧
      (0#4).toNat ≤ 10 ∧ (10#4).toNat ≤ 10 ∧
      (∀ i : Fin 10, i.val < (10#4).toNat → IsSextet ((Vector.replicate 10 0x7F#8).get i)) ∧
      ((9 : Fin 10).val < (10#4).toNat ∧ ¬ IsSextet (((Vector.replicate 10 0x7F#8).set 9 0x80#8).get 9) ∧
        ∀ j : Fin 10, j < 9 → IsSextet (((Vector.replicate 10 0x7F#8).set 9 0x80#8).get j)) := by
  unfold IsSextet; decide

/-- After the token of 1: a byte with L = 1 and a bad marker, and a token cut short. -/
theorem witness_StreamLoopEndsAtTheFirstError :
    Memory.wf State.reset.buf ∧
      List.Forall₂ (fun v tok => ∃ l, vl64Encode v = .ok (l, tok)) [1#64] [[0x49#8]] ∧
      ¬ StartsWithToken [0x88#8] ∧ ¬ StartsWithToken [0x50#8] := by
  refine ⟨by decide, .cons ⟨1#3, by decide⟩ .nil, ?_, ?_⟩ <;>
    · rintro ⟨h, hh, h1, h6, hl, hs⟩
      obtain rfl := Option.some.inj hh
      unfold IsSextet at hs
      revert h1 h6 hl hs
      decide

end Sys2Proof.Tests
end

section
/-! PROOFS. What a command writes as a function of what it reads. `Effect` says what a command does to the registers
apart from the state it does it to. Two states that read alike in the registers a command reads give it the same
effect (`exec_effect`). -/

namespace Sys2Proof.Machine

/-! ### STATUS words -/

theorem statusWord_eq_ok_iff (r : Raise) : statusWord r = 0x01#8 ↔ r = .ok := by
  cases r <;> simp [statusWord, Raise.code]

theorem statusWord_eq_invalidHighBits_iff (r : Raise) : statusWord r = 0x11#8 ↔ ∃ b, r = .invalidHighBits b := by
  cases r <;> simp [statusWord, Raise.code]

theorem statusWord_ok : statusWord .ok = 0x01#8 := (statusWord_eq_ok_iff .ok).mpr rfl

theorem State.raise_status_ne_ok {r : Raise} {s : State} (hr : r ≠ .ok) : (s.raise r).status ≠ 0x01#8 := by
  rw [State.raise_status, ne_eq, statusWord_eq_ok_iff]
  exact hr

/-! ### Effects -/

/-- What a command does to the registers: a status other than OK, or the writes of R103 (`result`), R130 and R132
(`count`), R131 and R170 (`token`), R133 and R171 (`decoded`) with OK. -/
inductive Effect
  | fails (r : Raise)
  | result (v : Word)
  | count (n : BitVec 4)
  | token (bytes : List Byte) (n : BitVec 4)
  | decoded (v : Word) (n : BitVec 4)

def Effect.apply (e : Effect) (s : State) : State :=
  match e with
  | .fails r => s.raise r
  | .result v => (s.putResult v).raise .ok
  | .count n => (s.putCount n).raise .ok
  | .token bytes n => ((s.putBytes 0 bytes).putCount n).raise .ok
  | .decoded v n => ((s.putResult v).putCount n).raise .ok

/-- Which commands can have an effect. A token's bytes are sextet bytes, so none is what an unlisted index reads as. -/
def Effect.IsOf (i : Instr) : Effect → Prop
  | .fails r => r ≠ .ok
  | .result _ => i = .sxChk
  | .count _ => i = .vl64Enclen ∨ i = .vl64Declen
  | .token bytes _ => (i = .vl64Enc ∨ i = .b64Enc) ∧ ∀ b ∈ bytes, b ≠ Config.unlistedByte
  | .decoded _ _ => i = .vl64Dec ∨ i = .b64Dec

/-- A raise overwrites STATUS, so the STATUS before an effect does not matter. -/
theorem State.raise_with_status (r : Raise) (word : Byte) (s : State) :
    { s with status := word }.raise r = s.raise r := by
  cases r <;> rfl

theorem State.markFrom_with_status (a n : Nat) (word : Byte) (s : State) :
    { s with status := word }.markFrom a n = { s.markFrom a n with status := word } := by
  induction n generalizing a s with
  | zero => rfl
  | succ k ih => exact ih (a + 1) (s.markNum a)

theorem Effect.apply_with_status (e : Effect) (word : Byte) (s : State) :
    e.apply { s with status := word } = e.apply s := by
  cases e with
  | fails r => exact State.raise_with_status r word s
  | result v => rfl
  | count n => rfl
  | token bytes n =>
    have hb : { s with status := word }.putBytes 0 bytes = { s.putBytes 0 bytes with status := word } :=
      State.markFrom_with_status _ _ word { s with buf := s.buf.writeList 0 bytes }
    rw [Effect.apply, hb]
    rfl
  | decoded v n => rfl

/-! ### Token bytes -/

theorem headerByte_ne_unlisted (len : BitVec 3) (sign : BitVec 1) (m : BitVec 32) :
    headerByte len sign m ≠ Config.unlistedByte :=
  sextetByte_ne_unlisted (len ++ (sign ++ m.extractLsb' 0 2))

theorem vl64Token_ne_unlisted (v : Word) : ∀ b ∈ vl64Token v, b ≠ Config.unlistedByte := by
  intro b hb
  rcases List.mem_cons.mp hb with rfl | hb
  · exact headerByte_ne_unlisted _ _ _
  · obtain ⟨j, -, rfl⟩ := List.mem_map.mp hb
    exact sextetByte_ne_unlisted _

theorem b64Encode_ne_unlisted (v : Word) (n : Nat) : ∀ b ∈ b64Encode v n, b ≠ Config.unlistedByte := by
  intro b hb
  obtain ⟨i, -, rfl⟩ := List.mem_map.mp hb
  exact sextetByte_ne_unlisted _

/-! ### States that read alike -/

/-- Two states read alike in those of the registers VALUE, LEN and BUF whose numbers are in a list. No command reads
another register (R31). -/
structure ReadsAlike (l : List Nat) (s u : State) : Prop where
  value : 0x01 ∈ l → u.value = s.value
  len : 0x02 ∈ l → u.len = s.len
  buf : ∀ a, 0x10 + a ∈ l → u.bufByte a = s.bufByte a

/-- The bytes from an index on, taken apart at the first one. -/
theorem map_bufByte_succ (s : State) (i k : Nat) :
    (List.range (k + 1)).map (fun j => s.bufByte (i + j)) =
      s.bufByte i :: (List.range k).map fun j => s.bufByte (i + 1 + j) := by
  simp [List.range_succ_eq_map, Nat.add_assoc, Nat.add_comm 1]

theorem mem_bufNums {i n a : Nat} : 0x10 + a ∈ bufNums i n ↔ i ≤ a ∧ a < i + n := by
  simp only [bufNums, List.mem_map, List.mem_range]
  constructor
  · rintro ⟨j, hj, h⟩
    omega
  · intro h
    exact ⟨a - i, by omega, by omega⟩

/-- The B64 decoder's loop sees the bytes up to the first bad one, which are those of `b64ReadNums` (R55). -/
theorem b64Accumulate_alike {i n : Nat} {acc : Word} {s u : State}
    (h : ∀ a, 0x10 + a ∈ b64ReadNums i n s → u.bufByte a = s.bufByte a) :
    b64Accumulate acc ((List.range n).map fun j => u.bufByte (i + j)) =
      b64Accumulate acc ((List.range n).map fun j => s.bufByte (i + j)) := by
  induction n generalizing i acc with
  | zero => rfl
  | succ k ih =>
    rw [b64ReadNums] at h
    rw [map_bufByte_succ, map_bufByte_succ]
    cases hc : sextetCheck (s.bufByte i) with
    | ok p =>
      simp only [hc, List.mem_cons] at h
      have hi : u.bufByte i = s.bufByte i := h i (.inl rfl)
      simp only [b64Accumulate, hi, hc, bind, Except.bind]
      exact ih fun a ha => h a (.inr ha)
    | error r =>
      simp only [hc, List.mem_singleton] at h
      have hi : u.bufByte i = s.bufByte i := h i rfl
      simp only [b64Accumulate, hi, hc, bind, Except.bind]

theorem b64ReadNums_alike {i n : Nat} {s u : State}
    (h : ∀ a, 0x10 + a ∈ b64ReadNums i n s → u.bufByte a = s.bufByte a) :
    b64ReadNums i n u = b64ReadNums i n s := by
  induction n generalizing i with
  | zero => rfl
  | succ k ih =>
    rw [b64ReadNums] at h
    rw [b64ReadNums, b64ReadNums]
    cases hc : sextetCheck (s.bufByte i) with
    | ok p =>
      simp only [hc, List.mem_cons] at h
      rw [h i (.inl rfl), hc]
      simp only [ih fun a ha => h a (.inr ha)]
    | error r =>
      simp only [hc, List.mem_singleton] at h
      rw [h i rfl, hc]

/-- With a byte available, VL64.DEC reads the header. -/
theorem header_mem_vl64ReadNums {avail : Nat} {s : State} (h0 : avail ≠ 0) : 0x10 ∈ vl64ReadNums avail s := by
  rw [vl64ReadNums, if_neg h0]
  cases vl64Header (s.bufByte 0) with
  | error r => simp
  | ok d => dsimp only; split <;> simp

/-- With the whole token available, VL64.DEC reads the continuation bytes too (log 10). -/
theorem vl64ReadNums_whole {avail : Nat} {s : State} {d : Header} (hd : vl64Header (s.bufByte 0) = .ok d)
    (ha : d.len.toNat ≤ avail) : vl64ReadNums avail s = 0x10 :: bufNums 1 (d.len.toNat - 1) := by
  have hb := vl64Header_ok hd
  rw [vl64ReadNums, if_neg (by omega), hd]
  exact if_neg (by omega)

theorem vl64ReadNums_alike {avail : Nat} {s u : State}
    (h : ∀ a, 0x10 + a ∈ vl64ReadNums avail s → u.bufByte a = s.bufByte a) :
    vl64ReadNums avail u = vl64ReadNums avail s := by
  by_cases h0 : avail = 0
  · simp [vl64ReadNums, h0]
  · have hh : u.bufByte 0 = s.bufByte 0 := h 0 (header_mem_vl64ReadNums h0)
    rw [vl64ReadNums, vl64ReadNums, hh]

theorem tokenTail_alike {s u : State} {len : Nat} (h : ∀ a, 1 ≤ a → a < len → u.bufByte a = s.bufByte a) :
    tokenTail u len = tokenTail s len := by
  refine List.map_congr_left fun j hj => h (1 + j) (by omega) ?_
  have := List.mem_range.mp hj
  omega

/-! ### What a command reads, by command -/

theorem commandReads_vl64Dec_of_le {s : State} (h : s.len.toNat ≤ 16) :
    commandReads .vl64Dec s = 0x02 :: vl64ReadNums s.len.toNat s := by
  show 0x02 :: (if 16 < s.len.toNat then [] else vl64ReadNums s.len.toNat s) = _
  rw [if_neg (Nat.not_lt.mpr h)]

theorem commandReads_b64Enc_of_le {s : State} (h : s.len.toNat ≤ 10) : commandReads .b64Enc s = [0x02, 0x01] := by
  show 0x02 :: (if 10 < s.len.toNat then [] else [0x01]) = _
  rw [if_neg (Nat.not_lt.mpr h)]

theorem commandReads_b64Dec_of_le {s : State} (h : s.len.toNat ≤ 10) :
    commandReads .b64Dec s = 0x02 :: b64ReadNums 0 s.len.toNat s := by
  show 0x02 :: (if 10 < s.len.toNat then [] else b64ReadNums 0 s.len.toNat s) = _
  rw [if_neg (Nat.not_lt.mpr h)]

/-- What a command reads depends only on what it reads. -/
theorem commandReads_alike {i : Instr} {s u : State} (h : ReadsAlike (commandReads i s) s u) :
    commandReads i u = commandReads i s := by
  cases i with
  | sxChk => rfl
  | vl64Enclen => rfl
  | vl64Enc => rfl
  | vl64Declen => rfl
  | vl64Dec =>
    have hl : u.lenCount = s.lenCount := congrArg BitVec.toNat (h.len (by simp [commandReads]))
    simp only [commandReads, hl] at h ⊢
    split at h
    · next hgt => rw [if_pos hgt, if_pos hgt]
    · rw [vl64ReadNums_alike fun a ha => h.buf a (.tail _ ha)]
  | b64Enc =>
    have hl : u.lenCount = s.lenCount := congrArg BitVec.toNat (h.len (by simp [commandReads]))
    simp only [commandReads, hl]
  | b64Dec =>
    have hl : u.lenCount = s.lenCount := congrArg BitVec.toNat (h.len (by simp [commandReads]))
    simp only [commandReads, hl] at h ⊢
    split at h
    · next hgt => rw [if_pos hgt, if_pos hgt]
    · rw [b64ReadNums_alike fun a ha => h.buf a (.tail _ ha)]

/-! ### One effect on states that read alike -/

/-- A command has one effect on two states. -/
def SameEffect (i : Instr) (s u : State) : Prop :=
  ∃ e : Effect, e.IsOf i ∧ exec i s = .next (e.apply s) ∧ exec i u = .next (e.apply u)

/-- A command that fails alike on two states has one effect on them. -/
theorem SameEffect.of_raise {i : Instr} {s u : State} {r : Raise} (hr : r ≠ .ok) (hs : exec i s = .next (s.raise r))
    (hu : exec i u = .next (u.raise r)) : SameEffect i s u :=
  ⟨.fails r, hr, hs, hu⟩

theorem sextetCheck_error_ne_ok {b : Byte} {r : Raise} (h : sextetCheck b = .error r) : r ≠ .ok := by
  obtain ⟨-, rfl⟩ := sextetCheck_error h
  exact Raise.noConfusion

theorem vl64Header_error_ne_ok {b : Byte} {r : Raise} (h : vl64Header b = .error r) : r ≠ .ok := by
  rcases vl64Header_error h with rfl | rfl <;> exact Raise.noConfusion

theorem sameEffect_sxChk {s u : State} (hb : u.bufByte 0 = s.bufByte 0) : SameEffect .sxChk s u := by
  have hs := execSxChk_eq s
  have hu := execSxChk_eq u
  rw [hb] at hu
  cases hc : sextetCheck (s.bufByte 0) with
  | ok p =>
    rw [hc] at hs hu
    exact ⟨.result (zext 64 p), rfl, hs, hu⟩
  | error r =>
    rw [hc] at hs hu
    exact .of_raise (sextetCheck_error_ne_ok hc) hs hu

theorem sameEffect_vl64Enclen {s u : State} (hv : u.value = s.value) : SameEffect .vl64Enclen s u := by
  have hs := execVl64Enclen_eq s
  have hu := execVl64Enclen_eq u
  rw [hv] at hu
  by_cases hm : magnitude s.value < 2 ^ 32
  · rw [vl64Range_ok hm] at hs hu
    exact ⟨.count _, .inl rfl, hs, hu⟩
  · rw [vl64Range_error (Nat.not_lt.mp hm)] at hs hu
    exact .of_raise Raise.noConfusion hs hu

theorem sameEffect_vl64Enc {s u : State} (hv : u.value = s.value) : SameEffect .vl64Enc s u := by
  by_cases hm : magnitude s.value < 2 ^ 32
  · have hu := execVl64Enc_ok u (hv ▸ hm)
    rw [hv] at hu
    exact ⟨.token _ _, ⟨.inl rfl, vl64Token_ne_unlisted s.value⟩, execVl64Enc_ok s hm, hu⟩
  · have hm := Nat.not_lt.mp hm
    exact .of_raise Raise.noConfusion (execVl64Enc_error s hm) (execVl64Enc_error u (hv ▸ hm))

theorem sameEffect_vl64Declen {s u : State} (hb : u.bufByte 0 = s.bufByte 0) : SameEffect .vl64Declen s u := by
  have hs := execVl64Declen_eq s
  have hu := execVl64Declen_eq u
  rw [hb] at hu
  cases hc : vl64Header (s.bufByte 0) with
  | ok d =>
    rw [hc] at hs hu
    exact ⟨.count (zext 4 d.len), .inr rfl, hs, hu⟩
  | error r =>
    rw [hc] at hs hu
    exact .of_raise (vl64Header_error_ne_ok hc) hs hu

theorem sameEffect_vl64Dec {s u : State} (h : ReadsAlike (commandReads .vl64Dec s) s u) :
    SameEffect .vl64Dec s u := by
  have hl : u.len = s.len := h.len (by simp [commandReads])
  by_cases h16 : s.len.toNat ≤ 16
  · rw [commandReads_vl64Dec_of_le h16] at h
    by_cases h0 : s.len.toNat = 0
    · exact .of_raise Raise.noConfusion (execVl64Dec_noByte s h0) (execVl64Dec_noByte u (hl ▸ h0))
    · have hb : u.bufByte 0 = s.bufByte 0 := h.buf 0 (.tail _ (header_mem_vl64ReadNums h0))
      cases hd : vl64Header (s.bufByte 0) with
      | error r =>
        exact .of_raise (vl64Header_error_ne_ok hd) (execVl64Dec_badHeader s h0 h16 hd)
          (execVl64Dec_badHeader u (hl ▸ h0) (hl ▸ h16) (hb ▸ hd))
      | ok d =>
        by_cases ha : d.len.toNat ≤ s.len.toNat
        · rw [vl64ReadNums_whole hd ha] at h
          have ht : tokenTail u d.len.toNat = tokenTail s d.len.toNat :=
            tokenTail_alike fun a h1 hlt => h.buf a (.tail _ (.tail _ (mem_bufNums.mpr ⟨h1, by omega⟩)))
          cases hm : vl64Accumulate (tokenTail s d.len.toNat) d.low with
          | error r =>
            obtain ⟨_, _, hr, _⟩ := accumulateFrom_error hm
            exact .of_raise (hr ▸ Raise.noConfusion) (execVl64Dec_badByte s h16 hd ha hm)
              (execVl64Dec_badByte u (hl ▸ h16) (hb ▸ hd) (hl ▸ ha) (ht ▸ hm))
          | ok m =>
            exact ⟨.decoded (vl64Value d.sign m) (zext 4 d.len), .inl rfl, execVl64Dec_ok s h16 hd ha hm,
              execVl64Dec_ok u (hl ▸ h16) (hb ▸ hd) (hl ▸ ha) (ht ▸ hm)⟩
        · have ha := Nat.not_le.mp ha
          exact .of_raise Raise.noConfusion (execVl64Dec_truncated s h0 h16 hd ha)
            (execVl64Dec_truncated u (hl ▸ h0) (hl ▸ h16) (hb ▸ hd) (hl ▸ ha))
  · have h16 := Nat.not_le.mp h16
    exact .of_raise Raise.noConfusion (execVl64Dec_badWidth s h16) (execVl64Dec_badWidth u (hl ▸ h16))

theorem sameEffect_b64Enc {s u : State} (h : ReadsAlike (commandReads .b64Enc s) s u) : SameEffect .b64Enc s u := by
  have hl : u.len = s.len := h.len (by simp [commandReads])
  by_cases h10 : s.len.toNat ≤ 10
  · rw [commandReads_b64Enc_of_le h10] at h
    have hv : u.value = s.value := h.value (by simp)
    have hu := execB64Enc_ok u (hl ▸ h10)
    rw [hv, hl] at hu
    exact ⟨.token _ _, ⟨.inr rfl, b64Encode_ne_unlisted s.value _⟩, execB64Enc_ok s h10, hu⟩
  · have h10 := Nat.not_le.mp h10
    exact .of_raise Raise.noConfusion (execB64Enc_badWidth s h10) (execB64Enc_badWidth u (hl ▸ h10))

theorem sameEffect_b64Dec {s u : State} (h : ReadsAlike (commandReads .b64Dec s) s u) : SameEffect .b64Dec s u := by
  have hl : u.len = s.len := h.len (by simp [commandReads])
  by_cases h10 : s.len.toNat ≤ 10
  · rw [commandReads_b64Dec_of_le h10] at h
    have hbytes : b64Decode ((List.range s.len.toNat).map fun j => u.bufByte j) =
        b64Decode ((List.range s.len.toNat).map fun j => s.bufByte j) := by
      simpa [b64Decode] using b64Accumulate_alike (acc := 0#64) fun a ha => h.buf a (.tail _ ha)
    have hs := execB64Dec_eq s h10
    have hu := execB64Dec_eq u (hl ▸ h10)
    rw [hl, hbytes] at hu
    cases hd : b64Decode ((List.range s.len.toNat).map fun j => s.bufByte j) with
    | ok v =>
      rw [hd] at hs hu
      exact ⟨.decoded v _, .inr rfl, hs, hu⟩
    | error r =>
      rw [hd] at hs hu
      obtain ⟨_, _, hr, _⟩ := b64Accumulate_error hd
      exact .of_raise (hr ▸ Raise.noConfusion) hs hu
  · have h10 := Nat.not_le.mp h10
    exact .of_raise Raise.noConfusion (execB64Dec_badWidth s h10) (execB64Dec_badWidth u (hl ▸ h10))

/-- A command has one effect on two states that read alike in the registers it reads (R31, R55). -/
theorem exec_effect {i : Instr} {s u : State} (h : ReadsAlike (commandReads i s) s u) : SameEffect i s u := by
  cases i with
  | sxChk => exact sameEffect_sxChk (h.buf 0 (by simp [commandReads]))
  | vl64Enclen => exact sameEffect_vl64Enclen (h.value (by simp [commandReads]))
  | vl64Enc => exact sameEffect_vl64Enc (h.value (by simp [commandReads]))
  | vl64Declen => exact sameEffect_vl64Declen (h.buf 0 (by simp [commandReads]))
  | vl64Dec => exact sameEffect_vl64Dec h
  | b64Enc => exact sameEffect_b64Enc h
  | b64Dec => exact sameEffect_b64Dec h

/-! ### Results depend only on VALUE, LEN and BUF (R31) -/

/-- Bytes that no unlisted index reads as, written at one place, leave BUFs alike that were alike, canonical or not. -/
theorem State.putBytes_bufByte_alike {s u : State} {bytes : List Byte} (hb : ∀ b ∈ bytes, b ≠ Config.unlistedByte)
    (h : ∀ a, u.bufByte a = s.bufByte a) (a : Nat) :
    (u.putBytes 0 bytes).bufByte a = (s.putBytes 0 bytes).bufByte a := by
  by_cases ha : a < bytes.length
  · have hs := State.putBytes_bufByte_same_of_ne s 0 bytes hb a ha
    have hu := State.putBytes_bufByte_same_of_ne u 0 bytes hb a ha
    rw [Nat.zero_add] at hs hu
    rw [hs, hu]
  · rw [State.putBytes_bufByte_other u 0 bytes a (by omega), State.putBytes_bufByte_other s 0 bytes a (by omega), h a]

theorem Effect.apply_status (e : Effect) (s u : State) : (e.apply u).status = (e.apply s).status := by
  cases e <;> simp [Effect.apply]

theorem Effect.apply_bufByte_alike {e : Effect} {i : Instr} {s u : State} (he : e.IsOf i)
    (h : ∀ a, u.bufByte a = s.bufByte a) (a : Nat) : (e.apply u).bufByte a = (e.apply s).bufByte a := by
  cases e with
  | token bytes n => simpa [Effect.apply] using State.putBytes_bufByte_alike he.2 h a
  | fails r => simpa [Effect.apply] using h a
  | result v => simpa [Effect.apply] using h a
  | count n => simpa [Effect.apply] using h a
  | decoded v n => simpa [Effect.apply] using h a

/-- A command that writes RESULT writes the same into it, whatever the state. -/
theorem Effect.apply_result_alike {e : Effect} {i : Instr} {s u : State} (he : e.IsOf i)
    (hok : (e.apply s).status = 0x01#8) (hi : i = .sxChk ∨ i = .vl64Dec ∨ i = .b64Dec) :
    (e.apply u).result = (e.apply s).result := by
  cases e with
  | fails r => exact absurd hok (State.raise_status_ne_ok he)
  | result v => simp [Effect.apply]
  | decoded v n => simp [Effect.apply]
  | count n => rcases hi with rfl | rfl | rfl <;> simp [Effect.IsOf] at he
  | token bytes n => rcases hi with rfl | rfl | rfl <;> simp [Effect.IsOf] at he

/-- A command that writes COUNT writes the same into it, whatever the state. -/
theorem Effect.apply_count_alike {e : Effect} {i : Instr} {s u : State} (he : e.IsOf i)
    (hok : (e.apply s).status = 0x01#8) (hi : i ≠ .sxChk) : (e.apply u).count = (e.apply s).count := by
  cases e with
  | fails r => exact absurd hok (State.raise_status_ne_ok he)
  | result v => exact absurd he hi
  | decoded v n => simp [Effect.apply]
  | count n => simp [Effect.apply]
  | token bytes n => simp [Effect.apply]

/-- INVALID_HIGH_BITS puts the same byte into ERRBYTE, whatever the state. -/
theorem Effect.apply_errByte_alike {e : Effect} {s u : State} (hbad : (e.apply s).status = 0x11#8) :
    (e.apply u).errByte = (e.apply s).errByte := by
  cases e with
  | fails r =>
    rw [Effect.apply, State.raise_status, statusWord_eq_invalidHighBits_iff] at hbad
    obtain ⟨b, rfl⟩ := hbad
    rfl
  | result v => cases hbad
  | count n => cases hbad
  | token bytes n => rw [Effect.apply, State.raise_status] at hbad; cases hbad
  | decoded v n => cases hbad

/-- Settles O41: states alike in VALUE, LEN and BUF give a command one effect, and an effect writes the same values
wherever it is applied. -/
theorem resultsDependOnlyOnValueLenAndBuf : Obligations.ResultsDependOnlyOnValueLenAndBuf := by
  intro i s u hv hl hb
  obtain ⟨e, he, hs, hu⟩ := exec_effect (i := i) (s := s) (u := u) ⟨fun _ => hv, fun _ => hl, fun a _ => hb a⟩
  exact ⟨e.apply s, e.apply u, hs, hu, e.apply_status s u, Effect.apply_result_alike he, Effect.apply_count_alike he,
    Effect.apply_errByte_alike, Effect.apply_bufByte_alike he hb⟩

end Sys2Proof.Machine
end

section
/-! PROOFS. Registers, their numbers and their values: the map of R21 is one to one, and a value is told by its
width. -/

namespace Sys2Proof

/-! ### Register numbers (R21) -/

theorem Reg.num_lt (r : Reg) : r.num < 32 := by
  cases r <;> simp only [Reg.num] <;> omega

@[simp] theorem Reg.ofNum_num (r : Reg) : Reg.ofNum (BitVec.ofNat 5 r.num) = r := by
  cases r with
  | reserved k => revert k; decide
  | buf i => revert i; decide
  | cmd | value | len | status | result | count | errByte => rfl

theorem Reg.num_ofNum : ∀ n : BitVec 5, (Reg.ofNum n).num = n.toNat := by decide

theorem Reg.num_injective : Function.Injective Reg.num := fun r r' h => by
  rw [← r.ofNum_num, h, r'.ofNum_num]

/-- Settles O3: the map from registers to numbers and the one back are inverse to each other. -/
theorem registerNumbersAndRegistersAgree : Obligations.RegisterNumbersAndRegistersAgree :=
  ⟨fun r => ⟨r.num_lt, r.ofNum_num⟩, Reg.num_ofNum⟩

/-! ### Values by width -/

theorem RegVal.eq_b8_of_width {v : RegVal} (h : v.width = 8) : ∃ b, v = .b8 b := by
  cases v with
  | b8 b => exact ⟨b, rfl⟩
  | b64 | b5 | b4 => cases h

theorem RegVal.eq_b64_of_width {v : RegVal} (h : v.width = 64) : ∃ w, v = .b64 w := by
  cases v with
  | b64 w => exact ⟨w, rfl⟩
  | b8 | b5 | b4 => cases h

theorem RegVal.eq_b5_of_width {v : RegVal} (h : v.width = 5) : ∃ n, v = .b5 n := by
  cases v with
  | b5 n => exact ⟨n, rfl⟩
  | b8 | b64 | b4 => cases h

theorem RegVal.eq_b4_of_width {v : RegVal} (h : v.width = 4) : ∃ n, v = .b4 n := by
  cases v with
  | b4 n => exact ⟨n, rfl⟩
  | b8 | b64 | b5 => cases h

theorem Reg.accepts_of_width {r : Reg} {v : RegVal} (h : r.width = some v.width) : r.accepts v = true := by
  simp [Reg.accepts, h]

@[simp] theorem Reg.accepts_reserved (k : Fin 9) (v : RegVal) : (Reg.reserved k).accepts v = true := rfl

/-- A value of a register's width is that register's value of its number (R34). -/
theorem Reg.valOfNat_toNat {r : Reg} {v : RegVal} (h : r.width = some v.width) : r.valOfNat v.toNat = some v := by
  cases r with
  | cmd | status | errByte | buf i =>
    obtain ⟨b, rfl⟩ := RegVal.eq_b8_of_width (Option.some.inj h).symm
    simp [Reg.valOfNat, RegVal.toNat, b.isLt]
  | value | result =>
    obtain ⟨w, rfl⟩ := RegVal.eq_b64_of_width (Option.some.inj h).symm
    simp [Reg.valOfNat, RegVal.toNat, w.isLt]
  | len =>
    obtain ⟨n, rfl⟩ := RegVal.eq_b5_of_width (Option.some.inj h).symm
    simp [Reg.valOfNat, RegVal.toNat, n.isLt]
  | count =>
    obtain ⟨n, rfl⟩ := RegVal.eq_b4_of_width (Option.some.inj h).symm
    simp [Reg.valOfNat, RegVal.toNat, n.isLt]
  | reserved k => cases h

/-- Settles O4: the register's number gives the register back, and the value's number gives the value back. -/
theorem hostWritePairDecodesToItsWrite : Obligations.HostWritePairDecodesToItsWrite := by
  refine fun r v h => ⟨_, rfl, ?_⟩
  simp only [decodeWrite, if_pos r.num_lt, r.ofNum_num, Reg.valOfNat_toNat h, Option.map_some]

end Sys2Proof
end

section
/-! SUPPORT. What a host step can do, said once: the host's writes by register and width, and the forms of a host
step's next state. -/

namespace Sys2Proof.Machine

/-! ### Host writes by register and width -/

/-- A write whose value has the register's width has its effect (R34). -/
theorem runHostStep_write_of_accepts {r : Reg} {v : RegVal} (h : r.accepts v = true) (s : State) :
    runHostStep (.write r v) s = regWrite r v s :=
  if_pos h

theorem regWrite_of_readOnly {r : Reg} (h : r.readOnly = true) (v : RegVal) (s : State) : regWrite r v s = .next s := by
  cases r with
  | status | result | count | errByte => rfl
  | cmd | value | len | reserved k | buf i => cases h

@[simp] theorem regWrite_reserved (k : Fin 9) (v : RegVal) (s : State) : regWrite (.reserved k) v s = .next s := rfl

/-! ### The inversion lemma of a host step -/

/-- The ways a host step gives a next state: a command word, a reset, a read, a write of VALUE, LEN or a BUF byte, or a
write that every state ignores (R32, R34, R36). -/
inductive HostStepEnds (s : State) : HostStep → State → Prop
  | command (c : Byte) (t : State) (ht : runCommand c s = .next t) : HostStepEnds s (.write .cmd (.b8 c)) t
  | reset : HostStepEnds s .reset (hostReset s)
  | read (r : Reg) : HostStepEnds s (.read r) (hostRead r s)
  | value (w : Word) : HostStepEnds s (.write .value (.b64 w)) (s.putValue w)
  | len (n : BitVec 5) : HostStepEnds s (.write .len (.b5 n)) (s.putLen n)
  | buf (i : Fin 16) (b : Byte) : HostStepEnds s (.write (.buf i) (.b8 b)) (s.putBytes i [b])
  | ignored (r : Reg) (v : RegVal) (hr : r ≠ .cmd) (hw : ∀ u, runHostStep (.write r v) u = .next u) :
      HostStepEnds s (.write r v) s

theorem hostStepEnds_of_regWrite {r : Reg} {v : RegVal} {s t : State} (ha : r.accepts v = true)
    (ht : regWrite r v s = .next t) : HostStepEnds s (.write r v) t := by
  cases r with
  | cmd =>
    obtain ⟨c, rfl⟩ := RegVal.eq_b8_of_width (by simpa [Reg.accepts, Reg.width] using ha)
    exact .command c t ht
  | value =>
    obtain ⟨w, rfl⟩ := RegVal.eq_b64_of_width (by simpa [Reg.accepts, Reg.width] using ha)
    cases ht
    exact .value w
  | len =>
    obtain ⟨n, rfl⟩ := RegVal.eq_b5_of_width (by simpa [Reg.accepts, Reg.width] using ha)
    cases ht
    exact .len n
  | buf i =>
    obtain ⟨b, rfl⟩ := RegVal.eq_b8_of_width (by simpa [Reg.accepts, Reg.width] using ha)
    cases ht
    exact .buf i b
  | status | result | count | errByte | reserved k =>
    cases ht
    exact .ignored _ v Reg.noConfusion (runHostStep_write_of_accepts ha)

theorem hostStepEnds_of_next {h : HostStep} {s t : State} (ht : runHostStep h s = .next t) : HostStepEnds s h t := by
  cases h with
  | read r => cases ht; exact .read r
  | reset => cases ht; exact .reset
  | write r v =>
    by_cases ha : r.accepts v = true
    · exact hostStepEnds_of_regWrite ha ((runHostStep_write_of_accepts ha s).symm.trans ht)
    · rw [runHostStep, hostWrite, if_neg ha] at ht
      cases ht

theorem step_of_pending_nil {s : State} (h : s.pending = []) : step s = .next s := by
  rw [step, stepPending, h]

theorem step_of_pending_cons {s : State} {h : HostStep} {rest : List HostStep} (hp : s.pending = h :: rest) :
    step s = runHostStep h { s with pending := rest } := by
  rw [step, stepPending, hp]

/-- A step changes nothing with no host step pending, and is the next host step otherwise (R20; log 5). -/
theorem step_cases {s t : State} (ht : step s = .next t) :
    (s.pending = [] ∧ t = s) ∨
      ∃ h rest, s.pending = h :: rest ∧ runHostStep h { s with pending := rest } = .next t := by
  cases hp : s.pending with
  | nil =>
    rw [step_of_pending_nil hp] at ht
    cases ht
    exact .inl ⟨rfl, rfl⟩
  | cons h rest => exact .inr ⟨h, rest, rfl, step_of_pending_cons hp ▸ ht⟩

end Sys2Proof.Machine
end

section
/-! PROOFS. Every step keeps the invariant: `CommandInv` is what a command keeps from its first write to its last, and
the raise at its end restores the invariant from it. -/

namespace Sys2Proof.Machine

/-! ### The invariant -/

theorem statusLegal_statusWord (r : Raise) : statusLegal (statusWord r) := by
  refine .inr ⟨statusDone_statusWord r, statusReserved_statusWord r, ?_⟩
  rw [statusCode_statusWord]
  cases r <;> simp [Raise.code]

theorem Raise.code_eq_one_iff (r : Raise) : r.code = 1#4 ↔ ∃ b, r = .invalidHighBits b := by
  cases r <;> simp [Raise.code]

theorem specifiedLegal_insertNum {l : List Nat} {n : Nat} (h : specifiedLegal l) (hn : storingNum n) :
    specifiedLegal (insertNum n l) := by
  obtain ⟨hrise, hstore, hstatus⟩ := h
  refine ⟨insertNum_pairwise n l hrise, fun m hm => ?_, (mem_insertNum n 3 l).mpr (.inr hstatus)⟩
  rcases (mem_insertNum n m l).mp hm with rfl | hm
  · exact hn
  · exact hstore m hm

theorem specifiedLegal_putBytes {s : State} {a : Nat} {bytes : List Byte} (h : specifiedLegal s.specified)
    (ha : a + bytes.length ≤ Config.bufBytes) : specifiedLegal (s.putBytes a bytes).specified := by
  obtain ⟨hrise, hstore, hstatus⟩ := h
  refine ⟨s.putBytes_specified_pairwise a bytes hrise, fun m hm => ?_,
    (State.mem_putBytes_specified a 3 bytes s).mpr (.inr hstatus)⟩
  rcases (State.mem_putBytes_specified a m bytes s).mp hm with hm | hm
  · exact .inr (by simp only [Config.bufBytes] at ha; omega)
  · exact hstore m hm

theorem specifiedLegal_raise {s : State} {r : Raise} (h : specifiedLegal s.specified) :
    specifiedLegal (s.raise r).specified := by
  have h3 : storingNum 0x03 := .inl (by omega)
  cases r with
  | invalidHighBits b => exact specifiedLegal_insertNum (specifiedLegal_insertNum h (.inl (by omega))) h3
  | ok | invalidLength | insufficientLength | outOfRange | badWidth | illegalCmd =>
    exact specifiedLegal_insertNum h h3

/-- The part of the invariant that holds while a command runs, after CMD is stored and before STATUS is written. -/
structure State.CommandInv (s : State) : Prop where
  buf : Memory.wf s.buf
  count : 0x05 ∈ s.specified → s.count.toNat ≤ Config.nbMax
  specified : specifiedLegal s.specified
  cmdHeld : 0x00 ∈ s.specified

theorem State.Inv.putCmd_commandInv {s : State} (h : s.Inv) (c : Byte) : (s.putCmd c).CommandInv where
  buf := h.buf
  count hc := h.count (by simpa using hc)
  specified := specifiedLegal_insertNum h.specified (.inl (by omega))
  cmdHeld := by simp

theorem State.CommandInv.putResult {s : State} (h : s.CommandInv) (v : Word) : (s.putResult v).CommandInv where
  buf := h.buf
  count hc := h.count (by simpa using hc)
  specified := specifiedLegal_insertNum h.specified (.inl (by omega))
  cmdHeld := by simp [h.cmdHeld]

theorem State.CommandInv.putCount {s : State} (h : s.CommandInv) {n : BitVec 4} (hn : n.toNat ≤ 10) :
    (s.putCount n).CommandInv where
  buf := h.buf
  count _ := hn
  specified := specifiedLegal_insertNum h.specified (.inl (by omega))
  cmdHeld := by simp [h.cmdHeld]

theorem State.CommandInv.putBytes {s : State} (h : s.CommandInv) {bytes : List Byte}
    (hb : bytes.length ≤ Config.bufBytes) : (s.putBytes 0 bytes).CommandInv where
  buf := by simpa using Memory.writeList_wf s.buf 0 bytes h.buf (by omega)
  count hc := by
    simpa using h.count (((State.mem_putBytes_specified 0 5 bytes s).mp hc).resolve_left (by omega))
  specified := specifiedLegal_putBytes h.specified (by omega)
  cmdHeld := (State.mem_putBytes_specified 0 0 bytes s).mpr (.inr h.cmdHeld)

/-- The end of a command restores the whole invariant (R202). -/
theorem State.CommandInv.raise {s : State} (h : s.CommandInv) (r : Raise) : (s.raise r).Inv where
  buf := by simpa using h.buf
  status := by simpa using statusLegal_statusWord r
  count hc := by simpa using h.count (by simpa using (s.mem_raise_specified r 5).mp hc)
  specified := specifiedLegal_raise h.specified
  beforeCommand hd := by
    rw [State.raise_status, statusDone_statusWord] at hd
    cases hd
  afterCommand _ := (s.mem_raise_specified r 0).mpr (.inr (.inr h.cmdHeld))
  errByteHeld hc := by
    rw [State.raise_status, statusCode_statusWord, Raise.code_eq_one_iff] at hc
    exact (s.mem_raise_specified r 6).mpr (.inr (.inl ⟨rfl, hc⟩))

/-! ### The values commands put into COUNT -/

theorem encodedLength_count_toNat {m : Nat} (h : m < 2 ^ 32) :
    (BitVec.ofNat 4 (vl64EncodedLength m)).toNat = vl64EncodedLength m := by
  have := vl64EncodedLength_bounds m h
  rw [BitVec.toNat_ofNat]
  exact Nat.mod_eq_of_lt (by omega)

theorem zext_len_toNat (len : BitVec 3) : (zext 4 len).toNat = len.toNat := by
  have := len.isLt
  rw [zext, BitVec.toNat_setWidth]
  exact Nat.mod_eq_of_lt (by omega)

theorem tokenLength_count_toNat {m : Nat} (h : m < 2 ^ 32) :
    (zext 4 (BitVec.ofNat 3 (vl64EncodedLength m))).toNat = vl64EncodedLength m := by
  rw [zext_len_toNat, vl64EncodedLength_toNat m h]

theorem lenCount_count_toNat {n : BitVec 5} (h : n.toNat ≤ 10) : (BitVec.ofNat 4 n.toNat).toNat = n.toNat := by
  rw [BitVec.toNat_ofNat]
  exact Nat.mod_eq_of_lt (by omega)

/-! ### Every step keeps the invariant -/

theorem CommandEnds.inv {i : Instr} {s t : State} (hs : s.CommandInv) (h : CommandEnds i s t) : t.Inv := by
  cases h with
  | bad r hr hk => exact hs.raise r
  | sxChk hi p hp => exact (hs.putResult _).raise .ok
  | enclen hi hm =>
    have hlen := vl64EncodedLength_bounds _ hm
    exact (hs.putCount (by rw [encodedLength_count_toNat hm]; omega)).raise .ok
  | enc hi hm =>
    have hlen := vl64EncodedLength_bounds _ hm
    have hbytes := hs.putBytes (bytes := vl64Token s.value)
      (by rw [vl64Token_length _ hm]; simp only [Config.bufBytes]; omega)
    exact (hbytes.putCount (by rw [tokenLength_count_toNat hm]; omega)).raise .ok
  | declen hi d hd =>
    obtain ⟨-, -, hlen, -⟩ := vl64Header_ok hd
    exact (hs.putCount (by rw [zext_len_toNat]; omega)).raise .ok
  | dec hi hl d hd ha m hm =>
    obtain ⟨-, -, hlen, -⟩ := vl64Header_ok hd
    exact ((hs.putResult _).putCount (by rw [zext_len_toNat]; omega)).raise .ok
  | b64Enc hi hl =>
    have hbytes := hs.putBytes (bytes := b64Encode s.value s.len.toNat)
      (by rw [b64Encode_length]; simp only [Config.bufBytes]; omega)
    exact (hbytes.putCount (by rwa [lenCount_count_toNat hl])).raise .ok
  | b64Dec hi hl v hv => exact ((hs.putResult v).putCount (by rwa [lenCount_count_toNat hl])).raise .ok

theorem runCommand_inv {c : Byte} {s t : State} (hs : s.Inv) (ht : runCommand c s = .next t) : t.Inv := by
  obtain ⟨t', ht', hcases⟩ := runCommand_cases c s
  cases ht'.symm.trans ht
  rcases hcases with ⟨-, -, rfl⟩ | ⟨i, -, -, hends⟩
  · exact (hs.putCmd_commandInv c).raise .illegalCmd
  · exact hends.inv (hs.putCmd_commandInv c)

/-- The invariant says nothing of the values in VALUE and LEN and of the host's side. -/
theorem State.Inv.withInputs {s : State} (h : s.Inv) (value : Word) (len : BitVec 5) (port : Option RegVal)
    (pending : List HostStep) :
    { s with value := value, len := len, readPort := port, pending := pending }.Inv :=
  ⟨h.buf, h.status, h.count, h.specified, h.beforeCommand, h.afterCommand, h.errByteHeld⟩

theorem State.mem_markNum_specified_of_ne {n m : Nat} (hm : m ≠ n) (s : State) :
    m ∈ (s.markNum n).specified ↔ m ∈ s.specified :=
  (mem_insertNum n m s.specified).trans (or_iff_right hm)

/-- That VALUE or LEN comes to hold a value keeps the invariant. -/
theorem State.Inv.markNum {s : State} (h : s.Inv) {n : Nat} (hn : n = 1 ∨ n = 2) : (s.markNum n).Inv where
  buf := h.buf
  status := h.status
  count hc := h.count ((State.mem_markNum_specified_of_ne (by omega) s).mp hc)
  specified := specifiedLegal_insertNum h.specified (.inl (by omega))
  beforeCommand hd := by
    rw [State.mem_markNum_specified_of_ne (by omega), State.mem_markNum_specified_of_ne (by omega),
      State.mem_markNum_specified_of_ne (by omega)]
    exact h.beforeCommand hd
  afterCommand hd := (State.mem_markNum_specified_of_ne (by omega) s).mpr (h.afterCommand hd)
  errByteHeld hc := (State.mem_markNum_specified_of_ne (by omega) s).mpr (h.errByteHeld hc)

theorem State.reset_inv : State.reset.Inv :=
  ⟨by decide, .inl rfl, by decide, by unfold specifiedLegal storingNum; decide, by decide, by decide, by decide⟩

/-- Bytes written to BUF mark no register below BUF's numbers. -/
theorem State.mem_putBytes_specified_of_lt {x : Nat} (hx : x < 0x10) (a : Nat) (bytes : List Byte) (s : State) :
    x ∈ (s.putBytes a bytes).specified ↔ x ∈ s.specified := by
  rw [State.mem_putBytes_specified]
  exact or_iff_right (by omega)

theorem State.Inv.putBytes {s : State} (h : s.Inv) {a : Nat} {bytes : List Byte}
    (ha : a + bytes.length ≤ Config.bufBytes) : (s.putBytes a bytes).Inv where
  buf := by simpa using Memory.writeList_wf s.buf a bytes h.buf ha
  status := by simpa using h.status
  count := by simpa [State.mem_putBytes_specified_of_lt] using h.count
  specified := specifiedLegal_putBytes h.specified ha
  beforeCommand := by simpa [State.mem_putBytes_specified_of_lt] using h.beforeCommand
  afterCommand := by simpa [State.mem_putBytes_specified_of_lt] using h.afterCommand
  errByteHeld := by simpa [State.mem_putBytes_specified_of_lt] using h.errByteHeld

theorem HostStepEnds.inv {s t : State} {h : HostStep} (hs : s.Inv) (he : HostStepEnds s h t) : t.Inv := by
  cases he with
  | command c t ht => exact runCommand_inv hs ht
  | reset => exact State.reset_inv.withInputs _ _ _ _
  | read r => exact hs.withInputs _ _ _ _
  | value w => exact (hs.withInputs w _ _ _).markNum (.inl rfl)
  | len n => exact (hs.withInputs _ n _ _).markNum (.inr rfl)
  | buf i b => exact hs.putBytes (by simp only [Config.bufBytes, List.length_singleton]; omega)
  | ignored r v hr hw => exact hs

/-- Settles O50, by what each host step can do. Within a command the part of the invariant that does not speak of
STATUS is kept, and the command's end restores the rest. -/
theorem stepKeepsTheInvariant : Obligations.StepKeepsTheInvariant := by
  intro s t hs ht
  rcases step_cases ht with ⟨-, rfl⟩ | ⟨h, rest, -, hrun⟩
  · exact hs
  · exact (hostStepEnds_of_next hrun).inv (hs.withInputs _ _ _ rest)

end Sys2Proof.Machine
end

section
/-! PROOFS. The stricter step, and that the values the model chose for unspecified registers never show: every host step
keeps `AgreesOnSpecified` where the registers it reads hold values. -/

namespace Sys2Proof.Machine

/-! ### The stricter step -/

theorem firstUnspecified_eq_none_iff (s : State) (l : List Nat) :
    firstUnspecified s l = none ↔ ∀ n ∈ l, holdsValue s n = true := by
  induction l with
  | nil => simp [firstUnspecified]
  | cons n l ih =>
    rw [firstUnspecified, List.forall_mem_cons]
    by_cases hn : holdsValue s n = true
    · rw [if_pos hn, ih, and_iff_right hn]
    · rw [if_neg hn]
      exact iff_of_false (Option.some_ne_none n) fun h => hn h.1

theorem firstUnspecified_append {s : State} {before : List Nat} (hb : ∀ m ∈ before, holdsValue s m = true)
    (l : List Nat) : firstUnspecified s (before ++ l) = firstUnspecified s l := by
  induction before with
  | nil => rfl
  | cons m before ih =>
    obtain ⟨hm, hb⟩ := List.forall_mem_cons.mp hb
    rw [List.cons_append, firstUnspecified, if_pos hm, ih hb]

theorem strictStep_of_held {s : State} (h : ∀ n ∈ stepReads s, holdsValue s n = true) : strictStep s = step s := by
  rw [strictStep, (firstUnspecified_eq_none_iff s _).mpr h]

theorem strictStep_of_unspecified {s : State} {n : Nat} (h : firstUnspecified s (stepReads s) = some n) :
    strictStep s = .fault (.unspecifiedRead n) := by
  rw [strictStep, h]

/-- Where the stricter step gives a next state, the registers it reads hold values and it is the step. -/
theorem strictStep_next {s t : State} (ht : strictStep s = .next t) :
    (∀ n ∈ stepReads s, holdsValue s n = true) ∧ step s = .next t := by
  cases hf : firstUnspecified s (stepReads s) with
  | none =>
    have hheld := (firstUnspecified_eq_none_iff s _).mp hf
    exact ⟨hheld, strictStep_of_held hheld ▸ ht⟩
  | some n =>
    rw [strictStep_of_unspecified hf] at ht
    cases ht

/-- Settles O52, by the two facts about the first register of a list that holds no value. -/
theorem strictStepFaultsExactlyOnUnwrittenReads : Obligations.StrictStepFaultsExactlyOnUnwrittenReads := by
  refine fun s => ⟨strictStep_of_held, fun before after n hreads hbefore hn => strictStep_of_unspecified ?_⟩
  rw [hreads, firstUnspecified_append hbefore, firstUnspecified, if_neg (by simp [hn])]

/-! ### One register written -/

/-- `t` is `s` with one register written (R35): it has a value, and all else is as before. -/
structure WritesOnly (r : Reg) (v : RegVal) (s t : State) : Prop where
  specified : t.specified = insertNum r.num s.specified
  readPort : t.readPort = s.readPort
  pending : t.pending = s.pending
  written : regRead r t = v
  others : ∀ r', r' ≠ r → regRead r' t = regRead r' s

theorem State.putCmd_writesOnly (v : Byte) (s : State) : WritesOnly .cmd (.b8 v) s (s.putCmd v) :=
  ⟨rfl, rfl, rfl, rfl, fun r h => by cases r with | cmd => exact absurd rfl h | _ => rfl⟩

theorem State.putValue_writesOnly (v : Word) (s : State) : WritesOnly .value (.b64 v) s (s.putValue v) :=
  ⟨rfl, rfl, rfl, rfl, fun r h => by cases r with | value => exact absurd rfl h | _ => rfl⟩

theorem State.putLen_writesOnly (v : BitVec 5) (s : State) : WritesOnly .len (.b5 v) s (s.putLen v) :=
  ⟨rfl, rfl, rfl, rfl, fun r h => by cases r with | len => exact absurd rfl h | _ => rfl⟩

theorem State.putStatus_writesOnly (v : Byte) (s : State) : WritesOnly .status (.b8 v) s (s.putStatus v) :=
  ⟨rfl, rfl, rfl, rfl, fun r h => by cases r with | status => exact absurd rfl h | _ => rfl⟩

theorem State.putResult_writesOnly (v : Word) (s : State) : WritesOnly .result (.b64 v) s (s.putResult v) :=
  ⟨rfl, rfl, rfl, rfl, fun r h => by cases r with | result => exact absurd rfl h | _ => rfl⟩

theorem State.putCount_writesOnly (v : BitVec 4) (s : State) : WritesOnly .count (.b4 v) s (s.putCount v) :=
  ⟨rfl, rfl, rfl, rfl, fun r h => by cases r with | count => exact absurd rfl h | _ => rfl⟩

theorem State.putErrByte_writesOnly (v : Byte) (s : State) : WritesOnly .errByte (.b8 v) s (s.putErrByte v) :=
  ⟨rfl, rfl, rfl, rfl, fun r h => by cases r with | errByte => exact absurd rfl h | _ => rfl⟩

/-! ### Writes keep agreement -/

/-- One value written to one register of two states that agree leaves states that agree. -/
theorem AgreesOnSpecified.write {s u s' u' : State} {r : Reg} {v : RegVal} (h : AgreesOnSpecified s u)
    (hs : WritesOnly r v s s') (hu : WritesOnly r v u u') : AgreesOnSpecified s' u' where
  specified := by rw [hs.specified, hu.specified, h.specified]
  pending := by rw [hs.pending, hu.pending, h.pending]
  readPort := by rw [hs.readPort, hu.readPort, h.readPort]
  reads r' hr' := by
    by_cases heq : r' = r
    · rw [heq, hs.written, hu.written]
    · have hmem : r'.num ∈ s.specified := by
        rw [hs.specified] at hr'
        exact ((mem_insertNum _ _ _).mp hr').resolve_left (Reg.num_injective.ne heq)
      rw [hs.others r' heq, hu.others r' heq, h.reads r' hmem]

theorem AgreesOnSpecified.raise {s u : State} (h : AgreesOnSpecified s u) (r : Raise) :
    AgreesOnSpecified (s.raise r) (u.raise r) := by
  cases r with
  | invalidHighBits b =>
    exact (h.write (s.putErrByte_writesOnly b) (u.putErrByte_writesOnly b)).write (State.putStatus_writesOnly _ _)
      (State.putStatus_writesOnly _ _)
  | ok | invalidLength | insufficientLength | outOfRange | badWidth | illegalCmd =>
    exact h.write (State.putStatus_writesOnly _ _) (State.putStatus_writesOnly _ _)

/-- Bytes written to a BUF with rising indexes read back. -/
theorem State.putBytes_bufByte_same {s : State} (hs : Memory.wf s.buf) (a : Nat) (bytes : List Byte) (j : Nat)
    (hj : j < bytes.length) : (s.putBytes a bytes).bufByte (a + j) = bytes[j] := by
  simpa [State.bufByte] using Memory.read_writeList_same s.buf a bytes hs.1 j hj

theorem AgreesOnSpecified.putBytes_buf {s u : State} (h : AgreesOnSpecified s u) (hs : Memory.wf s.buf)
    (hu : Memory.wf u.buf) (a : Nat) (bytes : List Byte) (i : Fin 16)
    (hi : (Reg.buf i).num ∈ (s.putBytes a bytes).specified) :
    (u.putBytes a bytes).bufByte i = (s.putBytes a bytes).bufByte i := by
  by_cases hin : a ≤ i.val ∧ i.val < a + bytes.length
  · have hj : i.val = a + (i.val - a) := by omega
    rw [hj, State.putBytes_bufByte_same hs a bytes _ (by omega), State.putBytes_bufByte_same hu a bytes _ (by omega)]
  · have hout : i.val < a ∨ a + bytes.length ≤ i.val := by omega
    have hmem : (Reg.buf i).num ∈ s.specified := by
      refine ((State.mem_putBytes_specified _ _ _ _).mp hi).resolve_left ?_
      simp only [Reg.num]
      omega
    rw [State.putBytes_bufByte_other u a bytes i hout, State.putBytes_bufByte_other s a bytes i hout]
    exact RegVal.b8.inj (h.reads (.buf i) hmem)

/-- Bytes written to the BUFs of two states that agree leave states that agree. -/
theorem AgreesOnSpecified.putBytes {s u : State} (h : AgreesOnSpecified s u) (hs : Memory.wf s.buf)
    (hu : Memory.wf u.buf) (hrise : s.specified.Pairwise (· < ·)) (a : Nat) (bytes : List Byte) :
    AgreesOnSpecified (s.putBytes a bytes) (u.putBytes a bytes) where
  specified := by
    refine rising_ext _ _ (u.putBytes_specified_pairwise a bytes (h.specified ▸ hrise))
      (s.putBytes_specified_pairwise a bytes hrise) fun n => ?_
    rw [State.mem_putBytes_specified, State.mem_putBytes_specified, h.specified]
  pending := by simpa using h.pending
  readPort := by simpa using h.readPort
  reads r hr := by
    cases r with
    | buf i => exact congrArg RegVal.b8 (h.putBytes_buf hs hu a bytes i hr)
    | reserved k => rfl
    | cmd | value | len | status | result | count | errByte =>
      simpa [regRead] using h.reads _ ((State.mem_putBytes_specified_of_lt (by decide) a bytes s).mp hr)

theorem AgreesOnSpecified.effect {s u : State} (h : AgreesOnSpecified s u) (hs : s.CommandInv) (hu : u.CommandInv)
    (e : Effect) : AgreesOnSpecified (e.apply s) (e.apply u) := by
  cases e with
  | fails r => exact h.raise r
  | result v => exact (h.write (s.putResult_writesOnly v) (u.putResult_writesOnly v)).raise .ok
  | count n => exact (h.write (s.putCount_writesOnly n) (u.putCount_writesOnly n)).raise .ok
  | token bytes n =>
    have hbytes := h.putBytes hs.buf hu.buf hs.specified.1 0 bytes
    exact (hbytes.write (State.putCount_writesOnly n _) (State.putCount_writesOnly n _)).raise .ok
  | decoded v n =>
    have hresult := h.write (s.putResult_writesOnly v) (u.putResult_writesOnly v)
    exact (hresult.write (State.putCount_writesOnly n _) (State.putCount_writesOnly n _)).raise .ok

/-! ### Reads of registers that hold values -/

/-- A register that holds a value and is no reserved number is in the record. -/
theorem mem_specified_of_held {s : State} {n : Nat} (h : holdsValue s n = true) (hn : n < 0x07 ∨ 0x0F < n) :
    n ∈ s.specified := by
  simp only [holdsValue, Bool.or_eq_true, Bool.and_eq_true, decide_eq_true_eq] at h
  exact h.resolve_left (by omega)

/-- A register that holds a value reads alike in states that agree, a reserved number too (R36). -/
theorem AgreesOnSpecified.reads_held {s u : State} (h : AgreesOnSpecified s u) {r : Reg}
    (hr : holdsValue s r.num = true) : regRead r u = regRead r s := by
  cases r with
  | reserved k => rfl
  | buf i => exact h.reads _ (mem_specified_of_held hr (.inr (by simp only [Reg.num]; omega)))
  | cmd | value | len | status | result | count | errByte =>
    exact h.reads _ (mem_specified_of_held hr (.inl (by decide)))

theorem AgreesOnSpecified.readsAlike {s u : State} (h : AgreesOnSpecified s u) (hs : specifiedLegal s.specified)
    {l : List Nat} (hl : ∀ n ∈ l, holdsValue s n = true) : ReadsAlike l s u where
  value hn := RegVal.b64.inj (h.reads_held (r := .value) (hl _ hn))
  len hn := RegVal.b5.inj (h.reads_held (r := .len) (hl _ hn))
  buf a ha := by
    have hstore := hs.2.1 _ (mem_specified_of_held (hl _ ha) (.inr (by omega)))
    have ha16 : a < 16 := by unfold storingNum at hstore; omega
    exact RegVal.b8.inj (h.reads_held (r := .buf ⟨a, ha16⟩) (hl _ ha))

theorem hostStepReads_of_legal {c : Byte} {i : Instr} (hc : decodeCmd c = .ok i) (s : State) :
    hostStepReads (.write .cmd (.b8 c)) s = commandReads i s := by
  rw [hostStepReads, hc]

theorem hostStepReads_of_illegal {c : Byte} {e : CmdReject} (hc : decodeCmd c = .error e) (s : State) :
    hostStepReads (.write .cmd (.b8 c)) s = [] := by
  rw [hostStepReads, hc]

/-- What a host step reads depends only on what it reads. -/
theorem hostStepReads_alike {h : HostStep} {s u : State} (ha : ReadsAlike (hostStepReads h s) s u) :
    hostStepReads h u = hostStepReads h s := by
  cases h with
  | read r => rfl
  | reset => rfl
  | write r v =>
    cases r with
    | cmd =>
      cases v with
      | b8 c =>
        cases hc : decodeCmd c with
        | error e => rw [hostStepReads_of_illegal hc, hostStepReads_of_illegal hc]
        | ok i =>
          rw [hostStepReads_of_legal hc] at ha
          rw [hostStepReads_of_legal hc, hostStepReads_of_legal hc, commandReads_alike ha]
      | b64 | b5 | b4 => rfl
    | value | len | status | result | count | errByte | reserved k | buf i => rfl

/-! ### Host steps keep agreement -/

/-- A command word run on two states that agree, where the registers it reads hold values, leaves states that agree. -/
theorem AgreesOnSpecified.command {s u s' : State} (h : AgreesOnSpecified s u) (hs : s.Inv) (hu : u.Inv) {c : Byte}
    (hheld : ∀ n ∈ hostStepReads (.write .cmd (.b8 c)) s, holdsValue s n = true) (hrun : runCommand c s = .next s') :
    ∃ u', runCommand c u = .next u' ∧ AgreesOnSpecified s' u' := by
  have hput : AgreesOnSpecified (s.putCmd c) (u.putCmd c) := h.write (s.putCmd_writesOnly c) (u.putCmd_writesOnly c)
  unfold runCommand at hrun ⊢
  cases hc : decodeCmd c with
  | error e =>
    rw [hc] at hrun
    cases hrun
    exact ⟨_, rfl, hput.raise .illegalCmd⟩
  | ok i =>
    rw [hc] at hrun
    rw [hostStepReads_of_legal hc] at hheld
    have hreads : commandReads i (s.putCmd c) = commandReads i s :=
      commandReads_alike ⟨fun _ => rfl, fun _ => rfl, fun _ _ => rfl⟩
    have halike := h.readsAlike hs.specified hheld
    obtain ⟨e, -, hes, heu⟩ := exec_effect (i := i) (s := s.putCmd c) (u := u.putCmd c)
      (hreads ▸ ⟨halike.value, halike.len, halike.buf⟩)
    cases hes.symm.trans hrun
    exact ⟨_, heu, hput.effect (hs.putCmd_commandInv c) (hu.putCmd_commandInv c) e⟩

theorem AgreesOnSpecified.read {s u : State} (h : AgreesOnSpecified s u) {r : Reg} (hr : holdsValue s r.num = true) :
    AgreesOnSpecified (hostRead r s) (hostRead r u) where
  specified := h.specified
  pending := h.pending
  readPort := congrArg some (h.reads_held hr)
  reads := h.reads

theorem AgreesOnSpecified.reset {s u : State} (h : AgreesOnSpecified s u) :
    AgreesOnSpecified (hostReset s) (hostReset u) where
  specified := rfl
  pending := h.pending
  readPort := h.readPort
  reads r _ := by cases r <;> rfl

/-- A host step taken from two states that agree, where the registers it reads hold values, leaves states that agree. -/
theorem AgreesOnSpecified.hostStep {s u s' : State} (h : AgreesOnSpecified s u) (hs : s.Inv) (hu : u.Inv)
    {step : HostStep} (hheld : ∀ n ∈ hostStepReads step s, holdsValue s n = true)
    (hends : HostStepEnds s step s') : ∃ u', runHostStep step u = .next u' ∧ AgreesOnSpecified s' u' := by
  cases hends with
  | command c _ hrun =>
    rw [runHostStep_write_cmd]
    exact h.command hs hu hheld hrun
  | reset => exact ⟨_, rfl, h.reset⟩
  | read r => exact ⟨_, rfl, h.read (hheld _ (.head _))⟩
  | value w => exact ⟨_, rfl, h.write (s.putValue_writesOnly w) (u.putValue_writesOnly w)⟩
  | len n => exact ⟨_, rfl, h.write (s.putLen_writesOnly n) (u.putLen_writesOnly n)⟩
  | buf i b => exact ⟨_, rfl, h.putBytes hs.buf hu.buf hs.specified.1 i [b]⟩
  | ignored r v _ hw => exact ⟨u, hw u, h⟩

theorem AgreesOnSpecified.holdsValue_eq {s u : State} (h : AgreesOnSpecified s u) (n : Nat) :
    holdsValue u n = holdsValue s n := by
  rw [holdsValue, holdsValue, h.specified]

theorem AgreesOnSpecified.stepReads_eq {s u : State} (h : AgreesOnSpecified s u) (hs : s.Inv)
    (hheld : ∀ n ∈ stepReads s, holdsValue s n = true) : stepReads u = stepReads s := by
  unfold stepReads at hheld ⊢
  rw [h.pending]
  cases hp : s.pending with
  | nil => rfl
  | cons step rest =>
    rw [hp] at hheld
    exact hostStepReads_alike (h.readsAlike hs.specified hheld)

/-- A step taken from two states that agree, where the registers it reads hold values, leaves states that agree. -/
theorem AgreesOnSpecified.step {s u s' : State} (h : AgreesOnSpecified s u) (hs : s.Inv) (hu : u.Inv)
    (hheld : ∀ n ∈ stepReads s, holdsValue s n = true) (hrun : step s = .next s') :
    ∃ u', step u = .next u' ∧ AgreesOnSpecified s' u' := by
  rcases step_cases hrun with ⟨hp, rfl⟩ | ⟨hostStep, rest, hp, hrun⟩
  · exact ⟨u, step_of_pending_nil (h.pending.trans hp), h⟩
  · rw [step_of_pending_cons (h.pending.trans hp)]
    have hrest : AgreesOnSpecified { s with pending := rest } { u with pending := rest } :=
      ⟨h.specified, rfl, h.readPort, h.reads⟩
    have hreads : hostStepReads hostStep { s with pending := rest } = hostStepReads hostStep s :=
      hostStepReads_alike ⟨fun _ => rfl, fun _ => rfl, fun _ _ => rfl⟩
    rw [stepReads, hp] at hheld
    exact hrest.hostStep (hs.withInputs _ _ _ rest) (hu.withInputs _ _ _ rest) (hreads ▸ hheld)
      (hostStepEnds_of_next hrun)

/-- Settles O54: states that agree read alike in the registers the step reads, so the step has one effect on both, and
every write keeps agreement. -/
theorem unspecifiedRegistersNeverShow : Obligations.UnspecifiedRegistersNeverShow := by
  intro s u s' hs hu h hstrict
  obtain ⟨hheld, hrun⟩ := strictStep_next hstrict
  obtain ⟨u', hu', hagree⟩ := h.step hs hu hheld hrun
  have hheld' : ∀ n ∈ stepReads u, holdsValue u n = true := fun n hn =>
    h.holdsValue_eq n ▸ hheld n (h.stepReads_eq hs hheld ▸ hn)
  exact ⟨u', (strictStep_of_held hheld').trans hu', hagree⟩

end Sys2Proof.Machine
end

section
/-! PROOFS. What each host step does: reads, writes that are ignored or refused, and the step of a command word. -/

namespace Sys2Proof.Machine

/-- Settles O6, by the two equations of a step. -/
theorem stepTakesTheNextHostStep : Obligations.StepTakesTheNextHostStep :=
  ⟨fun _ => step_of_pending_nil, fun _ _ _ => step_of_pending_cons⟩

theorem runCommand_of_decode {c : Byte} {i : Instr} (h : decodeCmd c = .ok i) (s : State) :
    runCommand c s = exec i (s.putCmd c) := by
  rw [runCommand, h]

theorem step_of_pending_command {s : State} {c : Byte} {i : Instr} {rest : List HostStep}
    (hp : s.pending = .write .cmd (.b8 c) :: rest) (hc : decodeCmd c = .ok i) :
    step s = exec i ({ s with pending := rest }.putCmd c) := by
  rw [step_of_pending_cons hp, runHostStep_write_cmd, runCommand_of_decode hc]

/-- An 8-bit table word is the command word of its low 8 bits (R80). -/
theorem tableByte_eight (w : Nat) : tableByte 8 w = BitVec.ofNat 8 w :=
  BitVec.eq_of_toNat_eq (by simp [tableByte])

theorem decodeCmd_of_decodeTableWord {nbits w : Nat} {i : Instr} (h : decodeTableWord nbits w = some i) :
    decodeCmd (tableByte nbits w) = .ok i := by
  simp only [decodeTableWord, decodeBytes] at h
  cases hc : decodeCmd (tableByte nbits w) with
  | ok j =>
    rw [hc] at h
    exact congrArg Except.ok (Option.some.inj h)
  | error e =>
    rw [hc] at h
    cases h

/-- Settles O5: the next host step is the write of CMD, and that runs the word's command. -/
theorem stepRunsTheDecodedCommand : Obligations.StepRunsTheDecodedCommand := by
  refine ⟨fun s c i rest => step_of_pending_command, fun s w i h => ?_⟩
  have hc := decodeCmd_of_decodeTableWord h
  rw [tableByte_eight] at hc
  have hp : (s.withFetchWord 8 w).pending = .write .cmd (.b8 (BitVec.ofNat 8 w)) :: s.pending := by
    rw [State.withFetchWord, State.withCommand_pending, tableByte_eight]
  rw [step_of_pending_command hp hc]
  rfl

/-- Settles O9: the width test of a write comes first, and a write to a read-only register is ignored. -/
theorem readOnlyWritesAreIgnoredAndWidthsEnforced : Obligations.ReadOnlyWritesAreIgnoredAndWidthsEnforced := by
  refine ⟨fun s r v hr hw => ?_, fun s r v w hr hw => ?_⟩
  · have hro : r.readOnly = true := by rcases hr with rfl | rfl | rfl | rfl <;> rfl
    rw [runHostStep_write_of_accepts (Reg.accepts_of_width hw), regWrite_of_readOnly hro]
  · have ha : r.accepts v = false := by simp [Reg.accepts, hr, hw]
    simp [runHostStep, hostWrite, ha]

/-- The numbers 0x07 to 0x0F are the reserved ones (R21). -/
theorem Reg.ofNum_eq_reserved {n : BitVec 5} (h7 : 0x07 ≤ n.toNat) (hF : n.toNat ≤ 0x0F) :
    ∃ k, Reg.ofNum n = .reserved k := by
  have hnum := Reg.num_ofNum n
  cases hr : Reg.ofNum n with
  | reserved k => exact ⟨k, rfl⟩
  | cmd | value | len | status | result | count | errByte | buf i =>
    rw [hr] at hnum
    simp only [Reg.num] at hnum
    omega

/-- Settles O10: those numbers select reserved registers, which read 0 and take no write. -/
theorem reservedNumbersReadZeroAndIgnoreWrites : Obligations.ReservedNumbersReadZeroAndIgnoreWrites := by
  intro s n v h7 hF
  obtain ⟨k, hk⟩ := Reg.ofNum_eq_reserved h7 hF
  rw [hk, runHostStep_write_of_accepts (Reg.accepts_reserved k v), regWrite_reserved]
  exact ⟨rfl, rfl⟩

/-- A read changes no register (R59). -/
theorem regRead_hostRead (r r' : Reg) (s : State) : regRead r' (hostRead r s) = regRead r' s := by
  cases r' <;> rfl

/-- Settles O11: a read writes the host's side alone. -/
theorem readReturnsTheRegisterAndChangesNone : Obligations.ReadReturnsTheRegisterAndChangesNone :=
  fun s r => ⟨hostRead r s, rfl, rfl, rfl, rfl, fun r' => regRead_hostRead r r' s⟩

end Sys2Proof.Machine
end

section
/-! PROOFS. What every command writes and leaves unchanged, read off the forms of its next state (`CommandEnds`). -/

namespace Sys2Proof.Machine

/-! ### CMD, VALUE, LEN and the host's side -/

theorem CommandEnds.keepsInputs {i : Instr} {s t : State} (h : CommandEnds i s t) : KeepsInputs s t := by
  cases h <;> constructor <;> simp

/-- Settles O37, by the forms of a command's next state. -/
theorem commandsNeverWriteCmdValueOrLen : Obligations.CommandsNeverWriteCmdValueOrLen :=
  fun _ _ _ h => (commandEnds_of_exec h).keepsInputs

/-! ### The flags -/

theorem CommandEnds.status_eq {i : Instr} {s t : State} (h : CommandEnds i s t) : ∃ r, t.status = statusWord r := by
  cases h <;> exact ⟨_, State.raise_status _ _⟩

/-- A command word sets DONE, and CMD keeps the word, legal or not (R22, R37). -/
theorem runCommand_done_cmd {c : Byte} {s t : State} (ht : runCommand c s = .next t) :
    statusDone t.status = true ∧ t.cmd = c := by
  obtain ⟨t', ht', hcases⟩ := runCommand_cases c s
  cases ht'.symm.trans ht
  rcases hcases with ⟨-, -, rfl⟩ | ⟨i, -, -, hends⟩
  · exact ⟨by rw [State.raise_status, statusDone_statusWord], by simp⟩
  · obtain ⟨r, hr⟩ := hends.status_eq
    exact ⟨by rw [hr, statusDone_statusWord], hends.keepsInputs.cmd⟩

/-- Settles O8: a command word always gives a next state, with DONE set and the word in CMD. -/
theorem everyCommandWriteCompletes : Obligations.EveryCommandWriteCompletes := by
  intro s c
  obtain ⟨t, ht, -⟩ := runCommand_cases c s
  obtain ⟨hdone, hcmd⟩ := runCommand_done_cmd ht
  exact ⟨t, (runHostStep_write_cmd c s).trans ht, hdone, congrArg RegVal.b8 hcmd⟩

/-- No command word reads the flags: every effect ends by writing STATUS (R37). -/
theorem runCommand_with_status (c word : Byte) (s : State) :
    runCommand c { s with status := word } = runCommand c s := by
  unfold runCommand
  cases decodeCmd c with
  | error e => exact congrArg Host.Outcome.next (State.raise_with_status .illegalCmd word (s.putCmd c))
  | ok i =>
    obtain ⟨e, -, hs, hu⟩ := exec_effect (i := i) (s := s.putCmd c) (u := { s with status := word }.putCmd c)
      ⟨fun _ => rfl, fun _ => rfl, fun _ _ => rfl⟩
    have heq : e.apply ({ s with status := word }.putCmd c) = e.apply (s.putCmd c) :=
      e.apply_with_status word (s.putCmd c)
    exact hu.trans (heq ▸ hs.symm)

theorem reset_flags : statusDone State.reset.status = false ∧ statusCode State.reset.status = 0#4 := by decide

/-- Settles O14, by the forms of a host step's next state. -/
theorem onlyCommandsAndResetWriteTheFlags : Obligations.OnlyCommandsAndResetWriteTheFlags := by
  refine ⟨fun s t h ht => ?_, fun s c word => ?_⟩
  · cases hostStepEnds_of_next ht with
    | command c _ hrun => exact .inl ⟨c, rfl, (runCommand_done_cmd hrun).1⟩
    | reset => exact .inr (.inl ⟨rfl, reset_flags⟩)
    | read r => exact .inr (.inr ⟨nofun, nofun, rfl⟩)
    | value w => exact .inr (.inr ⟨nofun, nofun, rfl⟩)
    | len n => exact .inr (.inr ⟨nofun, nofun, rfl⟩)
    | buf i b => exact .inr (.inr ⟨nofun, nofun, State.putBytes_status _ _ _⟩)
    | ignored r v hr hw => exact .inr (.inr ⟨fun c hc => hr (HostStep.write.inj hc).1, nofun, rfl⟩)
  · rw [runHostStep_write_cmd, runHostStep_write_cmd, runCommand_with_status]

/-! ### RESULT and COUNT -/

/-- Only SX.CHK and the decoders write RESULT, on success (R26). -/
theorem CommandEnds.result_eq {i : Instr} {s t : State} (h : CommandEnds i s t)
    (hi : t.status ≠ 0x01#8 ∨ i = .vl64Enclen ∨ i = .vl64Enc ∨ i = .vl64Declen ∨ i = .b64Enc) :
    t.result = s.result := by
  cases h with
  | bad r hr hk => simp
  | enclen | enc | declen | b64Enc => simp
  | sxChk hi' | dec hi' | b64Dec hi' =>
    subst hi'
    simp [statusWord_ok] at hi

/-- Every command but SX.CHK writes COUNT, on success (R27). -/
theorem CommandEnds.count_eq {i : Instr} {s t : State} (h : CommandEnds i s t)
    (hi : t.status ≠ 0x01#8 ∨ i = .sxChk) : t.count = s.count := by
  cases h with
  | bad r hr hk => simp
  | sxChk => simp
  | enclen hi' | enc hi' | declen hi' | dec hi' | b64Enc hi' | b64Dec hi' =>
    subst hi'
    simp [statusWord_ok] at hi

/-- After a VL64 command that ends OK, COUNT is a token's length (R27). -/
theorem CommandEnds.vl64_count {i : Instr} {s t : State} (h : CommandEnds i s t) (hok : t.status = 0x01#8)
    (hsx : i ≠ .sxChk) (henc : i ≠ .b64Enc) (hdec : i ≠ .b64Dec) : 1 ≤ t.count.toNat ∧ t.count.toNat ≤ 6 := by
  cases h with
  | bad r hr hk => exact absurd hok (State.raise_status_ne_ok hr)
  | sxChk hi => exact absurd hi hsx
  | enclen hi hm =>
    rw [State.raise_count, State.putCount_count, encodedLength_count_toNat hm]
    exact vl64EncodedLength_bounds _ hm
  | enc hi hm =>
    rw [State.raise_count, State.putCount_count, tokenLength_count_toNat hm]
    exact vl64EncodedLength_bounds _ hm
  | declen hi d hd | dec hi hl d hd =>
    obtain ⟨-, h1, h6, -⟩ := vl64Header_ok hd
    rw [State.raise_count, State.putCount_count, zext_len_toNat]
    exact ⟨h1, h6⟩
  | b64Enc hi => exact absurd hi henc
  | b64Dec hi => exact absurd hi hdec

/-- After a B64 command that ends OK, COUNT is LEN (R27). -/
theorem CommandEnds.b64_count {i : Instr} {s t : State} (h : CommandEnds i s t) (hok : t.status = 0x01#8)
    (hi : i = .b64Enc ∨ i = .b64Dec) : t.count.toNat = s.len.toNat ∧ t.count.toNat ≤ 10 := by
  cases h with
  | bad r hr hk => exact absurd hok (State.raise_status_ne_ok hr)
  | sxChk hi' | enclen hi' | enc hi' | declen hi' | dec hi' =>
    subst hi'
    rcases hi with hi | hi <;> cases hi
  | b64Enc hi' hl | b64Dec hi' hl =>
    rw [State.raise_count, State.putCount_count, lenCount_count_toNat hl]
    exact ⟨rfl, hl⟩

/-- Settles O38, by what the forms of a command's next state say of RESULT and COUNT. -/
theorem resultAndCountChangeOnlyOnSuccess : Obligations.ResultAndCountChangeOnlyOnSuccess := by
  intro i s t h
  have hends := commandEnds_of_exec h
  exact ⟨hends.result_eq, hends.count_eq, hends.vl64_count, hends.b64_count⟩

/-! ### ERRBYTE -/

theorem State.raise_errByte_of_ne {r : Raise} {s : State} (h : statusWord r ≠ 0x11#8) :
    (s.raise r).errByte = s.errByte := by
  rw [State.raise_errByte]
  cases r with
  | invalidHighBits b => exact absurd ((statusWord_eq_invalidHighBits_iff _).mpr ⟨b, rfl⟩) h
  | ok | invalidLength | insufficientLength | outOfRange | badWidth | illegalCmd => rfl

/-- INVALID_HIGH_BITS reports the first byte of BUF that fails the marker test, and is the only outcome that writes
ERRBYTE (R28). -/
theorem CommandEnds.errByte {i : Instr} {s t : State} (h : CommandEnds i s t) :
    (t.status = 0x11#8 → ∃ k, k < 16 ∧ t.errByte = s.bufByte k ∧ ¬ IsSextet (s.bufByte k) ∧
      ∀ j, j < k → IsSextet (s.bufByte j)) ∧
    (t.status ≠ 0x11#8 → t.errByte = s.errByte) := by
  cases h with
  | bad r hr hk =>
    rw [State.raise_status]
    refine ⟨fun hbad => ?_, State.raise_errByte_of_ne⟩
    obtain ⟨b, rfl⟩ := (statusWord_eq_invalidHighBits_iff r).mp hbad
    obtain ⟨⟨k, hk16, rfl, hnot, hbefore⟩, -⟩ := hk
    exact ⟨k, hk16, rfl, hnot, hbefore⟩
  | sxChk | enclen | enc | declen | dec | b64Enc | b64Dec =>
    refine ⟨fun hbad => ?_, fun _ => by simp⟩
    rw [State.raise_status, statusWord_ok] at hbad
    cases hbad

/-- Settles O39: the illegal words never report a byte, and a command reports the first bad one. -/
theorem errbyteIsTheFirstOffendingByte : Obligations.ErrbyteIsTheFirstOffendingByte := by
  refine ⟨rfl, rfl, by decide, fun c s t ht => ?_⟩
  rw [runHostStep_write_cmd] at ht
  obtain ⟨t', ht', hcases⟩ := runCommand_cases c s
  cases ht'.symm.trans ht
  rcases hcases with ⟨-, -, rfl⟩ | ⟨i, -, -, hends⟩
  · exact ⟨fun hbad => absurd hbad (by simp [statusWord, Raise.code]), fun _ => rfl⟩
  · exact hends.errByte

/-! ### The record of R35 -/

/-- The registers a command gives a value to beside STATUS and ERRBYTE, when it ends OK with COUNT at `count`. -/
def successWrites (i : Instr) (count n : Nat) : Prop :=
  (n = 0x04 ∧ (i = .sxChk ∨ i = .vl64Dec ∨ i = .b64Dec)) ∨ (n = 0x05 ∧ i ≠ .sxChk) ∨
    ((i = .vl64Enc ∨ i = .b64Enc) ∧ 0x10 ≤ n ∧ n < 0x10 + count)

/-- What a status other than OK adds to the record. -/
theorem mem_specified_of_bad {r : Raise} (hr : r ≠ .ok) (s : State) (n : Nat) (p : Prop) :
    n ∈ (s.raise r).specified ↔ n ∈ s.specified ∨ n = 0x03 ∨ (n = 0x06 ∧ (s.raise r).status = 0x11#8) ∨
      ((s.raise r).status = 0x01#8 ∧ p) := by
  rw [State.mem_raise_specified, State.raise_status, statusWord_eq_invalidHighBits_iff, statusWord_eq_ok_iff]
  tauto

/-- What OK adds to the record, where the command's writes add the registers of `p`. -/
theorem mem_specified_of_ok {s t : State} {n : Nat} {p : Prop} (ht : n ∈ t.specified ↔ n ∈ s.specified ∨ p) :
    n ∈ (t.raise .ok).specified ↔ n ∈ s.specified ∨ n = 0x03 ∨ (n = 0x06 ∧ (t.raise .ok).status = 0x11#8) ∨
      ((t.raise .ok).status = 0x01#8 ∧ p) := by
  rw [State.raise_ok_specified, mem_insertNum, ht, State.raise_status, statusWord_ok]
  simp only [show (0x01#8 = 0x11#8) = False by decide, true_and, and_false, false_or]
  tauto

theorem CommandEnds.mem_specified {i : Instr} {s t : State} (h : CommandEnds i s t) (n : Nat) :
    n ∈ t.specified ↔ n ∈ s.specified ∨ n = 0x03 ∨ (n = 0x06 ∧ t.status = 0x11#8) ∨
      (t.status = 0x01#8 ∧ successWrites i t.count.toNat n) := by
  cases h with
  | bad r hr hk => exact mem_specified_of_bad hr s n _
  | sxChk hi p hp =>
    subst hi
    refine mem_specified_of_ok ?_
    simp [successWrites, or_comm]
  | enclen hi | declen hi =>
    subst hi
    refine mem_specified_of_ok ?_
    simp [successWrites, or_comm]
  | dec hi | b64Dec hi =>
    subst hi
    refine mem_specified_of_ok ?_
    simp [successWrites]
    tauto
  | enc hi hm =>
    subst hi
    refine mem_specified_of_ok ?_
    simp [successWrites, State.mem_putBytes_specified, tokenLength_count_toNat hm, vl64Token_length _ hm]
    tauto
  | b64Enc hi hl =>
    subst hi
    refine mem_specified_of_ok ?_
    rw [State.raise_count, State.putCount_count, lenCount_count_toNat hl]
    simp [successWrites, State.mem_putBytes_specified]
    tauto

/-- Settles O40, by what the forms of a command's next state say of the record. -/
theorem commandsSpecifyExactlyWhatTheyWrite : Obligations.CommandsSpecifyExactlyWhatTheyWrite :=
  fun _ _ _ h => (commandEnds_of_exec h).mem_specified

end Sys2Proof.Machine
end

section
/-! PROOFS. Host writes and BUF (20_memory.md): a write of VALUE, LEN or a BUF byte writes that register alone, a command
changes no byte of BUF but those of its own token, and a write repeated changes nothing more. -/

namespace Sys2Proof.Machine

/-! ### A host write writes one register (R61) -/

/-- Bytes written to BUF leave every register outside them alone. -/
theorem regRead_putBytes_other (s : State) (a : Nat) (bytes : List Byte) {r : Reg}
    (hr : ∀ i, r = .buf i → i.val < a ∨ a + bytes.length ≤ i.val) :
    regRead r (s.putBytes a bytes) = regRead r s := by
  cases r with
  | buf i => exact congrArg RegVal.b8 (s.putBytes_bufByte_other a bytes i (hr i rfl))
  | reserved k => rfl
  | cmd | value | len | status | result | count | errByte => simp [regRead]

theorem State.putBytes_singleton_writesOnly {s : State} (hs : Memory.wf s.buf) (i : Fin 16) (b : Byte) :
    WritesOnly (.buf i) (.b8 b) s (s.putBytes i [b]) where
  specified := rfl
  readPort := rfl
  pending := rfl
  written := congrArg RegVal.b8 (State.putBytes_bufByte_same hs i [b] 0 (by simp))
  others r hr := by
    refine regRead_putBytes_other s i [b] fun j hj => ?_
    have hne : j.val ≠ i.val := fun h => hr (hj.trans (congrArg Reg.buf (Fin.ext h)))
    rw [List.length_singleton]
    omega

/-- A value of its width written to VALUE, LEN or a BUF byte gives a next state, with that register alone written. -/
theorem runHostStep_write_writesOnly {s : State} {r : Reg} {v : RegVal} (hs : Memory.wf s.buf)
    (hr : r = .value ∨ r = .len ∨ ∃ i, r = .buf i) (hw : r.width = some v.width) :
    ∃ t, runHostStep (.write r v) s = .next t ∧ WritesOnly r v s t := by
  rw [runHostStep_write_of_accepts (Reg.accepts_of_width hw)]
  rcases hr with rfl | rfl | ⟨i, rfl⟩
  · obtain ⟨w, rfl⟩ := RegVal.eq_b64_of_width (Option.some.inj hw).symm
    exact ⟨_, rfl, s.putValue_writesOnly w⟩
  · obtain ⟨n, rfl⟩ := RegVal.eq_b5_of_width (Option.some.inj hw).symm
    exact ⟨_, rfl, s.putLen_writesOnly n⟩
  · obtain ⟨b, rfl⟩ := RegVal.eq_b8_of_width (Option.some.inj hw).symm
    exact ⟨_, rfl, State.putBytes_singleton_writesOnly hs i b⟩

/-- Settles O12: the write writes its register alone, and that register is put into the record of R35. -/
theorem hostWriteIsReadBackAndLeavesTheRest : Obligations.HostWriteIsReadBackAndLeavesTheRest := by
  intro s r v hs hr hw
  obtain ⟨t, ht, hwrites⟩ := runHostStep_write_writesOnly hs hr hw
  have hmem : r.num ∈ t.specified := hwrites.specified ▸ (mem_insertNum _ _ _).mpr (.inl rfl)
  exact ⟨t, ht, hwrites.written, hmem, hwrites.readPort, hwrites.pending, hwrites.others⟩

/-! ### What a command leaves of BUF (R57) -/

/-- Only the encodes write BUF, on success. -/
theorem CommandEnds.bufByte_eq {i : Instr} {s t : State} (h : CommandEnds i s t)
    (hi : t.status ≠ 0x01#8 ∨ (i ≠ .vl64Enc ∧ i ≠ .b64Enc)) (a : Nat) : t.bufByte a = s.bufByte a := by
  cases h with
  | bad | sxChk | enclen | declen | dec | b64Dec => simp
  | enc hi' | b64Enc hi' =>
    subst hi'
    simp [statusWord_ok] at hi

theorem CommandEnds.bufByte_past_vl64Token {s t : State} (h : CommandEnds .vl64Enc s t) {a : Nat}
    (ha : vl64EncodedLength (magnitude s.value) ≤ a) : t.bufByte a = s.bufByte a := by
  cases h with
  | bad r => exact s.raise_bufByte r a
  | enc hi hm =>
    rw [State.raise_bufByte, State.putCount_bufByte,
      State.putBytes_bufByte_other s 0 _ a (.inr (by rwa [vl64Token_length _ hm, Nat.zero_add]))]
  | sxChk hi | enclen hi | declen hi | dec hi | b64Enc hi | b64Dec hi => cases hi

theorem CommandEnds.bufByte_past_b64Token {s t : State} (h : CommandEnds .b64Enc s t) {a : Nat}
    (ha : s.lenCount ≤ a) : t.bufByte a = s.bufByte a := by
  cases h with
  | bad r => exact s.raise_bufByte r a
  | b64Enc hi hl =>
    rw [State.raise_bufByte, State.putCount_bufByte,
      State.putBytes_bufByte_other s 0 _ a (.inr (by rwa [b64Encode_length, Nat.zero_add]))]
  | sxChk hi | enclen hi | enc hi | declen hi | dec hi | b64Dec hi => cases hi

/-- Settles O36, by what the forms of a command's next state say of BUF. -/
theorem onlyEncodesWriteBufAndOnlyTheirToken : Obligations.OnlyEncodesWriteBufAndOnlyTheirToken := by
  intro i s t h
  have hends := commandEnds_of_exec h
  refine ⟨fun _ hi a ha => ?_, fun _ hi a ha => ?_, hends.bufByte_eq⟩
  · subst hi
    exact hends.bufByte_past_vl64Token ha
  · subst hi
    exact hends.bufByte_past_b64Token ha

/-! ### Writes repeated (R59)

The same writes are done to two states, `s` and `u`, and lead to `s'` and `u'`. Where `u` already reads as `s'` does,
they change nothing in `u`. -/

/-- `u'` is `u` after writes that were done to `s'` too: a register of `u'` is as it was in `u` or was written, and then
with what it holds in `s'`. -/
structure RepeatsWrites (u s' u' : State) : Prop where
  reads : ∀ r, regRead r u' = regRead r u ∨ regRead r u' = regRead r s'
  specified : ∀ n ∈ u'.specified, n ∈ u.specified ∨ n ∈ s'.specified
  kept : ∀ n ∈ u.specified, n ∈ u'.specified
  readPort : u'.readPort = u.readPort
  pending : u'.pending = u.pending

/-- No write has been done yet. -/
theorem RepeatsWrites.refl (s u : State) : RepeatsWrites u s u :=
  ⟨fun _ => .inl rfl, fun _ => .inl, fun _ => id, rfl, rfl⟩

theorem RepeatsWrites.write {u s u' s₁ u₁ : State} {r : Reg} {v : RegVal} (h : RepeatsWrites u s u')
    (hs : WritesOnly r v s s₁) (hu : WritesOnly r v u' u₁) : RepeatsWrites u s₁ u₁ where
  reads r' := by
    by_cases heq : r' = r
    · rw [heq, hu.written, hs.written]
      exact .inr rfl
    · rw [hu.others r' heq, hs.others r' heq]
      exact h.reads r'
  specified n hn := by
    rw [hu.specified, mem_insertNum] at hn
    rw [hs.specified, mem_insertNum]
    exact hn.elim (fun heq => .inr (.inl heq)) fun hn => (h.specified n hn).imp_right .inr
  kept n hn := by
    rw [hu.specified, mem_insertNum]
    exact .inr (h.kept n hn)
  readPort := hu.readPort.trans h.readPort
  pending := hu.pending.trans h.pending

theorem RepeatsWrites.raise {u s u' : State} (h : RepeatsWrites u s u') (r : Raise) :
    RepeatsWrites u (s.raise r) (u'.raise r) := by
  cases r with
  | invalidHighBits b =>
    exact (h.write (s.putErrByte_writesOnly b) (u'.putErrByte_writesOnly b)).write (State.putStatus_writesOnly _ _)
      (State.putStatus_writesOnly _ _)
  | ok | invalidLength | insufficientLength | outOfRange | badWidth | illegalCmd =>
    exact h.write (State.putStatus_writesOnly _ _) (State.putStatus_writesOnly _ _)

theorem RepeatsWrites.putBytes {u s u' : State} (h : RepeatsWrites u s u') (hs : Memory.wf s.buf)
    (hu : Memory.wf u'.buf) (bytes : List Byte) : RepeatsWrites u (s.putBytes 0 bytes) (u'.putBytes 0 bytes) where
  reads r := by
    by_cases hr : ∃ i : Fin 16, r = .buf i ∧ i.val < bytes.length
    · obtain ⟨i, rfl, hi⟩ := hr
      have hs' := State.putBytes_bufByte_same hs 0 bytes i hi
      have hu' := State.putBytes_bufByte_same hu 0 bytes i hi
      rw [Nat.zero_add] at hs' hu'
      exact .inr (congrArg RegVal.b8 (hu'.trans hs'.symm))
    · have hout : ∀ i : Fin 16, r = .buf i → i.val < 0 ∨ 0 + bytes.length ≤ i.val := fun i hi =>
        .inr (by rw [Nat.zero_add]; exact Nat.not_lt.mp fun hlt => hr ⟨i, hi, hlt⟩)
      rw [regRead_putBytes_other u' 0 bytes hout, regRead_putBytes_other s 0 bytes hout]
      exact h.reads r
  specified n hn := by
    rw [State.mem_putBytes_specified] at hn ⊢
    exact hn.elim (fun hin => .inr (.inl hin)) fun hn => (h.specified n hn).imp_right .inr
  kept n hn := (State.mem_putBytes_specified _ _ _ _).mpr (.inr (h.kept n hn))
  readPort := by simpa using h.readPort
  pending := by simpa using h.pending

theorem RepeatsWrites.effect {u s u' : State} (h : RepeatsWrites u s u') (hs : Memory.wf s.buf)
    (hu : Memory.wf u'.buf) (e : Effect) : RepeatsWrites u (e.apply s) (e.apply u') := by
  cases e with
  | fails r => exact h.raise r
  | result v => exact (h.write (s.putResult_writesOnly v) (u'.putResult_writesOnly v)).raise .ok
  | count n => exact (h.write (s.putCount_writesOnly n) (u'.putCount_writesOnly n)).raise .ok
  | token bytes n =>
    exact ((h.putBytes hs hu bytes).write (State.putCount_writesOnly n _) (State.putCount_writesOnly n _)).raise .ok
  | decoded v n =>
    have hresult := h.write (s.putResult_writesOnly v) (u'.putResult_writesOnly v)
    exact (hresult.write (State.putCount_writesOnly n _) (State.putCount_writesOnly n _)).raise .ok

/-- Writes repeated on a state that reads as the one they led to change nothing. -/
theorem RepeatsWrites.eq_self {u s u' : State} (h : RepeatsWrites u s u') (hu : u.Inv) (hu' : u'.Inv)
    (hreads : ∀ r, regRead r s = regRead r u) (hspec : s.specified = u.specified) : u' = u := by
  refine State.ext_of_reads u' u hu'.buf hu.buf hu'.specified.1 hu.specified.1 (fun r => ?_)
    (fun n => ⟨fun hn => ?_, h.kept n⟩) h.readPort h.pending
  · exact (h.reads r).elim id fun hr => hr.trans (hreads r)
  · exact (h.specified n hn).elim id fun hn => hspec ▸ hn

/-! ### Commands repeated -/

/-- The encodes read VALUE and LEN only (R55). -/
theorem bufNum_notMem_commandReads {i : Instr} (hi : i = .vl64Enc ∨ i = .b64Enc) (s : State) (a : Nat) :
    0x10 + a ∉ commandReads i s := by
  have hmem : ∀ n ∈ commandReads i s, n = 0x01 ∨ n = 0x02 := by
    rcases hi with rfl | rfl
    · simp [commandReads]
    · rw [commandReads]
      split <;> simp
  intro ha
  have := hmem _ ha
  omega

/-- A command leaves the registers it reads as they were: what it writes of BUF, it does not read. -/
theorem CommandEnds.readsAlike {i : Instr} {s t : State} (h : CommandEnds i s t) :
    ReadsAlike (commandReads i s) s t where
  value _ := h.keepsInputs.value
  len _ := h.keepsInputs.len
  buf a ha := h.bufByte_eq (.inr ⟨fun hi => bufNum_notMem_commandReads (.inl hi) s a ha,
    fun hi => bufNum_notMem_commandReads (.inr hi) s a ha⟩) a

/-- A command word written again, after reads, repeats the writes of the first time. -/
theorem runCommand_repeatsWrites {c : Byte} {s t : State} (hs : s.Inv) (ht : runCommand c s = .next t)
    (port : Option RegVal) :
    ∃ u', runCommand c { t with readPort := port } = .next u' ∧ RepeatsWrites { t with readPort := port } t u' := by
  have htInv := runCommand_inv hs ht
  have hput := (RepeatsWrites.refl s { t with readPort := port }).write (s.putCmd_writesOnly c)
    (State.putCmd_writesOnly c _)
  unfold runCommand at ht ⊢
  cases hc : decodeCmd c with
  | error e =>
    rw [hc] at ht
    cases ht
    exact ⟨_, rfl, hput.raise .illegalCmd⟩
  | ok i =>
    rw [hc] at ht
    have halike := (commandEnds_of_exec ht).readsAlike
    obtain ⟨e, -, hes, heu⟩ := exec_effect (u := { t with readPort := port }.putCmd c)
      ⟨halike.value, halike.len, halike.buf⟩
    cases hes.symm.trans ht
    exact ⟨_, heu, hput.effect hs.buf htInv.buf e⟩

/-! ### Host writes repeated -/

/-- A write to a register other than CMD, where it is not refused, writes that register alone or is ignored, in every
state. -/
theorem HostStepEnds.write_cases {s t : State} {r : Reg} {v : RegVal} (h : HostStepEnds s (.write r v) t)
    (hr : r ≠ .cmd) :
    (∀ u : State, Memory.wf u.buf → ∃ u', runHostStep (.write r v) u = .next u' ∧ WritesOnly r v u u') ∨
      ∀ u, runHostStep (.write r v) u = .next u := by
  cases h with
  | command c => exact absurd rfl hr
  | value w => exact .inl fun u hu => runHostStep_write_writesOnly hu (.inl rfl) rfl
  | len n => exact .inl fun u hu => runHostStep_write_writesOnly hu (.inr (.inl rfl)) rfl
  | buf i b => exact .inl fun u hu => runHostStep_write_writesOnly hu (.inr (.inr ⟨i, rfl⟩)) rfl
  | ignored _ _ _ hw => exact .inr hw

theorem runHostStep_write_others {s t : State} {r : Reg} {v : RegVal} (hs : Memory.wf s.buf) (hr : r ≠ .cmd)
    (ht : runHostStep (.write r v) s = .next t) (r' : Reg) (hr' : r' ≠ r) : regRead r' t = regRead r' s := by
  rcases (hostStepEnds_of_next ht).write_cases hr with hwrites | hignored
  · obtain ⟨t', ht', hwrites⟩ := hwrites s hs
    cases ht'.symm.trans ht
    exact hwrites.others r' hr'
  · cases (hignored s).symm.trans ht
    rfl

/-- A host write done again after reads, of CMD or of another register, repeats the writes of the first time. -/
theorem runHostStep_write_repeatsWrites {s t : State} {r : Reg} {v : RegVal} (hs : s.Inv)
    (ht : runHostStep (.write r v) s = .next t) (port : Option RegVal) :
    ∃ u', runHostStep (.write r v) { t with readPort := port } = .next u' ∧
      RepeatsWrites { t with readPort := port } t u' := by
  have hends := hostStepEnds_of_next ht
  by_cases hr : r = .cmd
  · subst hr
    cases hends with
    | command c _ hrun =>
      rw [runHostStep_write_cmd]
      exact runCommand_repeatsWrites hs hrun port
    | ignored _ _ hne => exact absurd rfl hne
  · rcases hends.write_cases hr with hwrites | hignored
    · obtain ⟨t', ht', hst⟩ := hwrites s hs.buf
      cases ht'.symm.trans ht
      obtain ⟨u', hu', huu'⟩ := hwrites { t with readPort := port } (hends.inv hs).buf
      exact ⟨u', hu', (RepeatsWrites.refl s _).write hst huu'⟩
    · exact ⟨_, hignored _, .refl t _⟩

/-- Reads change what the host read last, and nothing else. -/
theorem foldl_hostRead_eq (rs : List Reg) (s : State) :
    ∃ port, rs.foldl (fun u r => hostRead r u) s = { s with readPort := port } := by
  induction rs generalizing s with
  | nil => exact ⟨s.readPort, rfl⟩
  | cons r rs ih => exact ih (hostRead r s)

theorem runHostStep_write_again {s t : State} {r : Reg} {v : RegVal} (hs : s.Inv)
    (ht : runHostStep (.write r v) s = .next t) (port : Option RegVal) :
    runHostStep (.write r v) { t with readPort := port } = .next { t with readPort := port } := by
  have htInv := (hostStepEnds_of_next ht).inv hs
  have huInv : { t with readPort := port }.Inv := htInv.withInputs _ _ port _
  obtain ⟨u', hu', hrepeats⟩ := runHostStep_write_repeatsWrites hs ht port
  have hu'Inv := (hostStepEnds_of_next hu').inv huInv
  rw [hu', hrepeats.eq_self huInv hu'Inv (fun r' => by cases r' <;> rfl) rfl]

/-- Settles O42: a write repeated writes the same values into the same registers, which hold them already. For a command
that is so because it leaves the registers it reads as they were. -/
theorem repeatedWritesChangeNothingMore : Obligations.RepeatedWritesChangeNothingMore := by
  intro s hs
  refine ⟨fun r r' => regRead_hostRead r r' s, fun r v t => runHostStep_write_others hs.buf,
    fun r v t between ht => ?_⟩
  obtain ⟨port, hport⟩ := foldl_hostRead_eq between t
  rw [hport]
  exact runHostStep_write_again hs ht port

end Sys2Proof.Machine
end

section
/-! PROOFS. The command words (R80 to R82): `decodeCmd` answers in one of three ways, and `encode` is its inverse. -/

namespace Sys2Proof

theorem rsvField_eq_zero_iff {c : Byte} : rsvField c = 0#5 ↔ c.toNat < 0x08 := by
  have := c.isLt
  rw [rsvField, ← BitVec.toNat_inj, BitVec.extractLsb'_toNat, Nat.shiftRight_eq_div_pow]
  simp only [BitVec.toNat_ofNat]
  omega

theorem decodeCmd_of_ge {c : Byte} (h : 0x08 ≤ c.toNat) : decodeCmd c = .error .reservedBits :=
  if_pos fun hrsv => Nat.not_lt.mpr h (rsvField_eq_zero_iff.mp hrsv)

@[simp] theorem decodeCmd_encode (i : Instr) : decodeCmd (encode i) = .ok i := by
  cases i <;> rfl

/-- The three answers of the decoder: a reserved bit set, OP = 0, or a command and its word (R82). -/
theorem decodeCmd_cases (c : Byte) :
    (0x08 ≤ c.toNat ∧ decodeCmd c = .error .reservedBits) ∨ (c.toNat = 0 ∧ decodeCmd c = .error .opZero) ∨
      ∃ i, c = encode i ∧ decodeCmd c = .ok i := by
  by_cases h : 0x08 ≤ c.toNat
  · exact .inl ⟨h, decodeCmd_of_ge h⟩
  · have hword : ∀ i, c.toNat = (encode i).toNat → ∃ i, c = encode i ∧ decodeCmd c = .ok i := fun i hi =>
      ⟨i, BitVec.eq_of_toNat_eq hi, by rw [BitVec.eq_of_toNat_eq hi, decodeCmd_encode]⟩
    right
    interval_cases hc : c.toNat
    · exact .inl ⟨rfl, by rw [show c = 0#8 from BitVec.eq_of_toNat_eq hc]; rfl⟩
    · exact .inr (hword .sxChk rfl)
    · exact .inr (hword .vl64Enclen rfl)
    · exact .inr (hword .vl64Enc rfl)
    · exact .inr (hword .vl64Declen rfl)
    · exact .inr (hword .vl64Dec rfl)
    · exact .inr (hword .b64Enc rfl)
    · exact .inr (hword .b64Dec rfl)

/-- Settles O1: each word of the map is its command's encoding. -/
theorem decodesTheOpcodeMapWords : Obligations.DecodesTheOpcodeMapWords :=
  ⟨decodeCmd_encode .sxChk, decodeCmd_encode .vl64Enclen, decodeCmd_encode .vl64Enc, decodeCmd_encode .vl64Declen,
    decodeCmd_encode .vl64Dec, decodeCmd_encode .b64Enc, decodeCmd_encode .b64Dec, rfl, decodeCmd_of_ge (by decide), rfl⟩

/-- Settles O2: the decoder's three answers exclude each other, so each is given exactly under its own condition. -/
theorem eachCommandHasExactlyOneWord : Obligations.EachCommandHasExactlyOneWord := by
  refine ⟨fun i c => ⟨fun h => ?_, fun h => h ▸ decodeCmd_encode i⟩, fun c => ⟨fun h => ?_, decodeCmd_of_ge⟩,
    fun c => ⟨fun h => ?_, fun h => ?_⟩⟩
  · rcases decodeCmd_cases c with ⟨-, hc⟩ | ⟨-, hc⟩ | ⟨j, hj, hc⟩
    · cases hc.symm.trans h
    · cases hc.symm.trans h
    · cases hc.symm.trans h
      exact hj
  · rcases decodeCmd_cases c with ⟨hge, -⟩ | ⟨-, hc⟩ | ⟨j, -, hc⟩
    · exact hge
    · cases hc.symm.trans h
    · cases hc.symm.trans h
  · rcases decodeCmd_cases c with ⟨-, hc⟩ | ⟨hzero, -⟩ | ⟨j, -, hc⟩
    · cases hc.symm.trans h
    · exact hzero
    · cases hc.symm.trans h
  · rw [show c = 0#8 from BitVec.eq_of_toNat_eq h]
    rfl

end Sys2Proof
end

section
/-! PROOFS. Sextet bytes and VL64 headers as numbers (R70, R72, R74): each field of a byte by division and remainder. -/

namespace Sys2Proof.Machine

/-! ### The fields of a byte -/

theorem isSextet_iff_toNat_div {b : Byte} : IsSextet b ↔ b.toNat / 64 = 1 := by
  rw [IsSextet, ← BitVec.toNat_inj, BitVec.extractLsb'_toNat, Nat.shiftRight_eq_div_pow]
  have := b.isLt
  simp only [BitVec.toNat_ofNat]
  omega

theorem payload_lt (b : Byte) : payload b < 64 := (b.extractLsb' 0 6).isLt

theorem payload_eq_toNat_mod (b : Byte) : payload b = b.toNat % 64 := by
  simp [payload]

theorem lengthField_eq_toNat (h : Byte) : (h.extractLsb' 3 3).toNat = h.toNat / 8 % 8 := by
  rw [BitVec.extractLsb'_toNat, Nat.shiftRight_eq_div_pow]

theorem signField_eq_toNat (h : Byte) : (h.extractLsb' 2 1).toNat = h.toNat / 4 % 2 := by
  rw [BitVec.extractLsb'_toNat, Nat.shiftRight_eq_div_pow]

theorem lowField_eq_toNat (h : Byte) : (h.extractLsb' 0 2).toNat = h.toNat % 4 := by
  rw [BitVec.extractLsb'_toNat, Nat.shiftRight_zero]

/-- The marker test by number (R70). -/
theorem isSextet_iff_range {b : Byte} : IsSextet b ↔ 0x40 ≤ b.toNat ∧ b.toNat ≤ 0x7F := by
  rw [isSextet_iff_toNat_div]
  omega

/-- Settles O15: bits 7:6 are the quotient by 0x40 and the payload is the remainder. -/
theorem sextetBytesAreExactly40To7F : Obligations.SextetBytesAreExactly40To7F := by
  refine fun b => ⟨isSextet_iff_range, fun hb => ?_, fun hb => ?_⟩
  · refine ⟨_, sextetCheck_eq_ok (isSextet_iff_range.mpr hb), rfl, ?_⟩
    rw [payload_eq_toNat_mod]
    omega
  · exact sextetCheck_eq_error fun hm => by
      have := isSextet_iff_range.mp hm
      omega

/-- Settles O16: the three answers of the header decoder, with the marker and the length field as numbers. -/
theorem legalHeadersAreExactly48To77 : Obligations.LegalHeadersAreExactly48To77 := by
  intro h
  have hlen := lengthField_eq_toNat h
  refine ⟨fun hr => ?_, fun hr => ?_, fun hr => ?_⟩
  · refine ⟨_, vl64Header_eq_ok (isSextet_iff_range.mpr (by omega)) (by omega) (by omega), ?_⟩
    rw [hlen, signField_eq_toNat, lowField_eq_toNat]
    omega
  · exact vl64Header_eq_invalidLength (isSextet_iff_range.mpr (by omega)) (by omega)
  · exact vl64Header_eq_invalidHighBits fun hm => by
      have := isSextet_iff_range.mp hm
      omega

end Sys2Proof.Machine
end

section
/-! PROOFS. The value of a VL64 token (R79, R113, R114): the accumulator's magnitude is the sum of the chunks in their
places, and VL64.DEC returns it with the sign. -/

namespace Sys2Proof.Machine

/-! ### The magnitude -/

/-- The next byte's chunk comes above the magnitude so far, so nothing is lost while it fits in 32 bits. -/
theorem add_chunk_toNat {k : Nat} {m : BitVec 32} (hm : m.toNat < 2 ^ (2 + 6 * k)) (hk : k < 5) (b : Byte) :
    (m + (zext 32 (b.extractLsb' 0 6) <<< (2 + 6 * k))).toNat = m.toNat + payload b * 2 ^ (2 + 6 * k) ∧
      m.toNat + payload b * 2 ^ (2 + 6 * k) < 2 ^ (2 + 6 * (k + 1)) := by
  have hsum : m.toNat + payload b * 2 ^ (2 + 6 * k) < 2 ^ (2 + 6 * (k + 1)) := by
    have hp := Nat.mul_le_mul_right (2 ^ (2 + 6 * k)) (Nat.le_of_lt_succ (payload_lt b))
    have hpow : 2 ^ (2 + 6 * (k + 1)) = 2 ^ (2 + 6 * k) * 64 := Nat.pow_add 2 (2 + 6 * k) 6
    omega
  have hle : 2 ^ (2 + 6 * (k + 1)) ≤ 2 ^ 32 := Nat.pow_le_pow_right (by omega) (by omega)
  have hzext : (zext 32 (b.extractLsb' 0 6)).toNat = payload b := BitVec.toNat_setWidth_of_le (by omega)
  refine ⟨?_, hsum⟩
  rw [BitVec.toNat_add, BitVec.toNat_shiftLeft, hzext, Nat.shiftLeft_eq, Nat.add_mod_mod, Nat.mod_eq_of_lt (by omega)]

/-- The accumulator over `n` sextet bytes, continuation byte `k + 1` the first of them: the exact sum (R113). -/
theorem accumulateFrom_range {k n : Nat} {m : BitVec 32} {f : Nat → Byte} (hf : ∀ j < n, IsSextet (f j))
    (hm : m.toNat < 2 ^ (2 + 6 * k)) (hn : k + n ≤ 5) :
    ∃ m', accumulateFrom (k + 1) m ((List.range n).map f) = .ok m' ∧
      m'.toNat = m.toNat + ∑ j ∈ Finset.range n, payload (f j) * 2 ^ (2 + 6 * (k + j)) := by
  induction n generalizing k m f with
  | zero => exact ⟨m, rfl, by simp⟩
  | succ n ih =>
    obtain ⟨hadd, hlt⟩ := add_chunk_toNat hm (by omega) (f 0)
    obtain ⟨m', hacc, hsum⟩ := ih (k := k + 1) (f := fun j => f (j + 1)) (fun j hj => hf (j + 1) (by omega))
      (hadd ▸ hlt) (by omega)
    refine ⟨m', ?_, ?_⟩
    · rw [List.range_succ_eq_map, List.map_cons, List.map_map, accumulateFrom, sextetCheck_eq_ok (hf 0 (by omega))]
      exact hacc
    · rw [hsum, hadd, Finset.sum_range_succ', Nat.add_assoc, Nat.add_comm (payload (f 0) * _)]
      simp only [Nat.add_assoc, Nat.add_comm 1, Nat.add_zero]

/-- The magnitude of a token of length `len`, its continuation bytes at BUF[1] (R79). -/
theorem vl64Accumulate_tokenTail {s : State} {len : Nat} (hlen : len ≤ 6)
    (hs : ∀ k, 1 ≤ k → k < len → IsSextet (s.bufByte k)) (low : BitVec 2) :
    ∃ m, vl64Accumulate (tokenTail s len) low = .ok m ∧
      m.toNat = low.toNat + ∑ k ∈ Finset.range (len - 1), payload (s.bufByte (k + 1)) * 2 ^ (2 + 6 * k) := by
  have hlow : (zext 32 low).toNat = low.toNat := BitVec.toNat_setWidth_of_le (by omega)
  obtain ⟨m, hacc, hsum⟩ := accumulateFrom_range (k := 0) (n := len - 1) (m := zext 32 low)
    (f := fun j => s.bufByte (1 + j)) (fun j hj => hs (1 + j) (by omega) (by omega)) (hlow ▸ low.isLt) (by omega)
  refine ⟨m, hacc, ?_⟩
  rw [hsum, hlow]
  simp only [Nat.zero_add, Nat.add_comm 1]

/-! ### The sign -/

theorem vl64Value_toInt (sign : BitVec 1) (m : BitVec 32) :
    (vl64Value sign m).toInt = if sign = 1#1 then -(m.toNat : Int) else (m.toNat : Int) := by
  have hm := m.isLt
  unfold vl64Value twos64
  split <;> exact BitVec.toInt_ofInt_eq_self (by omega) (by omega) (by omega)

/-- A header's sign field is its bit 2 (R72). -/
theorem signField_eq_one_iff (h : Byte) : h.extractLsb' 2 1 = 1#1 ↔ h.getLsbD 2 = true := by
  decide +revert

/-! ### VL64.DEC -/

/-- Settles O26: the header is legal, the accumulator sums the chunks, and the sign is applied without loss. -/
theorem vl64DecReturnsTheTokenValue : Obligations.Vl64DecReturnsTheTokenValue := by
  rintro s l m rfl h1 h6 hl h16 hs rfl
  have hhead := vl64Header_eq_ok (hs 0 h1) h1 h6
  obtain ⟨mag, hacc, hmag⟩ := vl64Accumulate_tokenTail h6 (fun k _ => hs k) ((s.bufByte 0).extractLsb' 0 2)
  refine ⟨_, execVl64Dec_ok s h16 hhead hl hacc, ?_, ?_, ?_, ?_, ?_⟩
  · exact ⟨by rw [State.raise_status, statusWord_ok], by simp, by constructor <;> simp⟩
  · rw [State.raise_count, State.putCount_count, zext_len_toNat]
    rfl
  · exact fun a => by simp
  · exact hmag ▸ mag.isLt
  · rw [State.raise_result, State.putCount_result, State.putResult_result, vl64Value_toInt, hmag]
    simp only [signField_eq_one_iff]

end Sys2Proof.Machine
end

section
/-! PROOFS. B64 tokens (R77, R86): the encoder's bytes are sextet bytes that carry the value's chunks, and the decoder puts
the payloads back in the same places. -/

namespace Sys2Proof.Machine

/-! ### Chunks of the value so far -/

/-- A turn of the decoder's loop puts the new payload behind the value so far; bits 63:58 of that are lost. -/
theorem shiftLeft_add_zext (acc : Word) (p : Chunk) : (acc <<< 6) + zext 64 p = (acc ++ p).setWidth 64 := by
  apply BitVec.eq_of_toNat_eq
  rw [BitVec.toNat_setWidth, BitVec.toNat_append, ← Nat.shiftLeft_add_eq_or_of_lt p.isLt]
  simp [zext]

theorem chunk_shiftLeft_add_zero (acc : Word) (p : Chunk) : chunk ((acc <<< 6) + zext 64 p) 0 = p := by
  rw [shiftLeft_add_zext, chunk, BitVec.extractLsb'_setWidth_of_le (by omega), BitVec.extractLsb'_append_eq_right]

theorem chunk_shiftLeft_add_succ (acc : Word) (p : Chunk) {lo : Nat} (hlo : lo + 12 ≤ 64) :
    chunk ((acc <<< 6) + zext 64 p) (lo + 6) = chunk acc lo := by
  rw [shiftLeft_add_zext, chunk, BitVec.extractLsb'_setWidth_of_le (by omega),
    BitVec.extractLsb'_append_eq_of_le (by omega), Nat.add_sub_cancel, chunk]

/-! ### Decoding and encoding, byte by byte -/

theorem b64Accumulate_cons {acc v : Word} {b : Byte} {bs : List Byte} (h : b64Accumulate acc (b :: bs) = .ok v) :
    ∃ p, sextetCheck b = .ok p ∧ b64Accumulate ((acc <<< 6) + zext 64 p) bs = .ok v := by
  simp only [b64Accumulate, bind, Except.bind] at h
  cases hb : sextetCheck b with
  | ok p => exact ⟨p, rfl, by rwa [hb] at h⟩
  | error r => rw [hb] at h; cases h

/-- Decoding `n` more bytes moves the value so far up by `n` chunks. -/
theorem chunk_of_b64Accumulate {acc v : Word} {bs : List Byte} (h : b64Accumulate acc bs = .ok v) {lo : Nat}
    (hlo : lo + 6 * bs.length + 6 ≤ 64) : chunk v (lo + 6 * bs.length) = chunk acc lo := by
  induction bs generalizing acc lo with
  | nil => cases h; rfl
  | cons b bs ih =>
    obtain ⟨p, -, hrest⟩ := b64Accumulate_cons h
    rw [List.length_cons] at hlo ⊢
    calc chunk v (lo + 6 * (bs.length + 1))
      _ = chunk v (lo + 6 + 6 * bs.length) := by congr 1; omega
      _ = chunk ((acc <<< 6) + zext 64 p) (lo + 6) := ih hrest (by omega)
      _ = chunk acc lo := chunk_shiftLeft_add_succ acc p (by omega)

/-- A longer token begins with the next higher chunk. -/
theorem b64Encode_succ (v : Word) (n : Nat) : b64Encode v (n + 1) = sextetByte (chunk v (6 * n)) :: b64Encode v n := by
  rw [b64Encode, List.range_succ_eq_map, List.map_cons, List.map_map]
  refine congrArg (_ :: ·) (List.map_congr_left fun i _ => ?_)
  show sextetByte (chunk v (6 * (n + 1 - 1 - (i + 1)))) = sextetByte (chunk v (6 * (n - 1 - i)))
  congr 3
  omega

/-- A byte that passes the marker test is the sextet byte of its payload. -/
theorem sextetByte_of_sextetCheck {b : Byte} {p : Chunk} (h : sextetCheck b = .ok p) : sextetByte p = b := by
  obtain ⟨hm, rfl⟩ := sextetCheck_ok h
  have hsplit : b.extractLsb' 6 2 ++ b.extractLsb' 0 6 = b := by decide +revert
  rwa [hm] at hsplit

theorem b64Encode_of_b64Accumulate {acc v : Word} {bs : List Byte} (h : b64Accumulate acc bs = .ok v)
    (hlen : bs.length ≤ 10) : b64Encode v bs.length = bs := by
  induction bs generalizing acc with
  | nil => rfl
  | cons b bs ih =>
    obtain ⟨p, hp, hrest⟩ := b64Accumulate_cons h
    rw [List.length_cons] at hlen ⊢
    have hchunk : chunk v (6 * bs.length) = p := by
      have := chunk_of_b64Accumulate hrest (lo := 0) (by omega)
      rwa [Nat.zero_add, chunk_shiftLeft_add_zero] at this
    rw [b64Encode_succ, hchunk, sextetByte_of_sextetCheck hp, ih hrest (by omega)]

/-- Encoding a decoded token at its width gives its bytes back (R77, R86). -/
theorem b64Encode_of_b64Decode {v : Word} {bs : List Byte} (h : b64Decode bs = .ok v) (hlen : bs.length ≤ 10) :
    b64Encode v bs.length = bs :=
  b64Encode_of_b64Accumulate h hlen

/-! ### The commands -/

/-- B64.DEC that ends OK has decoded the LEN bytes at BUF[0]. -/
theorem CommandEnds.of_b64Dec_ok {s t : State} (h : CommandEnds .b64Dec s t) (hok : t.status = 0x01#8) :
    ∃ v, s.len.toNat ≤ 10 ∧ b64Decode ((List.range s.len.toNat).map fun j => s.bufByte j) = .ok v ∧
      t = ((s.putResult v).putCount (BitVec.ofNat 4 s.len.toNat)).raise .ok := by
  cases h with
  | bad r hr => exact absurd hok (State.raise_status_ne_ok hr)
  | b64Dec _ hl v hv => exact ⟨v, hl, hv, rfl⟩
  | sxChk hi | enclen hi | enc hi | declen hi | dec hi | b64Enc hi => cases hi

/-- Bytes that BUF holds already, none of them what an unlisted index reads as, leave BUF as it reads. -/
theorem State.putBytes_bufByte_of_read {s : State} {n : Nat}
    (hb : ∀ b ∈ (List.range n).map s.bufByte, b ≠ Config.unlistedByte) (a : Nat) :
    (s.putBytes 0 ((List.range n).map s.bufByte)).bufByte a = s.bufByte a := by
  by_cases ha : a < n
  · have hsame := State.putBytes_bufByte_same_of_ne s 0 _ hb a (by simpa using ha)
    simpa using hsame
  · exact State.putBytes_bufByte_other s 0 _ a (.inr (by simpa using ha))

/-- B64.ENC of a value whose token BUF holds already ends OK and leaves BUF as it reads. -/
theorem execB64Enc_of_token {s : State} (hl : s.len.toNat ≤ 10)
    (htoken : b64Encode s.value s.len.toNat = (List.range s.len.toNat).map s.bufByte) :
    ∃ t, execB64Enc s = .next t ∧ t.status = 0x01#8 ∧ t.count = BitVec.ofNat 4 s.len.toNat ∧
      ∀ a, t.bufByte a = s.bufByte a := by
  have hne := b64Encode_ne_unlisted s.value s.len.toNat
  have hexec := execB64Enc_ok s hl
  rw [htoken] at hne hexec
  exact ⟨_, hexec, by rw [State.raise_status, statusWord_ok], by simp,
    fun a => by simpa using State.putBytes_bufByte_of_read hne a⟩

/-- Settles O46: the decoded value's token is the bytes B64.DEC read, so B64.ENC writes what is there already. -/
theorem b64ReencodingATokenGivesIt : Obligations.B64ReencodingATokenGivesIt := by
  intro s t hexec hok
  obtain ⟨v, hl, hv, rfl⟩ := (commandEnds_of_exec hexec).of_b64Dec_ok hok
  have htoken : b64Encode v s.len.toNat = (List.range s.len.toNat).map s.bufByte := by
    simpa using b64Encode_of_b64Decode hv (by simpa using hl)
  obtain ⟨u, hu, hstatus, hcount, hbuf⟩ :=
    execB64Enc_of_token (s := State.putValue v (((s.putResult v).putCount (BitVec.ofNat 4 s.len.toNat)).raise .ok))
      hl htoken
  exact ⟨u, hu, hstatus, hcount, hbuf⟩

end Sys2Proof.Machine
end

section
/-! PROOFS. Pseudo-instructions (R85): a well-formed line assembles to the host steps of its expansion. -/

namespace Sys2Proof

/-- A literal from 0 up to a register's width fits it (R84). -/
theorem Reg.fits_of_nonneg {r : Reg} {w : Nat} {v : Int} (hr : r.width = some w) (h0 : 0 ≤ v) (hv : v < 2 ^ w) :
    r.fits v = true := by
  simp [Reg.fits, hr, h0, hv]

/-- VALUE takes a negative literal too (R84). -/
theorem Reg.fits_value {v : Int} (h0 : -2 ^ 63 ≤ v) (hv : v < 2 ^ 64) : Reg.fits .value v = true := by
  simp [Reg.fits, Reg.width]
  omega

end Sys2Proof

namespace Sys2Proof.Machine

theorem assembleLine_of_wf {l : AsmLine} (h : l.wf = true) :
    assembleLine l = some ((expandLine l).flatMap lineSteps) :=
  if_pos h

/-- `ldbuf` writes its bytes to successive bytes of BUF. -/
theorem ldbufLines_flatMap_lineSteps (i : Nat) (bytes : List Int) :
    (ldbufLines i bytes).flatMap lineSteps =
      bytes.mapIdx fun j b => .write (.buf (Fin.ofNat 16 (i + j))) (.b8 (BitVec.ofInt 8 b)) := by
  induction bytes generalizing i with
  | nil => rfl
  | cons b rest ih =>
    rw [ldbufLines, List.flatMap_cons, ih, List.mapIdx_cons]
    simp only [Nat.add_assoc, Nat.add_comm 1]
    rfl

theorem assembleLine_ldbuf {bytes : List Int} (h1 : 1 ≤ bytes.length) (h16 : bytes.length ≤ 16)
    (hb : ∀ b ∈ bytes, 0 ≤ b ∧ b < 256) :
    assembleLine (.ldbuf bytes) =
      some (bytes.mapIdx fun j b => .write (.buf (Fin.ofNat 16 j)) (.b8 (BitVec.ofInt 8 b))) := by
  have hfits : ∀ b ∈ bytes, Reg.fits (.buf 0) b = true := fun b hmem =>
    Reg.fits_of_nonneg rfl (hb b hmem).1 (hb b hmem).2
  have hne : bytes ≠ [] := List.ne_nil_of_length_pos h1
  rw [assembleLine_of_wf (by simpa [AsmLine.wf, hne, h16] using hfits)]
  simp [expandLine, ldbufLines_flatMap_lineSteps]

/-- Settles O48: the literals fit, so each line assembles to the writes of its expansion. -/
theorem pseudoInstructionsExpandAsTabled : Obligations.PseudoInstructionsExpandAsTabled := by
  refine ⟨fun v h0 hv => ?_, fun n h0 hn => ?_, fun n v hn0 hn h0 hv => ?_, fun bs h1 h16 hb => ?_⟩
  · have hfits := Reg.fits_value h0 hv
    exact ⟨assembleLine_of_wf hfits, assembleLine_of_wf hfits⟩
  · have hfits : Reg.fits .len n = true := Reg.fits_of_nonneg rfl h0 hn
    exact ⟨assembleLine_of_wf hfits, assembleLine_of_wf hfits⟩
  · have hlen : Reg.fits .len n = true := Reg.fits_of_nonneg rfl hn0 hn
    exact assembleLine_of_wf (l := .b64Put n v) (by rw [AsmLine.wf, hlen, Reg.fits_value h0 hv]; rfl)
  · refine ⟨_, assembleLine_ldbuf h1 h16 hb, List.length_mapIdx, fun i b hi => ?_⟩
    rw [List.getElem?_mapIdx, hi]
    simp

end Sys2Proof.Machine
end

section
/-! PROOFS. The sextet byte validator and the header decoder as ports (R100, R110), and SX.CHK (R103). -/

namespace Sys2Proof.Machine

/-! ### The ends of a command as frames (R202) -/

/-- A status other than OK writes STATUS, ERRBYTE where it carries a byte, and nothing else. -/
theorem State.raise_endsWith {r : Raise} {word : Byte} (hword : statusWord r = word) (s : State) :
    EndsWith word r.info s (s.raise r) where
  status := (s.raise_status r).trans hword
  errByte := s.raise_errByte r
  result := s.raise_result r
  count := s.raise_count r
  inputs := ⟨s.raise_cmd r, s.raise_value r, s.raise_len r, s.raise_readPort r, s.raise_pending r⟩
  buf := s.raise_bufByte r

/-- A command that ends OK leaves ERRBYTE, its inputs and the host's side as they were. -/
theorem CommandEnds.endsOk {i : Instr} {s t : State} (h : CommandEnds i s t) (hok : t.status = 0x01#8) :
    EndsOk s t where
  status := hok
  errByte := h.errByte.2 (by rw [hok]; decide)
  inputs := h.keepsInputs

/-! ### SX.CHK -/

theorem exec_sxChk_of_isSextet {s : State} (h : IsSextet (s.bufByte 0)) :
    exec .sxChk s = .next ((s.putResult (zext 64 ((s.bufByte 0).extractLsb' 0 6))).raise .ok) := by
  rw [exec, execSxChk_eq, sextetCheck_eq_ok h]

theorem exec_sxChk_of_not_isSextet {s : State} (h : ¬ IsSextet (s.bufByte 0)) :
    exec .sxChk s = .next (s.raise (.invalidHighBits (s.bufByte 0))) := by
  rw [exec, execSxChk_eq, sextetCheck_eq_error h]

theorem zext_chunk_toNat (p : Chunk) : (zext 64 p).toNat = p.toNat :=
  BitVec.toNat_setWidth_of_le (by omega)

/-- The next step reads what the pending command reads. -/
theorem stepReads_of_pending_command {s : State} {c : Byte} {i : Instr} {rest : List HostStep}
    (hp : s.pending = .write .cmd (.b8 c) :: rest) (hc : decodeCmd c = .ok i) : stepReads s = commandReads i s := by
  rw [stepReads, hp]
  exact hostStepReads_of_legal hc s

/-- A BUF byte that is not in the record of R35 holds no value. -/
theorem holdsValue_buf_eq_false {s : State} {a : Nat} (h : 0x10 + a ∉ s.specified) :
    holdsValue s (0x10 + a) = false := by
  have hreserved : ¬ 0x10 + a ≤ 0x0F := by omega
  simp [holdsValue, h, hreserved]

/-- Settles O22: the marker test of BUF[0] decides between the two ends, and BUF[0] is all that SX.CHK reads. -/
theorem sxChkTestsTheFirstByte : Obligations.SxChkTestsTheFirstByte := by
  refine ⟨rfl, fun s h => ?_, fun s h => ?_, fun s rest hp hspec => strictStep_of_unspecified ?_⟩
  · have hexec := exec_sxChk_of_isSextet h
    refine ⟨_, hexec, (commandEnds_of_exec hexec).endsOk ?_, ?_, by simp, fun a => by simp⟩
    · rw [State.raise_status, statusWord_ok]
    · rw [State.raise_result, State.putResult_result, zext_chunk_toNat, payload]
  · exact ⟨_, exec_sxChk_of_not_isSextet h,
      State.raise_endsWith ((statusWord_eq_invalidHighBits_iff _).mpr ⟨_, rfl⟩) s⟩
  · have hheld := holdsValue_buf_eq_false (a := 0) hspec
    rw [stepReads_of_pending_command hp (decodeCmd_encode .sxChk), commandReads, firstUnspecified,
      if_neg (by simp [hheld])]

/-! ### The ports of the validator and of the header decoder -/

theorem sextetPorts_ok_of_not_isSextet {b : Byte} (h : ¬ IsSextet b) : (sextetPorts b).ok = 0#1 := if_neg h

theorem sextetPorts_ok_eq_one_iff {b : Byte} : (sextetPorts b).ok = 1#1 ↔ IsSextet b := by
  by_cases h : IsSextet b
  · exact iff_of_true (if_pos h) h
  · exact iff_of_false (by rw [sextetPorts_ok_of_not_isSextet h]; decide) h

/-- The lengths that no token has are 0 and 7 (R74). -/
theorem illegalLength_iff {len : BitVec 3} : (len = 0#3 ∨ len = 7#3) ↔ (len.toNat < 1 ∨ 6 < len.toNat) := by
  decide +revert

theorem headerPorts_err_of_not_isSextet {h : Byte} (hm : ¬ IsSextet h) : (headerPorts h).err = 1#2 :=
  if_pos (sextetPorts_ok_of_not_isSextet hm)

theorem headerPorts_err_of_isSextet {h : Byte} (hm : IsSextet h) :
    (headerPorts h).err =
      if (h.extractLsb' 3 3).toNat < 1 ∨ 6 < (h.extractLsb' 3 3).toNat then 2#2 else 0#2 := by
  have hok : (sextetPorts h).ok ≠ 0#1 := by rw [sextetPorts_ok_eq_one_iff.mpr hm]; decide
  rw [headerPorts, if_neg hok]
  simp only [illegalLength_iff]

/-- Settles O17: the ports and the unit make the same two tests in the same order, and the other ports are slices. -/
theorem headerPortsAgreeWithTheUnit : Obligations.HeaderPortsAgreeWithTheUnit := by
  refine fun h => ⟨sextetPorts_ok_eq_one_iff, fun p hp => ?_, rfl, ?_⟩
  · obtain ⟨-, rfl⟩ := sextetCheck_ok hp
    exact ⟨rfl, rfl⟩
  · by_cases hm : IsSextet h
    · by_cases hl : (h.extractLsb' 3 3).toNat < 1 ∨ 6 < (h.extractLsb' 3 3).toNat
      · rw [vl64Header_eq_invalidLength hm hl]
        exact ⟨(headerPorts_err_of_isSextet hm).trans (if_pos hl), rfl⟩
      · rw [vl64Header_eq_ok hm (by omega) (by omega)]
        exact ⟨(headerPorts_err_of_isSextet hm).trans (if_neg hl), rfl, rfl, rfl⟩
    · rw [vl64Header_eq_invalidHighBits hm]
      exact ⟨headerPorts_err_of_not_isSextet hm, rfl⟩

end Sys2Proof.Machine
end

section
/-! PROOFS. The encoded length (R122, R123): a length holds a magnitude exactly when it is at least the encoded length. -/

namespace Sys2Proof.Machine

theorem bitlen_le_iff {m k : Nat} : bitlen m ≤ k ↔ m < 2 ^ k :=
  ⟨fun h => (le_two_pow_bitlen m).trans_le (Nat.pow_le_pow_right (by omega) h), bitlen_le m k⟩

/-- The length `k + 1` has a capacity of `2 + 6k` bits (R123). -/
theorem vl64EncodedLength_le_iff {m k : Nat} : vl64EncodedLength m ≤ k + 1 ↔ m < 2 ^ (2 + 6 * k) := by
  rw [← bitlen_le_iff, vl64EncodedLength]
  omega

theorem vl64EncodedLength_pos (m : Nat) : 1 ≤ vl64EncodedLength m := by
  unfold vl64EncodedLength
  omega

/-- A magnitude fits the capacity of its encoded length (R123). -/
theorem lt_capacity (m : Nat) : m < 2 ^ (2 + 6 * (vl64EncodedLength m - 1)) := by
  have := vl64EncodedLength_pos m
  exact vl64EncodedLength_le_iff.mp (by omega)

/-- A length above 1 is the encoded length exactly between two capacities. -/
theorem vl64EncodedLength_eq_iff {m k : Nat} :
    vl64EncodedLength m = k + 2 ↔ 2 ^ (2 + 6 * k) ≤ m ∧ m < 2 ^ (2 + 6 * (k + 1)) := by
  have hshort := vl64EncodedLength_le_iff (m := m) (k := k)
  have hlong := vl64EncodedLength_le_iff (m := m) (k := k + 1)
  omega

theorem magnitude_neg (v : Word) : magnitude (-v) = magnitude v := by
  rw [magnitude, intOf, BitVec.toInt_neg_eq_ite]
  split
  · rfl
  · exact Int.natAbs_neg _

/-- Settles O20: each row's ends are the capacities of two neighbouring lengths. -/
theorem encodedLengthTableByMagnitude : Obligations.EncodedLengthTableByMagnitude := by
  refine fun m => ⟨rfl, fun h => ?_, fun h => vl64EncodedLength_eq_iff.mpr (by omega),
    fun h => vl64EncodedLength_eq_iff.mpr (by omega), fun h => vl64EncodedLength_eq_iff.mpr (by omega),
    fun h => vl64EncodedLength_eq_iff.mpr (by omega), fun h => vl64EncodedLength_eq_iff.mpr (by omega)⟩
  exact Nat.le_antisymm (vl64EncodedLength_le_iff (k := 0).mpr (by omega)) (vl64EncodedLength_pos m)

/-- Settles O21: the lengths that hold a magnitude are those from the encoded length up. -/
theorem encodedLengthIsLeastAndMonotone : Obligations.EncodedLengthIsLeastAndMonotone := by
  have hleast : ∀ m l : Nat, 1 ≤ l → m < 2 ^ (2 + 6 * (l - 1)) → vl64EncodedLength m ≤ l := fun m l hl hm => by
    have := vl64EncodedLength_le_iff.mpr hm
    omega
  refine ⟨fun m => ?_, lt_capacity, hleast, fun m n hmn => ?_, fun v => by rw [magnitude_neg]⟩
  · unfold vl64EncodedLength
    split <;> omega
  · exact hleast m _ (vl64EncodedLength_pos n) (hmn.trans_lt (lt_capacity n))

end Sys2Proof.Machine
end

section
/-! PROOFS. A magnitude and its chunks (R79): the sum of chunks in their places, and the chunks as quotients and
remainders, are inverse to each other. -/

namespace Sys2Proof.Machine

/-- The magnitude of R79: the low two bits, and `n` chunks of six bits above them, the least significant first. -/
def tokenSum (low : Nat) (p : Nat → Nat) (n : Nat) : Nat := low + ∑ k ∈ Finset.range n, p k * 2 ^ (2 + 6 * k)

theorem tokenSum_succ (low : Nat) (p : Nat → Nat) (n : Nat) :
    tokenSum low p (n + 1) = tokenSum low p n + p n * 2 ^ (2 + 6 * n) := by
  rw [tokenSum, Finset.sum_range_succ, ← Nat.add_assoc, tokenSum]

theorem capacity_succ (n : Nat) : 2 ^ (2 + 6 * (n + 1)) = 2 ^ (2 + 6 * n) * 64 := Nat.pow_add 2 (2 + 6 * n) 6

theorem tokenSum_lt {low : Nat} {p : Nat → Nat} (hlow : low < 4) (hp : ∀ k, p k < 64) (n : Nat) :
    tokenSum low p n < 2 ^ (2 + 6 * n) := by
  induction n with
  | zero => simpa [tokenSum] using hlow
  | succ n ih =>
    have hchunk := Nat.mul_le_mul_right (2 ^ (2 + 6 * n)) (Nat.le_of_lt_succ (hp n))
    rw [tokenSum_succ, capacity_succ]
    omega

/-- The low bits of a sum are those of its low chunks. -/
theorem tokenSum_mod {low : Nat} {p : Nat → Nat} (hlow : low < 4) (hp : ∀ k, p k < 64) {j n : Nat} (hj : j ≤ n) :
    tokenSum low p n % 2 ^ (2 + 6 * j) = tokenSum low p j := by
  induction n, hj using Nat.le_induction with
  | base => exact Nat.mod_eq_of_lt (tokenSum_lt hlow hp j)
  | succ n hj ih =>
    have hdvd : 2 ^ (2 + 6 * j) ∣ p n * 2 ^ (2 + 6 * n) := (Nat.pow_dvd_pow 2 (by omega)).mul_left _
    rw [tokenSum_succ, Nat.add_mod, Nat.mod_eq_zero_of_dvd hdvd, Nat.add_zero, Nat.mod_mod, ih]

/-- Each chunk is read back from its place. -/
theorem tokenSum_chunk {low : Nat} {p : Nat → Nat} (hlow : low < 4) (hp : ∀ k, p k < 64) {j n : Nat} (hj : j < n) :
    tokenSum low p n / 2 ^ (2 + 6 * j) % 64 = p j := by
  rw [← Nat.mod_mul_right_div_self, ← capacity_succ, tokenSum_mod hlow hp hj, tokenSum_succ,
    Nat.add_mul_div_right _ _ (by positivity), Nat.div_eq_of_lt (tokenSum_lt hlow hp j), Nat.zero_add]

/-- The chunks of a magnitude sum up to its low bits. -/
theorem tokenSum_of_chunks (m n : Nat) :
    tokenSum (m % 4) (fun k => m / 2 ^ (2 + 6 * k) % 64) n = m % 2 ^ (2 + 6 * n) := by
  induction n with
  | zero => rfl
  | succ n ih => rw [tokenSum_succ, ih, capacity_succ, Nat.mod_mul, Nat.mul_comm (2 ^ _)]

end Sys2Proof.Machine
end

section
/-! PROOFS. The bytes of a VL64 token as numbers (R72, R73, R124), and the encoders' commands (R130, R131). -/

namespace Sys2Proof.Machine

/-! ### Header and continuation bytes -/

theorem sextetByte_toNat (p : Chunk) : (sextetByte p).toNat = 0x40 + p.toNat := by
  rw [sextetByte, BitVec.toNat_append, ← Nat.shiftLeft_add_eq_or_of_lt p.isLt]
  rfl

theorem chunk_toNat {w : Nat} (v : BitVec w) (lo : Nat) : (chunk v lo).toNat = v.toNat / 2 ^ lo % 64 := by
  rw [chunk, BitVec.extractLsb'_toNat, Nat.shiftRight_eq_div_pow]

theorem headerByte_toNat (len : BitVec 3) (sign : BitVec 1) (m : BitVec 32) :
    (headerByte len sign m).toNat = 0x40 + 8 * len.toNat + 4 * sign.toNat + m.toNat % 4 := by
  have hfields : (len ++ (sign ++ m.extractLsb' 0 2)).toNat = 8 * len.toNat + 4 * sign.toNat + m.toNat % 4 := by
    rw [BitVec.toNat_append, ← Nat.shiftLeft_add_eq_or_of_lt (BitVec.isLt _), BitVec.toNat_append,
      ← Nat.shiftLeft_add_eq_or_of_lt (BitVec.isLt _), BitVec.extractLsb'_toNat, Nat.shiftRight_zero]
    omega
  have hbyte := sextetByte_toNat (len ++ (sign ++ m.extractLsb' 0 2))
  rw [hfields] at hbyte
  rw [Nat.add_assoc 0x40, Nat.add_assoc 0x40, ← hbyte]
  rfl

theorem vl64Sign_toNat (v : Word) : (vl64Sign v).toNat = if v.toInt < 0 then 1 else 0 := by
  rw [vl64Sign, intOf]
  split <;> rfl

theorem magnitude_toNat {v : Word} (h : magnitude v < 2 ^ 32) : (BitVec.ofNat 32 (magnitude v)).toNat = magnitude v := by
  rw [BitVec.toNat_ofNat, Nat.mod_eq_of_lt h]

/-- A token's header (R72). -/
theorem vl64Token_header {v : Word} (h : magnitude v < 2 ^ 32) :
    ∃ b, (vl64Token v)[0]? = some b ∧
      b.toNat = 0x40 + 8 * vl64EncodedLength (magnitude v) + 4 * (if v.toInt < 0 then 1 else 0) + magnitude v % 4 :=
  ⟨_, rfl, by rw [headerByte_toNat, vl64EncodedLength_toNat _ h, vl64Sign_toNat, magnitude_toNat h]⟩

/-- A token's continuation byte `k` (R73). -/
theorem vl64Token_continuation {v : Word} (h : magnitude v < 2 ^ 32) {k : Nat} (h1 : 1 ≤ k)
    (hk : k < vl64EncodedLength (magnitude v)) :
    ∃ b, (vl64Token v)[k]? = some b ∧ b.toNat = 0x40 + magnitude v / 2 ^ (2 + 6 * (k - 1)) % 64 := by
  refine ⟨sextetByte (chunk (BitVec.ofNat 32 (magnitude v)) (2 + 6 * (k - 1))), ?_, ?_⟩
  · have hk' : k - 1 < vl64EncodedLength (magnitude v) - 1 := by omega
    rw [vl64Token, List.getElem?_cons, if_neg (by omega), continuationBytes, List.getElem?_map,
      List.getElem?_range hk', Option.map_some]
  · rw [sextetByte_toNat, chunk_toNat, magnitude_toNat h]

/-- A token's bytes read back from BUF where they were written. -/
theorem putBytes_vl64Token_bufByte (s : State) {v : Word} {k : Nat} {b : Byte} (hb : (vl64Token v)[k]? = some b) :
    (s.putBytes 0 (vl64Token v)).bufByte k = b := by
  obtain ⟨hk, rfl⟩ := List.getElem?_eq_some_iff.mp hb
  simpa using s.putBytes_bufByte_same_of_ne 0 _ (vl64Token_ne_unlisted v) k hk

/-! ### How a command ends (R202) -/

theorem State.raise_ok_status (s : State) : (s.raise .ok).status = 0x01#8 :=
  (s.raise_status .ok).trans statusWord_ok

/-- A command that raises a status on the state it began with leaves the frame of R202. -/
theorem exists_endsWith_of_raise (i : Instr) {s : State} {r : Raise} (h : exec i s = .next (s.raise r)) {word : Byte}
    (hword : statusWord r = word) : ∃ t, exec i s = .next t ∧ EndsWith word r.info s t :=
  ⟨_, h, State.raise_endsWith hword s⟩

theorem statusWord_invalidHighBits (b : Byte) : statusWord (.invalidHighBits b) = 0x11#8 :=
  (statusWord_eq_invalidHighBits_iff _).mpr ⟨b, rfl⟩

/-! ### VL64.ENCLEN and VL64.ENC -/

theorem exec_vl64Enclen_of_lt {s : State} (h : magnitude s.value < 2 ^ 32) :
    exec .vl64Enclen s = .next ((s.putCount (BitVec.ofNat 4 (vl64EncodedLength (magnitude s.value)))).raise .ok) := by
  rw [exec, execVl64Enclen_eq, vl64Range_ok h]

theorem exec_vl64Enclen_of_ge {s : State} (h : 2 ^ 32 ≤ magnitude s.value) :
    exec .vl64Enclen s = .next (s.raise .outOfRange) := by
  rw [exec, execVl64Enclen_eq, vl64Range_error h]

/-- Settles O23: the range test decides between the two ends, and COUNT is wide enough for the length. -/
theorem vl64EnclenCountsTheEncodedLength : Obligations.Vl64EnclenCountsTheEncodedLength := by
  refine ⟨rfl, fun s h => ?_, fun s h => exists_endsWith_of_raise .vl64Enclen (exec_vl64Enclen_of_ge h) rfl⟩
  have hexec := exec_vl64Enclen_of_lt h
  refine ⟨_, hexec, (commandEnds_of_exec hexec).endsOk (State.raise_ok_status _), ?_, by simp, fun a => by simp⟩
  rw [State.raise_count, State.putCount_count]
  exact encodedLength_count_toNat h

/-- Settles O24: the bytes written are those of the token, and BUF past them is the frame of the encoders. -/
theorem vl64EncWritesTheToken : Obligations.Vl64EncWritesTheToken := by
  refine ⟨rfl, fun s h => ?_, fun s h => exists_endsWith_of_raise .vl64Enc (execVl64Enc_error s h) rfl⟩
  have hexec : exec .vl64Enc s = _ := execVl64Enc_ok s h
  have hends := commandEnds_of_exec hexec
  refine ⟨_, hexec, hends.endsOk (State.raise_ok_status _), ?_, by simp, ?_, fun k h1 hk => ?_,
    fun a => hends.bufByte_past_vl64Token⟩
  · rw [State.raise_count, State.putCount_count]
    exact tokenLength_count_toNat h
  · obtain ⟨b, hb, hnum⟩ := vl64Token_header h
    rw [State.raise_bufByte, State.putCount_bufByte, putBytes_vl64Token_bufByte s hb]
    exact hnum
  · obtain ⟨b, hb, hnum⟩ := vl64Token_continuation h h1 hk
    rw [State.raise_bufByte, State.putCount_bufByte, putBytes_vl64Token_bufByte s hb]
    exact hnum

end Sys2Proof.Machine
end

section
/-! PROOFS. VL64.DECLEN and VL64.DEC (R116 to R119, R132, R133): the checks in order, and what the decoder reads. -/

namespace Sys2Proof.Machine

/-! ### The first bad byte -/

theorem badMarker_iff {b : Byte} : badMarker b = true ↔ ¬ IsSextet b := bne_iff_ne

theorem badMarker_eq_false_iff {b : Byte} : badMarker b = false ↔ IsSextet b := bne_eq_false_iff_eq

/-- The accumulator reports the first byte that fails the marker test (R113). -/
theorem accumulateFrom_of_find? {cs : List Byte} {b : Byte} (h : cs.find? badMarker = some b) (k : Nat) (m : BitVec 32) :
    accumulateFrom k m cs = .error (.invalidHighBits b) := by
  induction cs generalizing k m with
  | nil => cases h
  | cons c cs ih =>
    by_cases hc : IsSextet c
    · rw [List.find?_cons_of_neg (by simpa [badMarker_eq_false_iff] using hc)] at h
      rw [accumulateFrom, sextetCheck_eq_ok hc]
      exact ih h _ _
    · rw [List.find?_cons_of_pos (badMarker_iff.mpr hc)] at h
      cases h
      rw [accumulateFrom, sextetCheck_eq_error hc]
      rfl

/-- Every byte that the accumulator accepts is a sextet byte. -/
theorem isSextet_of_accumulateFrom {k : Nat} {m m' : BitVec 32} {cs : List Byte} (h : accumulateFrom k m cs = .ok m') :
    ∀ c ∈ cs, IsSextet c := by
  cases hfind : cs.find? badMarker with
  | some b => cases h.symm.trans (accumulateFrom_of_find? hfind k m)
  | none => exact fun c hc => by simpa [badMarker_eq_false_iff] using List.find?_eq_none.mp hfind c hc

/-- The first bad byte of a run of bytes given by their indexes. -/
theorem find?_badMarker_range {f : Nat → Byte} {n j : Nat} (hj : j < n) (hbad : ¬ IsSextet (f j))
    (hpre : ∀ i < j, IsSextet (f i)) : ((List.range n).map f).find? badMarker = some (f j) := by
  have hfirst : (List.range n).find? (badMarker ∘ f) = some j :=
    List.find?_range_eq_some.mpr ⟨badMarker_iff.mpr hbad, List.mem_range.mpr hj, fun i hi => by
      simpa [badMarker_eq_false_iff] using hpre i hi⟩
  rw [List.find?_map, hfirst, Option.map_some]

theorem vl64Accumulate_tokenTail_of_bad {s : State} {len k : Nat} (h1 : 1 ≤ k) (hk : k < len)
    (hbad : ¬ IsSextet (s.bufByte k)) (hpre : ∀ j, 1 ≤ j → j < k → IsSextet (s.bufByte j)) (low : BitVec 2) :
    vl64Accumulate (tokenTail s len) low = .error (.invalidHighBits (s.bufByte k)) := by
  obtain ⟨j, rfl⟩ := Nat.exists_eq_add_of_le h1
  exact accumulateFrom_of_find? (find?_badMarker_range (f := fun i => s.bufByte (1 + i)) (by omega) hbad
    fun i hi => hpre (1 + i) (by omega) (by omega)) _ _

/-! ### VL64.DECLEN -/

theorem exec_vl64Declen_ok {s : State} {h : Header} (hh : vl64Header (s.bufByte 0) = .ok h) :
    exec .vl64Declen s = .next ((s.putCount (zext 4 h.len)).raise .ok) := by
  rw [exec, execVl64Declen_eq, hh]

theorem exec_vl64Declen_error {s : State} {r : Raise} (hr : vl64Header (s.bufByte 0) = .error r) :
    exec .vl64Declen s = .next (s.raise r) := by
  rw [exec, execVl64Declen_eq, hr]

/-- The length fields that no token has (R74). -/
theorem illegalLengthField {h : Byte} (hl : lengthField h = 0 ∨ lengthField h = 7) :
    (h.extractLsb' 3 3).toNat < 1 ∨ 6 < (h.extractLsb' 3 3).toNat := by
  unfold lengthField at hl
  omega

/-- Settles O25: the header decoder's three answers are the command's three ends. -/
theorem vl64DeclenReadsTheHeader : Obligations.Vl64DeclenReadsTheHeader := by
  refine ⟨rfl, fun s hm h1 h6 => ?_, fun s hm => ?_, fun s hm hl => ?_⟩
  · have hexec := exec_vl64Declen_ok (vl64Header_eq_ok hm h1 h6)
    refine ⟨_, hexec, (commandEnds_of_exec hexec).endsOk (State.raise_ok_status _), ?_, by simp, fun a => by simp⟩
    rw [State.raise_count, State.putCount_count, zext_len_toNat, lengthField]
  · exact exists_endsWith_of_raise _ (exec_vl64Declen_error (vl64Header_eq_invalidHighBits hm))
      (statusWord_invalidHighBits _)
  · exact exists_endsWith_of_raise _
      (exec_vl64Declen_error (vl64Header_eq_invalidLength hm (illegalLengthField hl))) rfl

/-! ### VL64.DEC -/

/-- Settles O27: the checks fail one after another in the decoder's order, each with its own status. -/
theorem vl64DecReportsTheFirstFailingCheck : Obligations.Vl64DecReportsTheFirstFailingCheck := by
  intro s
  refine ⟨fun h => exists_endsWith_of_raise .vl64Dec (execVl64Dec_badWidth s h) rfl,
    fun h0 => ⟨exists_endsWith_of_raise .vl64Dec (execVl64Dec_noByte s h0) rfl, ?_⟩, fun h1 h16 => ?_⟩
  · rw [commandReads_vl64Dec_of_le (by omega), vl64ReadNums, if_pos h0]
  have h0 : s.len.toNat ≠ 0 := by omega
  refine ⟨fun hm => ?_, fun hm hl => ?_, fun hm hl1 hl6 => ?_⟩
  · exact exists_endsWith_of_raise .vl64Dec (execVl64Dec_badHeader s h0 h16 (vl64Header_eq_invalidHighBits hm))
      (statusWord_invalidHighBits _)
  · exact exists_endsWith_of_raise .vl64Dec
      (execVl64Dec_badHeader s h0 h16 (vl64Header_eq_invalidLength hm (illegalLengthField hl))) rfl
  · have hhead := vl64Header_eq_ok hm hl1 hl6
    refine ⟨fun hlt => exists_endsWith_of_raise .vl64Dec (execVl64Dec_truncated s h0 h16 hhead hlt) rfl,
      fun hle k hk1 hk hbad hpre => ?_⟩
    exact exists_endsWith_of_raise .vl64Dec
      (execVl64Dec_badByte s h16 hhead hle (vl64Accumulate_tokenTail_of_bad hk1 hk hbad hpre _))
      (statusWord_invalidHighBits _)

/-- VL64.DEC that ends OK has accepted a header and its continuation bytes. -/
theorem CommandEnds.of_vl64Dec_ok {s t : State} (h : CommandEnds .vl64Dec s t) (hok : t.status = 0x01#8) :
    ∃ d m, vl64Header (s.bufByte 0) = .ok d ∧ vl64Accumulate (tokenTail s d.len.toNat) d.low = .ok m ∧
      t = ((s.putResult (vl64Value d.sign m)).putCount (zext 4 d.len)).raise .ok := by
  cases h with
  | bad r hr => exact absurd hok (State.raise_status_ne_ok hr)
  | dec _ _ d hd _ m hm => exact ⟨d, m, hd, hm, rfl⟩
  | sxChk hi | enclen hi | enc hi | declen hi | b64Enc hi | b64Dec hi => cases hi

/-- Settles O30: both commands put the accepted header's length field into COUNT. -/
theorem acceptedTokenLengthIsItsHeaderField : Obligations.AcceptedTokenLengthIsItsHeaderField := by
  intro s t hexec hok
  obtain ⟨d, m, hd, -, rfl⟩ := (commandEnds_of_exec hexec).of_vl64Dec_ok hok
  obtain ⟨-, -, -, hlen, -, -⟩ := vl64Header_ok hd
  refine ⟨?_, _, exec_vl64Declen_ok hd, State.raise_ok_status _, by simp⟩
  rw [State.raise_count, State.putCount_count, zext_len_toNat, hlen, lengthField]

/-- Settles O31: header and continuation bytes are all that VL64.DEC looks at once LEN covers the token. -/
theorem vl64DecIgnoresBytesPastTheToken : Obligations.Vl64DecIgnoresBytesPastTheToken := by
  intro s u hm h1 h6 hbuf hs hs16 hu hu16
  obtain ⟨d, hd, hlen⟩ : ∃ d, vl64Header (s.bufByte 0) = .ok d ∧ d.len.toNat = lengthField (s.bufByte 0) :=
    ⟨_, vl64Header_eq_ok hm h1 h6, rfl⟩
  rw [← hlen] at h1 hbuf hs hu ⊢
  have hd' : vl64Header (u.bufByte 0) = .ok d := hbuf 0 h1 ▸ hd
  have htail : tokenTail u d.len.toNat = tokenTail s d.len.toNat := tokenTail_alike fun a _ ha => hbuf a ha
  have hreads : ∀ n ∈ commandReads .vl64Dec s, n < 0x10 + d.len.toNat := fun n hn => by
    rw [commandReads_vl64Dec_of_le hs16, vl64ReadNums_whole hd hs] at hn
    simp only [List.mem_cons, bufNums, List.mem_map, List.mem_range] at hn
    omega
  cases hacc : vl64Accumulate (tokenTail s d.len.toNat) d.low with
  | ok m =>
    refine ⟨_, _, execVl64Dec_ok s hs16 hd hs hacc, execVl64Dec_ok u hu16 hd' hu (htail ▸ hacc), ?_⟩
    simpa [statusWord_ok] using hreads
  | error r =>
    refine ⟨_, _, execVl64Dec_badByte s hs16 hd hs hacc, execVl64Dec_badByte u hu16 hd' hu (htail ▸ hacc), ?_⟩
    obtain ⟨j, hj, rfl, -, -⟩ := accumulateFrom_error hacc
    simpa [State.raise_errByte, Raise.info, statusWord_invalidHighBits] using hreads

end Sys2Proof.Machine
end

section
/-! PROOFS. Round trips of VL64 (R126): a decoded encoding is the value, and an encoded decoding of a canonical token is
the token. -/

namespace Sys2Proof.Machine

/-! ### Decoding an encoding -/

/-- A byte with a header's number has the header's fields (R72). -/
theorem headerFields_of_toNat {b : Byte} {l sign low : Nat} (hb : b.toNat = 0x40 + 8 * l + 4 * sign + low) (hl : l < 8)
    (hsign : sign < 2) (hlow : low < 4) :
    IsSextet b ∧ lengthField b = l ∧ (b.extractLsb' 2 1).toNat = sign ∧ (b.extractLsb' 0 2).toNat = low := by
  rw [isSextet_iff_range, lengthField, lengthField_eq_toNat, signField_eq_toNat, lowField_eq_toNat]
  omega

/-- A byte with a continuation byte's number has its chunk (R73). -/
theorem chunk_of_toNat {b : Byte} {x : Nat} (hb : b.toNat = 0x40 + x % 64) : IsSextet b ∧ payload b = x % 64 := by
  rw [isSextet_iff_range, payload_eq_toNat_mod]
  omega

/-- A header's sign bit, from the number of its sign field. -/
theorem signBit_iff {b : Byte} {p : Prop} [Decidable p] (h : (b.extractLsb' 2 1).toNat = if p then 1 else 0) :
    b.getLsbD 2 = true ↔ p := by
  rw [← signField_eq_one_iff, ← BitVec.toNat_inj, h]
  split <;> simpa

/-- The chunks in a token's continuation bytes sum up to its magnitude (R79). -/
theorem eq_sum_of_continuationBytes {s : State} {m len : Nat} (hcap : m < 2 ^ (2 + 6 * (len - 1)))
    (hcont : ∀ k, 1 ≤ k → k < len → (s.bufByte k).toNat = 0x40 + m / 2 ^ (2 + 6 * (k - 1)) % 64) :
    m = m % 4 + ∑ k ∈ Finset.range (len - 1), payload (s.bufByte (k + 1)) * 2 ^ (2 + 6 * k) := by
  have hchunk : ∀ k ∈ Finset.range (len - 1), payload (s.bufByte (k + 1)) * 2 ^ (2 + 6 * k) =
      m / 2 ^ (2 + 6 * k) % 64 * 2 ^ (2 + 6 * k) := fun k hk => by
    have := Finset.mem_range.mp hk
    rw [(chunk_of_toNat (hcont (k + 1) (by omega) (by omega))).2, Nat.add_sub_cancel]
  rw [Finset.sum_congr rfl hchunk]
  exact ((tokenSum_of_chunks m (len - 1)).trans (Nat.mod_eq_of_lt hcap)).symm

/-- Settles O43: the bytes VL64.ENC writes are a whole legal token, and the sum of its chunks is the magnitude. -/
theorem vl64RoundTrip : Obligations.Vl64RoundTrip := by
  intro s n hm hn h16
  obtain ⟨-, henc, -⟩ := vl64EncWritesTheToken
  obtain ⟨t, ht, hok, hcount, -, hhead, hcont, -⟩ := henc s hm
  obtain ⟨h1, h6⟩ := vl64EncodedLength_bounds _ hm
  have hsignlt : (if s.value.toInt < 0 then 1 else 0) < 2 := by split <;> omega
  obtain ⟨hsx, hlen, hsign, hlow⟩ := headerFields_of_toNat hhead (by omega) hsignlt (Nat.mod_lt _ (by omega))
  have hbit : (t.bufByte 0).getLsbD 2 = true ↔ s.value.toInt < 0 := signBit_iff hsign
  have hsextet : ∀ k < vl64EncodedLength s.value.toInt.natAbs, IsSextet (t.bufByte k) := fun k hk => by
    rcases Nat.eq_zero_or_pos k with rfl | hk1
    · exact hsx
    · exact (chunk_of_toNat (hcont k hk1 hk)).1
  have hsum := eq_sum_of_continuationBytes (lt_capacity _) hcont
  rw [← hlow] at hsum
  obtain ⟨u, hu, huok, hucount, -, -, hres⟩ :=
    vl64DecReturnsTheTokenValue (t.putLen n) _ _ hlen.symm h1 h6 hn h16 hsextet hsum
  refine ⟨t, u, ht, hu, hok.status, huok.status, BitVec.eq_of_toInt_eq ?_,
    BitVec.eq_of_toNat_eq (hucount.trans hcount.symm), hcount, hbit, fun h0 => ?_⟩
  · rw [hres, State.putLen_bufByte]
    simp only [hbit]
    split <;> omega
  · rw [h0] at hhead
    exact BitVec.eq_of_toNat_eq hhead

/-! ### Encoding a decoding -/

theorem magnitude_vl64Value (sign : BitVec 1) (m : BitVec 32) : magnitude (vl64Value sign m) = m.toNat := by
  rw [magnitude, intOf, vl64Value_toInt]
  split <;> simp

/-- The sign survives unless it is that of a negative zero (R114, R126). -/
theorem vl64Sign_vl64Value {sign : BitVec 1} {m : BitVec 32} (h : ¬ (sign = 1#1 ∧ vl64Value sign m = 0#64)) :
    vl64Sign (vl64Value sign m) = sign := by
  have hint := vl64Value_toInt sign m
  rw [vl64Sign, intOf]
  by_cases hs : sign = 1#1
  · have hm : m.toNat ≠ 0 := fun h0 => h ⟨hs, BitVec.eq_of_toInt_eq (by rw [hint, if_pos hs, h0]; rfl)⟩
    rw [if_pos hs] at hint
    rw [if_pos (by omega), hs]
  · rw [if_neg hs] at hint
    rw [if_neg (by omega), (BitVec.eq_zero_or_eq_one sign).resolve_right hs]

/-- A legal header as the number of its fields (R72). -/
theorem toNat_of_vl64Header {b : Byte} {d : Header} (h : vl64Header b = .ok d) :
    b.toNat = 0x40 + 8 * d.len.toNat + 4 * d.sign.toNat + d.low.toNat := by
  obtain ⟨hm, -, -, hlen, hsign, hlow⟩ := vl64Header_ok h
  rw [hlen, hsign, hlow, lengthField_eq_toNat, signField_eq_toNat, lowField_eq_toNat]
  have := isSextet_iff_range.mp hm
  omega

/-- The magnitude of an accepted token is the sum of its chunks, all of them of sextet bytes. -/
theorem tokenSum_of_vl64Accumulate {s : State} {len : Nat} (hlen : len ≤ 6) {low : BitVec 2} {m : BitVec 32}
    (h : vl64Accumulate (tokenTail s len) low = .ok m) :
    (∀ k, 1 ≤ k → k < len → IsSextet (s.bufByte k)) ∧
      m.toNat = tokenSum low.toNat (fun k => payload (s.bufByte (k + 1))) (len - 1) := by
  have hsextet : ∀ k, 1 ≤ k → k < len → IsSextet (s.bufByte k) := fun k h1 hk =>
    isSextet_of_accumulateFrom h _ (List.mem_map.mpr ⟨k - 1, List.mem_range.mpr (by omega), by congr 1; omega⟩)
  obtain ⟨m', hm', hsum⟩ := vl64Accumulate_tokenTail hlen hsextet low
  cases h.symm.trans hm'
  exact ⟨hsextet, hsum⟩

/-- The value of a canonical token that is no negative zero encodes as that token (R115, R126). -/
theorem vl64Token_of_decoded {s : State} {d : Header} {m : BitVec 32} (hd : vl64Header (s.bufByte 0) = .ok d)
    (hm : vl64Accumulate (tokenTail s d.len.toNat) d.low = .ok m) (hcanon : d.len.toNat = vl64EncodedLength m.toNat)
    (hneg : ¬ (d.sign = 1#1 ∧ vl64Value d.sign m = 0#64)) :
    vl64Token (vl64Value d.sign m) = (List.range d.len.toNat).map s.bufByte := by
  have hmag := magnitude_vl64Value d.sign m
  have hlt : magnitude (vl64Value d.sign m) < 2 ^ 32 := hmag ▸ m.isLt
  obtain ⟨-, h1, h6, -, -, -⟩ := vl64Header_ok hd
  obtain ⟨hsextet, hsum⟩ := tokenSum_of_vl64Accumulate h6 hm
  have hp : ∀ k, payload (s.bufByte (k + 1)) < 64 := fun k => payload_lt _
  have hbyte : ∀ k < d.len.toNat, (vl64Token (vl64Value d.sign m))[k]? = some (s.bufByte k) := fun k hk => by
    rcases Nat.eq_zero_or_pos k with rfl | hk1
    · obtain ⟨b, hb, hnum⟩ := vl64Token_header hlt
      have hlow : m.toNat % 4 = d.low.toNat := hsum ▸ tokenSum_mod d.low.isLt hp (Nat.zero_le _)
      rw [← vl64Sign_toNat, vl64Sign_vl64Value hneg, hmag, hlow, ← hcanon, ← toNat_of_vl64Header hd] at hnum
      rw [hb, BitVec.eq_of_toNat_eq hnum]
    · obtain ⟨b, hb, hnum⟩ := vl64Token_continuation hlt hk1 (by rwa [hmag, ← hcanon])
      have hchunk := isSextet_iff_range.mp (hsextet k hk1 hk)
      rw [hmag, hsum, tokenSum_chunk d.low.isLt hp (by omega), Nat.sub_add_cancel hk1, payload_eq_toNat_mod] at hnum
      rw [hb, show b = s.bufByte k from BitVec.eq_of_toNat_eq (by omega)]
  refine List.ext_getElem (by rw [vl64Token_length _ hlt, hmag, ← hcanon]; simp) fun k _ hk => ?_
  obtain ⟨_, hk'⟩ := List.getElem?_eq_some_iff.mp (hbyte k (by simpa using hk))
  rw [hk', List.getElem_map, List.getElem_range]

/-- VL64.ENC of a value whose token BUF holds already ends OK and leaves BUF as it reads. -/
theorem execVl64Enc_of_token {s : State} (hm : magnitude s.value < 2 ^ 32)
    (htoken : vl64Token s.value = (List.range (vl64EncodedLength (magnitude s.value))).map s.bufByte) :
    ∃ t, execVl64Enc s = .next t ∧ t.status = 0x01#8 ∧ t.count.toNat = vl64EncodedLength (magnitude s.value) ∧
      ∀ a, t.bufByte a = s.bufByte a := by
  have hne := vl64Token_ne_unlisted s.value
  have hexec := execVl64Enc_ok s hm
  rw [htoken] at hne hexec
  refine ⟨_, hexec, State.raise_ok_status _, ?_,
    fun a => by simpa using State.putBytes_bufByte_of_read hne a⟩
  rw [State.raise_count, State.putCount_count, tokenLength_count_toNat hm]

/-- Settles O44: the decoded value's token is the bytes VL64.DEC read, so VL64.ENC writes what is there already. -/
theorem vl64ReencodingACanonicalTokenGivesIt : Obligations.Vl64ReencodingACanonicalTokenGivesIt := by
  intro s t hexec hok hcanon hneg
  obtain ⟨d, m, hd, hm, rfl⟩ := (commandEnds_of_exec hexec).of_vl64Dec_ok hok
  obtain ⟨-, -, -, -, hsign, -⟩ := vl64Header_ok hd
  have hmag := magnitude_vl64Value d.sign m
  have hlen : d.len.toNat = vl64EncodedLength m.toNat := by
    rw [← hmag, ← zext_len_toNat]
    exact hcanon
  rw [← signField_eq_one_iff, ← hsign] at hneg
  have htoken := vl64Token_of_decoded hd hm hlen hneg
  rw [hlen, ← hmag] at htoken
  obtain ⟨u, hu, hstatus, hcount, hbuf⟩ := execVl64Enc_of_token
    (s := State.putValue (vl64Value d.sign m) (((s.putResult (vl64Value d.sign m)).putCount (zext 4 d.len)).raise .ok))
    (hmag.trans_lt m.isLt) htoken
  exact ⟨u, hu, hstatus, BitVec.eq_of_toNat_eq (hcount.trans hcanon.symm), hbuf⟩

end Sys2Proof.Machine
end

section
/-! PROOFS. The ports of the accumulator, the encoders and the B64 decoder (R113, R120, R162, R164): the lanes in use are a
run of bytes given by their numbers, and the units' loops say the rest. -/

namespace Sys2Proof.Machine

/-! ### Lanes -/

/-- An input lane by its number, and 0x00 for a number past the last lane, which is never in use. -/
def lane {n : Nat} (lanes : Vector Byte n) (j : Nat) : Byte := lanes[j]?.getD 0#8

theorem lane_val {n : Nat} (c : Vector Byte n) (j : Fin n) : lane c j = c.get j := by
  simp [lane, Vector.get]

theorem take_toList_eq_map_lane {n k : Nat} (c : Vector Byte n) (hk : k ≤ n) :
    c.toList.take k = (List.range k).map (lane c) := by
  refine List.ext_getElem (by simp [hk]) fun j hj hj' => ?_
  have hn : j < n := by
    rw [List.length_map, List.length_range] at hj'
    omega
  simp [lane, hn]

theorem isSextet_lane {n k : Nat} {c : Vector Byte n} (hk : k ≤ n) (h : ∀ j : Fin n, j.val < k → IsSextet (c.get j)) :
    ∀ j < k, IsSextet (lane c j) := fun j hj => by
  have := h ⟨j, by omega⟩ hj
  rwa [← lane_val] at this

/-- A sum over the lanes that counts those in use alone. -/
theorem sum_lanes_in_use {n k : Nat} (hk : k ≤ n) (g : Nat → Nat) :
    (∑ j : Fin n, if j.val < k then g j else 0) = ∑ j ∈ Finset.range k, g j := by
  rw [Fin.sum_univ_eq_sum_range (fun j => if j < k then g j else 0), ← Finset.sum_filter]
  congr 1
  ext j
  simp only [Finset.mem_filter, Finset.mem_range]
  omega

/-- The lowest-numbered bad lane is the first bad byte of the lanes in use. -/
theorem find?_badMarker_lanes {n k : Nat} {c : Vector Byte n} (hk : k ≤ n) {j : Fin n} (hj : j.val < k)
    (hbad : ¬ IsSextet (c.get j)) (hpre : ∀ i : Fin n, i < j → IsSextet (c.get i)) :
    (c.toList.take k).find? badMarker = some (c.get j) := by
  rw [take_toList_eq_map_lane c hk, ← lane_val]
  exact find?_badMarker_range hj (by rwa [lane_val]) (isSextet_lane j.isLt.le hpre)

/-! ### The accumulator -/

theorem accumulatorPorts_of_bad (c : Vector Byte 5) {len : BitVec 3} (low : BitVec 2) (h1 : 1 ≤ len.toNat)
    (h6 : len.toNat ≤ 6) {b : Byte} (hb : (c.toList.take (len.toNat - 1)).find? badMarker = some b) :
    accumulatorPorts c len low = some { err := 1#1, errbyte := some b, mag := none } := by
  rw [accumulatorPorts, if_neg (by show ¬(len.toNat < 1 ∨ 6 < len.toNat); omega), vl64Accumulate,
    accumulateFrom_of_find? hb]

/-- Settles O18: the accumulator's loop over the lanes in use, exact on sextet bytes and stopped by the first other. -/
theorem accumulatorSumsTheChunksInUse : Obligations.AccumulatorSumsTheChunksInUse := by
  refine fun c len low h1 h6 => ⟨fun hs => ?_, fun j hj hbad hpre => ?_⟩
  · have hlow : (zext 32 low).toNat = low.toNat := BitVec.toNat_setWidth_of_le (by omega)
    obtain ⟨m, hacc, hsum⟩ := accumulateFrom_range (k := 0) (n := len.toNat - 1) (m := zext 32 low) (f := lane c)
      (isSextet_lane (by omega) hs) (hlow ▸ low.isLt) (by omega)
    rw [← take_toList_eq_map_lane c (by omega)] at hacc
    refine ⟨m, accumulatorPorts_ok c len low h1 h6 hacc, ?_⟩
    simp only [← lane_val]
    rw [hsum, hlow, sum_lanes_in_use (by omega) fun j => payload (lane c j) * 2 ^ (2 + 6 * j)]
    simp only [Nat.zero_add]
  · exact accumulatorPorts_of_bad c low h1 h6 (find?_badMarker_lanes (by omega) hj hbad hpre)

/-- Settles O19: a 32-bit magnitude and its negative both fit in 64 bits. -/
theorem signIsAppliedExactly : Obligations.SignIsAppliedExactly := vl64Value_toInt

/-! ### The B64 loop -/

/-- A turn of the B64 decoder's loop puts a payload below the value so far (R164). -/
theorem shiftLeft_add_payload_toNat {acc : Word} (h : acc.toNat < 2 ^ 58) (b : Byte) :
    ((acc <<< 6) + zext 64 (b.extractLsb' 0 6)).toNat = acc.toNat * 64 + payload b := by
  have hp := payload_lt b
  rw [BitVec.toNat_add, BitVec.toNat_shiftLeft, zext_chunk_toNat, Nat.shiftLeft_eq]
  change (acc.toNat * 2 ^ 6 % 2 ^ 64 + payload b) % 2 ^ 64 = _
  omega

/-- The B64 decoder over `n` sextet bytes, `k` of them decoded before: the exact sum (R86). -/
theorem b64Accumulate_range {k n : Nat} {acc : Word} {f : Nat → Byte} (hf : ∀ j < n, IsSextet (f j))
    (hacc : acc.toNat < 2 ^ (6 * k)) (hn : k + n ≤ 10) :
    ∃ w, b64Accumulate acc ((List.range n).map f) = .ok w ∧
      w.toNat = acc.toNat * 2 ^ (6 * n) + ∑ j ∈ Finset.range n, payload (f j) * 2 ^ (6 * (n - 1 - j)) := by
  induction n generalizing k acc f with
  | zero => exact ⟨acc, rfl, by simp⟩
  | succ n ih =>
    have hadd := shiftLeft_add_payload_toNat (hacc.trans_le (Nat.pow_le_pow_right (by omega) (by omega))) (f 0)
    have hlt : acc.toNat * 64 + payload (f 0) < 2 ^ (6 * (k + 1)) := by
      have hp := payload_lt (f 0)
      have hpow : 2 ^ (6 * (k + 1)) = 2 ^ (6 * k) * 64 := Nat.pow_add 2 (6 * k) 6
      omega
    obtain ⟨w, hw, hsum⟩ := ih (k := k + 1) (f := fun j => f (j + 1)) (fun j hj => hf (j + 1) (by omega))
      (hadd ▸ hlt) (by omega)
    refine ⟨w, ?_, ?_⟩
    · rw [List.range_succ_eq_map, List.map_cons, List.map_map, b64Accumulate, sextetCheck_eq_ok (hf 0 (by omega))]
      exact hw
    · have hpow : 2 ^ (6 * (n + 1)) = 64 * 2 ^ (6 * n) := by rw [Nat.mul_add, Nat.pow_add, Nat.mul_comm]
      rw [hsum, hadd, Finset.sum_range_succ', hpow]
      simp only [Nat.add_sub_cancel, Nat.sub_zero, Nat.sub_sub, Nat.add_comm 1]
      ring

/-- The B64 decoder reports the first byte that fails the marker test (R164). -/
theorem b64Accumulate_of_find? {bs : List Byte} {b : Byte} (h : bs.find? badMarker = some b) (acc : Word) :
    b64Accumulate acc bs = .error (.invalidHighBits b) := by
  induction bs generalizing acc with
  | nil => cases h
  | cons c cs ih =>
    by_cases hc : IsSextet c
    · rw [List.find?_cons_of_neg (by simpa [badMarker_eq_false_iff] using hc)] at h
      rw [b64Accumulate, sextetCheck_eq_ok hc]
      exact ih h _
    · rw [List.find?_cons_of_pos (badMarker_iff.mpr hc)] at h
      cases h
      rw [b64Accumulate, sextetCheck_eq_error hc]
      rfl

/-! ### The encoders and the B64 decoder -/

theorem encoderPorts_of_lt {v : Word} (h : magnitude v < 2 ^ 32) :
    encoderPorts v =
      { oor := 0#1, len := some (BitVec.ofNat 3 (vl64EncodedLength (magnitude v))), e := vl64Token v } := by
  rw [encoderPorts, vl64Encode_ok h]

theorem encoderPorts_of_ge {v : Word} (h : 2 ^ 32 ≤ magnitude v) :
    encoderPorts v = { oor := 1#1, len := none, e := [] } := by
  rw [encoderPorts, vl64Encode_error h]

/-- Lane `i` of a B64 token (R162). -/
theorem b64Encode_getElem? (v : Word) {n i : Nat} (hi : i < n) :
    ∃ b, (b64Encode v n)[i]? = some b ∧ b.toNat = 0x40 + v.toNat / 2 ^ (6 * (n - 1 - i)) % 64 := by
  refine ⟨sextetByte (chunk v (6 * (n - 1 - i))), ?_, by rw [sextetByte_toNat, chunk_toNat]⟩
  rw [b64Encode, List.getElem?_map, List.getElem?_range hi, Option.map_some]

theorem b64DecoderPorts_of_bad (b : Vector Byte 10) {n : BitVec 4} (h : n.toNat ≤ 10) {x : Byte}
    (hx : (b.toList.take n.toNat).find? badMarker = some x) :
    b64DecoderPorts b n = some { err := 1#1, errbyte := some x, value := none } := by
  rw [b64DecoderPorts, if_neg (Nat.not_lt.mpr h), b64Decode, b64Accumulate_of_find? hx]

/-- Settles O55: the ports show the tokens' bytes as numbers, the decoder's sum, and its first bad lane. -/
theorem encoderAndB64PortsShowTheirTokens : Obligations.EncoderAndB64PortsShowTheirTokens := by
  refine ⟨fun v h => by rw [encoderPorts_of_ge h], fun v h => ?_, fun v n hn => ?_, fun b n hn =>
    ⟨fun hs => ?_, fun i hi hbad hpre => b64DecoderPorts_of_bad b hn (find?_badMarker_lanes hn hi hbad hpre)⟩⟩
  · have hlen := vl64EncodedLength_toNat (magnitude v) h
    obtain ⟨b, hb, hnum⟩ := vl64Token_header h
    rw [encoderPorts_of_lt h]
    refine ⟨rfl, _, b, rfl, hlen, (vl64Token_length v h).trans hlen.symm, hb, ?_, fun k h1 hk => ?_⟩
    · rw [hlen]
      exact hnum
    · exact vl64Token_continuation h h1 (hlen ▸ hk)
  · exact ⟨_, b64EncoderPorts_eq v n hn, b64Encode_length v n.toNat, fun i hi => b64Encode_getElem? v hi⟩
  · obtain ⟨w, hw, hsum⟩ := b64Accumulate_range (k := 0) (acc := 0#64) (f := lane b) (isSextet_lane hn hs) (by decide)
      (by omega)
    rw [← take_toList_eq_map_lane b hn] at hw
    refine ⟨w, b64DecoderPorts_ok b n hn hw, ?_⟩
    simp only [← lane_val]
    rw [hsum, sum_lanes_in_use hn fun i => payload (lane b i) * 2 ^ (6 * (n.toNat - 1 - i))]
    simp

end Sys2Proof.Machine
end

section
/-! PROOFS. B64.ENC and B64.DEC (R170, R171), and the round trip of B64 (R166): the encoder's chunks are base-64 digits,
and the decoder's loop adds them up again. -/

namespace Sys2Proof.Machine

/-! ### The commands (R170, R171) -/

/-- B64.ENC of a width in range: BUF begins with the token, and past it BUF is as before. -/
theorem exec_b64Enc_of_le {s : State} (hl : s.len.toNat ≤ 10) :
    ∃ t, exec .b64Enc s = .next t ∧ EndsOk s t ∧ t.count.toNat = s.len.toNat ∧ t.result = s.result ∧
      (List.range s.len.toNat).map t.bufByte = b64Encode s.value s.len.toNat ∧
      ∀ a, s.len.toNat ≤ a → t.bufByte a = s.bufByte a := by
  have hexec : exec .b64Enc s = _ := execB64Enc_ok s hl
  have hends := commandEnds_of_exec hexec
  obtain ⟨hcount, -⟩ := hends.b64_count (State.raise_ok_status _) (.inl rfl)
  refine ⟨_, hexec, hends.endsOk (State.raise_ok_status _), hcount, by simp, List.ext_getElem (by simp) fun i _ hi => ?_,
    fun a => hends.bufByte_past_b64Token⟩
  simpa using s.putBytes_bufByte_same_of_ne 0 _ (b64Encode_ne_unlisted s.value s.len.toNat) i hi

/-- B64.DEC of bytes that decode: their value goes to RESULT, and BUF is as before. -/
theorem exec_b64Dec_of_ok {s : State} (hl : s.len.toNat ≤ 10) {v : Word}
    (hv : b64Decode ((List.range s.len.toNat).map s.bufByte) = .ok v) :
    ∃ t, exec .b64Dec s = .next t ∧ EndsOk s t ∧ t.count.toNat = s.len.toNat ∧ KeepsBuf s t ∧ t.result = v := by
  have hexec : exec .b64Dec s = .next (((s.putResult v).putCount (BitVec.ofNat 4 s.len.toNat)).raise .ok) := by
    rw [exec, execB64Dec_eq s hl, hv]
  have hends := commandEnds_of_exec hexec
  obtain ⟨hcount, -⟩ := hends.b64_count (State.raise_ok_status _) (.inr rfl)
  exact ⟨_, hexec, hends.endsOk (State.raise_ok_status _), hcount, fun a => by simp, by simp⟩

theorem exec_b64Dec_of_error {s : State} (hl : s.len.toNat ≤ 10) {r : Raise}
    (hr : b64Decode ((List.range s.len.toNat).map s.bufByte) = .error r) : exec .b64Dec s = .next (s.raise r) := by
  rw [exec, execB64Dec_eq s hl, hr]

/-- Settles O28: the bytes that BUF begins with are those of the token, each with its chunk. -/
theorem b64EncWritesTheChunks : Obligations.B64EncWritesTheChunks := by
  refine ⟨rfl, fun s hl => ?_, fun s hl => exists_endsWith_of_raise .b64Enc (execB64Enc_badWidth s hl) rfl⟩
  obtain ⟨t, ht, hok, hcount, hresult, htoken, hpast⟩ := exec_b64Enc_of_le hl
  refine ⟨t, ht, hok, hcount, hresult, fun i hi => ?_, hpast⟩
  obtain ⟨b, hb, hnum⟩ := b64Encode_getElem? s.value hi
  have hbyte : t.bufByte i = b := by simpa [← htoken, hi] using hb
  rw [hbyte, hnum]

/-- Settles O29: the decoder's loop over the bytes of BUF, exact on sextet bytes and stopped by the first other. -/
theorem b64DecReturnsTheChunkSum : Obligations.B64DecReturnsTheChunkSum := by
  refine ⟨rfl, fun s hl hsextet => ?_, fun s i hl hi hbad hpre => ?_,
    fun s hl => exists_endsWith_of_raise .b64Dec (execB64Dec_badWidth s hl) rfl⟩
  · obtain ⟨v, hv, hsum⟩ := b64Accumulate_range (k := 0) (acc := 0#64) hsextet (by decide) (by omega)
    obtain ⟨t, ht, hok, hcount, hbuf, rfl⟩ := exec_b64Dec_of_ok hl hv
    exact ⟨t, ht, hok, hcount, hbuf, by simpa using hsum⟩
  · have hfirst := find?_badMarker_range hi hbad hpre
    exact exists_endsWith_of_raise .b64Dec (exec_b64Dec_of_error hl (b64Accumulate_of_find? hfirst _))
      (statusWord_invalidHighBits _)

/-! ### The round trip -/

/-- A turn of the decoder's loop puts a base-64 digit behind the value so far, modulo 2^64 (R164). -/
theorem ofNat_shiftLeft_add_zext (a : Nat) (p : Chunk) :
    ((BitVec.ofNat 64 a) <<< 6) + zext 64 p = BitVec.ofNat 64 (a * 64 + p.toNat) := by
  apply BitVec.eq_of_toNat_eq
  rw [BitVec.toNat_add, BitVec.toNat_shiftLeft, zext_chunk_toNat, Nat.shiftLeft_eq, BitVec.toNat_ofNat,
    BitVec.toNat_ofNat]
  omega

/-- The low `n + 1` base-64 digits of a number are its digit `n` and the low `n` digits. -/
theorem mod_pow_six_mul_succ (v n : Nat) :
    v % 2 ^ (6 * (n + 1)) = v / 2 ^ (6 * n) % 64 * 2 ^ (6 * n) + v % 2 ^ (6 * n) := by
  have hpow : 2 ^ (6 * (n + 1)) = 2 ^ (6 * n) * 64 := Nat.pow_add 2 (6 * n) 6
  rw [hpow, Nat.mod_mul, Nat.add_comm, Nat.mul_comm (2 ^ (6 * n))]

/-- Decoding a token of width `n` puts the low `n` base-64 digits of its value behind the value so far. -/
theorem b64Accumulate_b64Encode (v : Word) (n a : Nat) :
    b64Accumulate (BitVec.ofNat 64 a) (b64Encode v n) =
      .ok (BitVec.ofNat 64 (a * 2 ^ (6 * n) + v.toNat % 2 ^ (6 * n))) := by
  induction n generalizing a with
  | zero => simp [b64Encode, b64Accumulate, Nat.mod_one]
  | succ n ih =>
    have hdigits : (a * 64 + v.toNat / 2 ^ (6 * n) % 64) * 2 ^ (6 * n) + v.toNat % 2 ^ (6 * n) =
        a * 2 ^ (6 * (n + 1)) + v.toNat % 2 ^ (6 * (n + 1)) := by
      rw [mod_pow_six_mul_succ]
      ring
    calc b64Accumulate (BitVec.ofNat 64 a) (b64Encode v (n + 1))
      _ = b64Accumulate ((BitVec.ofNat 64 a) <<< 6 + zext 64 (chunk v (6 * n))) (b64Encode v n) := by
        rw [b64Encode_succ, b64Accumulate, sextetCheck_sextetByte]
        rfl
      _ = _ := by rw [ofNat_shiftLeft_add_zext, ih, chunk_toNat, hdigits]

/-- Decoding an encoding at width `n` gives the value's low `n` chunks (R166). -/
theorem b64Decode_b64Encode (v : Word) (n : Nat) :
    b64Decode (b64Encode v n) = .ok (BitVec.ofNat 64 (v.toNat % 2 ^ (6 * n))) := by
  simpa [b64Decode] using b64Accumulate_b64Encode v n 0

/-- Settles O45: B64.DEC reads the token B64.ENC wrote, and decoding it gives the low chunks of VALUE. -/
theorem b64RoundTrip : Obligations.B64RoundTrip := by
  refine ⟨fun v n _ => b64Decode_b64Encode v n, fun s hl => ?_⟩
  obtain ⟨t, ht, htok, -, -, htoken, -⟩ := exec_b64Enc_of_le hl
  have hlen := htok.inputs.len
  rw [← hlen] at hl htoken ⊢
  obtain ⟨u, hu, huok, -, -, hresult⟩ :=
    exec_b64Dec_of_ok hl (htoken ▸ b64Decode_b64Encode s.value t.len.toNat)
  refine ⟨t, u, ht, hu, huok.status, ?_, fun hv => ?_⟩
  · rw [hresult, BitVec.toNat_ofNat, Nat.mod_eq_of_lt ((Nat.mod_le _ _).trans_lt s.value.isLt)]
  · rw [hresult, Nat.mod_eq_of_lt hv, BitVec.ofNat_toNat, BitVec.setWidth_eq]

end Sys2Proof.Machine
end

section
/-! PROOFS. The table of R207 against the meanings: each command's row is evaluated check by check, next to the
equation that says how the command ends where those checks pass or fail. -/

namespace Sys2Proof.Machine

/-! ### The first failing check of a row (R207) -/

theorem firstFailing_of_fails {p : Prop} [Decidable p] (hp : p) (r : Raise) (rest : List (Bool × Raise)) :
    firstFailing ((decide p, r) :: rest) = some r :=
  if_pos (decide_eq_true hp)

theorem firstFailing_of_passes {p : Prop} [Decidable p] (hp : ¬ p) (r : Raise) (rest : List (Bool × Raise)) :
    firstFailing ((decide p, r) :: rest) = firstFailing rest :=
  if_neg (by simpa using hp)

theorem firstFailing_of_badMarker {b : Byte} (hb : ¬ IsSextet b) (r : Raise) (rest : List (Bool × Raise)) :
    firstFailing ((badMarker b, r) :: rest) = some r :=
  if_pos (badMarker_iff.mpr hb)

theorem firstFailing_of_isSextet {b : Byte} (hb : IsSextet b) (r : Raise) (rest : List (Bool × Raise)) :
    firstFailing ((badMarker b, r) :: rest) = firstFailing rest :=
  if_neg (by simpa [badMarker_eq_false_iff] using hb)

theorem firstFailing_eq_find? (checks : List (Bool × Raise)) :
    firstFailing checks = (checks.find? Prod.fst).map Prod.snd := by
  induction checks with
  | nil => rfl
  | cons check rest ih =>
    obtain ⟨fails, r⟩ := check
    cases fails with
    | true => rfl
    | false => exact ih

/-- The marker checks report the first bad byte of the run. -/
theorem firstFailing_markerChecks (i n : Nat) (s : State) :
    firstFailing (markerChecks i n s) =
      (((List.range n).map fun j => s.bufByte (i + j)).find? badMarker).map .invalidHighBits := by
  rw [firstFailing_eq_find?, markerChecks, List.find?_map, List.find?_map, Option.map_map, Option.map_map]
  rfl

/-- The two header checks of R207 pass on a header that the decoder accepts. -/
theorem firstFailing_header_of_ok {h : Byte} {d : Header} (hd : vl64Header h = .ok d) (rest : List (Bool × Raise)) :
    firstFailing ((badMarker h, .invalidHighBits h) ::
      (decide (lengthField h = 0 ∨ 6 < lengthField h), .invalidLength) :: rest) = firstFailing rest := by
  obtain ⟨hm, h1, h6, hlen, -, -⟩ := vl64Header_ok hd
  have hl : lengthField h = d.len.toNat := congrArg BitVec.toNat hlen.symm
  rw [firstFailing_of_isSextet hm, firstFailing_of_passes (by omega)]

/-- On a header that the decoder rejects, the first of the two checks to fail is the decoder's error. -/
theorem firstFailing_header_of_error {h : Byte} {r : Raise} (hr : vl64Header h = .error r)
    (rest : List (Bool × Raise)) :
    firstFailing ((badMarker h, .invalidHighBits h) ::
      (decide (lengthField h = 0 ∨ 6 < lengthField h), .invalidLength) :: rest) = some r := by
  by_cases hm : IsSextet h
  · by_cases hl : lengthField h = 0 ∨ 6 < lengthField h
    · cases hr.symm.trans (vl64Header_eq_invalidLength hm (hl.imp_left Nat.lt_one_iff.mpr))
      rw [firstFailing_of_isSextet hm, firstFailing_of_fails hl]
    · rw [not_or, Nat.not_lt] at hl
      cases hr.symm.trans (vl64Header_eq_ok hm (Nat.one_le_iff_ne_zero.mpr hl.1) hl.2)
  · cases hr.symm.trans (vl64Header_eq_invalidHighBits hm)
    rw [firstFailing_of_badMarker hm]

/-! ### The decoders' loops without a bad byte -/

theorem find?_badMarker_ne_none {bs : List Byte} {j : Nat} (hj : j < bs.length) (hbad : ¬ IsSextet bs[j]) :
    bs.find? badMarker ≠ none := fun h =>
  List.find?_eq_none.mp h bs[j] (List.getElem_mem hj) (badMarker_iff.mpr hbad)

/-- The accumulator accepts a run without a bad byte (R113). -/
theorem exists_vl64Accumulate_ok {bs : List Byte} (h : bs.find? badMarker = none) (low : BitVec 2) :
    ∃ m, vl64Accumulate bs low = .ok m := by
  cases hm : vl64Accumulate bs low with
  | ok m => exact ⟨m, rfl⟩
  | error r =>
    obtain ⟨j, hj, -, hbad, -⟩ := accumulateFrom_error hm
    exact absurd h (find?_badMarker_ne_none hj hbad)

/-- The B64 decoder accepts a run without a bad byte (R164). -/
theorem exists_b64Decode_ok {bs : List Byte} (h : bs.find? badMarker = none) : ∃ v, b64Decode bs = .ok v := by
  cases hv : b64Decode bs with
  | ok v => exact ⟨v, rfl⟩
  | error r =>
    obtain ⟨j, hj, -, hbad, -⟩ := b64Accumulate_error hv
    exact absurd h (find?_badMarker_ne_none hj hbad)

/-! ### Each command against its row of the table (R207) -/

/-- How a command ends, given what the table reports: that status raised and nothing else done, or OK. -/
def EndsAsReported (s : State) (out : Host.Outcome State Fault Refusal) : Option Raise → Prop
  | some r => out = .next (s.raise r)
  | none => ∃ t, out = .next t ∧ t.status = 0x01#8

/-- A command whose row reports a status raises it. -/
theorem endsAsReported_some {i : Instr} {s : State} {r : Raise} (hr : firstFailing (orderedChecks i s) = some r)
    (hexec : exec i s = .next (s.raise r)) : EndsAsReported s (exec i s) (firstFailing (orderedChecks i s)) :=
  hr ▸ hexec

/-- A command whose row reports nothing ends its work with OK. -/
theorem endsAsReported_none {i : Instr} {s t : State} (hr : firstFailing (orderedChecks i s) = none)
    (hexec : exec i s = .next (t.raise .ok)) : EndsAsReported s (exec i s) (firstFailing (orderedChecks i s)) :=
  hr ▸ ⟨_, hexec, t.raise_ok_status⟩

theorem exec_sxChk_endsAsReported (s : State) :
    EndsAsReported s (exec .sxChk s) (firstFailing (orderedChecks .sxChk s)) := by
  by_cases hb : IsSextet (s.bufByte 0)
  · exact endsAsReported_none (firstFailing_of_isSextet hb _ _) (exec_sxChk_of_isSextet hb)
  · exact endsAsReported_some (firstFailing_of_badMarker hb _ _) (exec_sxChk_of_not_isSextet hb)

theorem exec_vl64Enclen_endsAsReported (s : State) :
    EndsAsReported s (exec .vl64Enclen s) (firstFailing (orderedChecks .vl64Enclen s)) := by
  by_cases hm : 2 ^ 32 ≤ magnitude s.value
  · exact endsAsReported_some (firstFailing_of_fails hm _ _) (exec_vl64Enclen_of_ge hm)
  · exact endsAsReported_none (firstFailing_of_passes hm _ _) (exec_vl64Enclen_of_lt (Nat.not_le.mp hm))

theorem exec_vl64Enc_endsAsReported (s : State) :
    EndsAsReported s (exec .vl64Enc s) (firstFailing (orderedChecks .vl64Enc s)) := by
  by_cases hm : 2 ^ 32 ≤ magnitude s.value
  · exact endsAsReported_some (firstFailing_of_fails hm _ _) (execVl64Enc_error s hm)
  · exact endsAsReported_none (firstFailing_of_passes hm _ _) (execVl64Enc_ok s (Nat.not_le.mp hm))

theorem exec_vl64Declen_endsAsReported (s : State) :
    EndsAsReported s (exec .vl64Declen s) (firstFailing (orderedChecks .vl64Declen s)) := by
  cases hd : vl64Header (s.bufByte 0) with
  | ok d => exact endsAsReported_none (firstFailing_header_of_ok hd _) (exec_vl64Declen_ok hd)
  | error r => exact endsAsReported_some (firstFailing_header_of_error hd _) (exec_vl64Declen_error hd)

/-- The row of VL64.DEC once LEN is in range: the header, then the bytes available, then the continuation bytes. -/
theorem firstFailing_vl64Dec_of_len {s : State} (h0 : s.len.toNat ≠ 0) (h16 : s.len.toNat ≤ 16) :
    firstFailing (orderedChecks .vl64Dec s) = firstFailing
      ((badMarker (s.bufByte 0), .invalidHighBits (s.bufByte 0)) ::
        (decide (lengthField (s.bufByte 0) = 0 ∨ 6 < lengthField (s.bufByte 0)), .invalidLength) ::
        (decide (s.len.toNat < lengthField (s.bufByte 0)), .insufficientLength) ::
        markerChecks 1 (lengthField (s.bufByte 0) - 1) s) :=
  (firstFailing_of_passes (Nat.not_lt.mpr h16) _ _).trans (firstFailing_of_passes h0 _ _)

/-- The continuation checks of a token report the first bad byte of its tail. -/
theorem firstFailing_tokenTail (s : State) (len : Nat) :
    firstFailing (markerChecks 1 (len - 1) s) = ((tokenTail s len).find? badMarker).map .invalidHighBits :=
  firstFailing_markerChecks 1 (len - 1) s

theorem exec_vl64Dec_endsAsReported (s : State) :
    EndsAsReported s (exec .vl64Dec s) (firstFailing (orderedChecks .vl64Dec s)) := by
  by_cases hw : 16 < s.len.toNat
  · exact endsAsReported_some (firstFailing_of_fails hw _ _) (execVl64Dec_badWidth s hw)
  by_cases h0 : s.len.toNat = 0
  · exact endsAsReported_some ((firstFailing_of_passes hw _ _).trans (firstFailing_of_fails h0 _ _))
      (execVl64Dec_noByte s h0)
  have h16 : s.len.toNat ≤ 16 := Nat.not_lt.mp hw
  have hrow := firstFailing_vl64Dec_of_len h0 h16
  cases hd : vl64Header (s.bufByte 0) with
  | error r =>
    exact endsAsReported_some (hrow.trans (firstFailing_header_of_error hd _)) (execVl64Dec_badHeader s h0 h16 hd)
  | ok d =>
    obtain ⟨-, -, -, hlen, -, -⟩ := vl64Header_ok hd
    have hl : lengthField (s.bufByte 0) = d.len.toNat := congrArg BitVec.toNat hlen.symm
    rw [firstFailing_header_of_ok hd, hl] at hrow
    by_cases ha : s.len.toNat < d.len.toNat
    · exact endsAsReported_some (hrow.trans (firstFailing_of_fails ha _ _)) (execVl64Dec_truncated s h0 h16 hd ha)
    · rw [firstFailing_of_passes ha, firstFailing_tokenTail] at hrow
      cases hfind : (tokenTail s d.len.toNat).find? badMarker with
      | some b =>
        exact endsAsReported_some (by rw [hrow, hfind, Option.map_some])
          (execVl64Dec_badByte s h16 hd (Nat.not_lt.mp ha) (accumulateFrom_of_find? hfind _ _))
      | none =>
        obtain ⟨m, hm⟩ := exists_vl64Accumulate_ok hfind d.low
        exact endsAsReported_none (by rw [hrow, hfind, Option.map_none])
          (execVl64Dec_ok s h16 hd (Nat.not_lt.mp ha) hm)

theorem exec_b64Enc_endsAsReported (s : State) :
    EndsAsReported s (exec .b64Enc s) (firstFailing (orderedChecks .b64Enc s)) := by
  by_cases hw : 10 < s.len.toNat
  · exact endsAsReported_some (firstFailing_of_fails hw _ _) (execB64Enc_badWidth s hw)
  · exact endsAsReported_none (firstFailing_of_passes hw _ _) (execB64Enc_ok s (Nat.not_lt.mp hw))

/-- The row of B64.DEC once LEN is in range: the bytes of the token. -/
theorem firstFailing_b64Dec_of_len {s : State} (h10 : s.len.toNat ≤ 10) :
    firstFailing (orderedChecks .b64Dec s) =
      (((List.range s.len.toNat).map s.bufByte).find? badMarker).map .invalidHighBits := by
  have hbytes := firstFailing_markerChecks 0 s.len.toNat s
  simp only [Nat.zero_add] at hbytes
  exact (firstFailing_of_passes (Nat.not_lt.mpr h10) _ _).trans hbytes

theorem exec_b64Dec_endsAsReported (s : State) :
    EndsAsReported s (exec .b64Dec s) (firstFailing (orderedChecks .b64Dec s)) := by
  by_cases hw : 10 < s.len.toNat
  · exact endsAsReported_some (firstFailing_of_fails hw _ _) (execB64Dec_badWidth s hw)
  have h10 : s.len.toNat ≤ 10 := Nat.not_lt.mp hw
  have hrow := firstFailing_b64Dec_of_len h10
  cases hfind : ((List.range s.len.toNat).map s.bufByte).find? badMarker with
  | some b =>
    exact endsAsReported_some (by rw [hrow, hfind, Option.map_some])
      (exec_b64Dec_of_error h10 (b64Accumulate_of_find? hfind _))
  | none =>
    obtain ⟨v, hv⟩ := exists_b64Decode_ok hfind
    exact endsAsReported_none (by rw [hrow, hfind, Option.map_none]) (by rw [exec, execB64Dec_eq s h10, hv])

/-- Every command ends as its row of the table reports. -/
theorem exec_endsAsReported (i : Instr) (s : State) :
    EndsAsReported s (exec i s) (firstFailing (orderedChecks i s)) := by
  cases i with
  | sxChk => exact exec_sxChk_endsAsReported s
  | vl64Enclen => exact exec_vl64Enclen_endsAsReported s
  | vl64Enc => exact exec_vl64Enc_endsAsReported s
  | vl64Declen => exact exec_vl64Declen_endsAsReported s
  | vl64Dec => exact exec_vl64Dec_endsAsReported s
  | b64Enc => exact exec_b64Enc_endsAsReported s
  | b64Dec => exact exec_b64Dec_endsAsReported s

/-! ### Every command word against the table -/

/-- No check looks at CMD. -/
theorem orderedChecks_putCmd (i : Instr) (c : Byte) (s : State) : orderedChecks i (s.putCmd c) = orderedChecks i s := by
  cases i <;> rfl

theorem firstFailing_wordChecks_of_legal {c : Byte} {i : Instr} (hc : decodeCmd c = .ok i) (s : State) :
    firstFailing (wordChecks c s) = firstFailing (orderedChecks i (s.putCmd c)) := by
  rw [wordChecks, hc, orderedChecks_putCmd]
  rfl

theorem firstFailing_wordChecks_of_illegal {c : Byte} {e : CmdReject} (hc : decodeCmd c = .error e) (s : State) :
    firstFailing (wordChecks c s) = some .illegalCmd := by
  rw [wordChecks, hc]
  rfl

/-- An illegal word raises ILLEGAL_CMD and does nothing else (R206). -/
theorem runCommand_of_illegal {c : Byte} {e : CmdReject} (h : decodeCmd c = .error e) (s : State) :
    runCommand c s = .next ((s.putCmd c).raise .illegalCmd) := by
  rw [runCommand, h]

theorem runCommand_endsAsReported (c : Byte) (s : State) :
    EndsAsReported (s.putCmd c) (runCommand c s) (firstFailing (wordChecks c s)) := by
  cases hc : decodeCmd c with
  | error e =>
    rw [firstFailing_wordChecks_of_illegal hc]
    exact runCommand_of_illegal hc s
  | ok i =>
    rw [firstFailing_wordChecks_of_legal hc, runCommand_of_decode hc]
    exact exec_endsAsReported i (s.putCmd c)

/-- Settles O35: the word's row of the table decides how it ends, command by command. -/
theorem firstFailingCheckIsReported : Obligations.FirstFailingCheckIsReported := by
  intro s c
  have hends := runCommand_endsAsReported c s
  rw [runHostStep_write_cmd]
  cases hr : firstFailing (wordChecks c s) with
  | some r =>
    rw [hr] at hends
    exact ⟨_, hends, rfl⟩
  | none =>
    rw [hr] at hends
    exact hends

end Sys2Proof.Machine
end

section
/-! PROOFS. The codes a command ends with (R200 to R202, R205): what a failure writes, which codes each command
raises, and when BAD_WIDTH is the one. -/

namespace Sys2Proof.Machine

/-! ### A failing command raises one of its codes (R200 to R202, R205) -/

/-- A command ends OK, or with a status that it can raise and nothing else done. -/
theorem CommandEnds.ok_or_raised {i : Instr} {s t : State} (h : CommandEnds i s t) :
    t.status = 0x01#8 ∨ ∃ r, r ≠ .ok ∧ RaisedBy i s r ∧ t = s.raise r := by
  cases h with
  | bad r hr hk => exact .inr ⟨r, hr, hk, rfl⟩
  | sxChk | enclen | enc | declen | dec | b64Enc | b64Dec => exact .inl (State.raise_ok_status _)

/-- The frame of R202 speaks of registers only, so the record of R35 that `putCmd` also writes does not matter. -/
theorem EndsWith.of_putCmd {word c : Byte} {byte : Option Byte} {s t : State}
    (h : EndsWith word byte (s.putCmd c) t) : EndsWith word byte { s with cmd := c } t where
  status := h.status
  errByte := h.errByte
  result := h.result
  count := h.count
  inputs := ⟨h.inputs.cmd, h.inputs.value, h.inputs.len, h.inputs.readPort, h.inputs.pending⟩
  buf := h.buf

theorem statusWord_toNat (r : Raise) : (statusWord r).toNat = r.code.toNat * 16 + 1 := by
  cases r <;> simp [statusWord, Raise.code]

theorem Raise.info_eq_some_iff (r : Raise) (b : Byte) : r.info = some b ↔ r = .invalidHighBits b := by
  cases r <;> simp [Raise.info]

/-- Settles O32: a command word that does not end OK has raised a status on the state it began with. -/
theorem failingCommandsWriteOnlyTheirStatus : Obligations.FailingCommandsWriteOnlyTheirStatus := by
  refine ⟨fun r s => ⟨by rw [State.raise_status, statusWord_toNat], s.raise_errByte r, r.info_eq_some_iff⟩,
    fun c s t ht => ?_⟩
  obtain ⟨t', ht', hcases⟩ := runCommand_cases c s
  cases ht'.symm.trans ((runHostStep_write_cmd c s).symm.trans ht)
  rcases hcases with ⟨-, -, rfl⟩ | ⟨i, -, -, hends⟩
  · exact .inr ⟨.illegalCmd, Raise.noConfusion, (State.raise_endsWith rfl _).of_putCmd⟩
  · rcases hends.ok_or_raised with hok | ⟨r, hr, -, rfl⟩
    · exact .inl hok
    · exact .inr ⟨r, hr, (State.raise_endsWith rfl _).of_putCmd⟩

/-- Settles O33: the STATUS word of each status that the command can raise, or of OK. -/
theorem eachCommandRaisesOnlyItsCodes : Obligations.EachCommandRaisesOnlyItsCodes := by
  intro i s t h
  rcases (commandEnds_of_exec h).ok_or_raised with hok | ⟨r, -, hk, rfl⟩
  · rw [hok]
    cases i <;> exact List.mem_cons_self
  rw [State.raise_status]
  cases r with
  | ok | illegalCmd => exact hk.elim
  | invalidHighBits b =>
    rw [statusWord_invalidHighBits]
    obtain ⟨-, rfl | rfl | rfl | rfl⟩ := hk <;> decide
  | invalidLength => rcases hk with rfl | rfl <;> decide
  | insufficientLength => cases hk; decide
  | outOfRange => rcases hk with rfl | rfl <;> decide
  | badWidth => rcases hk with ⟨rfl, -⟩ | ⟨rfl | rfl, -⟩ <;> decide

/-! ### BAD_WIDTH and the commands that read LEN (R205) -/

theorem statusWord_eq_badWidth_iff (r : Raise) : statusWord r = 0x51#8 ↔ r = .badWidth := by
  cases r <;> simp [statusWord, Raise.code]

/-- The width check comes first, so a width out of range is reported whatever else is wrong. -/
theorem exec_of_badWidth {i : Instr} {s : State} (h : RaisedBy i s .badWidth) :
    exec i s = .next (s.raise .badWidth) := by
  rcases h with ⟨rfl, hl⟩ | ⟨rfl | rfl, hl⟩
  · exact execVl64Dec_badWidth s hl
  · exact execB64Enc_badWidth s hl
  · exact execB64Dec_badWidth s hl

theorem exec_status_eq_badWidth_iff {i : Instr} {s t : State} (h : exec i s = .next t) :
    t.status = 0x51#8 ↔ RaisedBy i s .badWidth := by
  refine ⟨fun hbad => ?_, fun hk => ?_⟩
  · rcases (commandEnds_of_exec h).ok_or_raised with hok | ⟨r, -, hk, rfl⟩
    · exact absurd (hok.symm.trans hbad) (by decide)
    · rw [State.raise_status, statusWord_eq_badWidth_iff] at hbad
      exact hbad ▸ hk
  · cases h.symm.trans (exec_of_badWidth hk)
    exact State.raise_status _ _

theorem len_mem_commandReads_iff (i : Instr) (s : State) :
    0x02 ∈ commandReads i s ↔ i = .vl64Dec ∨ i = .b64Enc ∨ i = .b64Dec := by
  cases i with
  | sxChk | vl64Enclen | vl64Enc | vl64Declen => simp [commandReads]
  | vl64Dec | b64Enc | b64Dec => exact ⟨fun _ => by decide, fun _ => List.mem_cons_self⟩

/-- Settles O34: `RaisedBy` says when BAD_WIDTH is raised, and LEN is the first register those commands read. -/
theorem badWidthExactlyWhenLenIsOutOfRange : Obligations.BadWidthExactlyWhenLenIsOutOfRange := by
  refine fun i s => ⟨?_, len_mem_commandReads_iff i s⟩
  obtain ⟨t, ht, -⟩ := exec_commandEnds i s
  exact ⟨t, ht, exec_status_eq_badWidth_iff ht⟩

end Sys2Proof.Machine
end

section
/-! PROOFS. No host step faults (R208), and an illegal command word writes STATUS only (R206). -/

namespace Sys2Proof.Machine

/-! ### No trap (R208) -/

/-- The effect of a write of the right width is always a next state. -/
theorem exists_regWrite_next (r : Reg) (v : RegVal) (s : State) : ∃ t, regWrite r v s = .next t := by
  unfold regWrite
  split
  · obtain ⟨t, ht, -⟩ := runCommand_cases _ s
    exact ⟨t, ht⟩
  all_goals exact ⟨_, rfl⟩

theorem exists_runHostStep_next {h : HostStep} (hw : h.wf = true) (s : State) : ∃ t, runHostStep h s = .next t := by
  cases h with
  | write r v =>
    rw [runHostStep_write_of_accepts hw]
    exact exists_regWrite_next r v s
  | read r => exact ⟨_, rfl⟩
  | reset => exact ⟨_, rfl⟩

/-- A host step that the host may not take is a write of the wrong width, and is refused (R34). -/
theorem exists_runHostStep_refused {h : HostStep} (hw : h.wf ≠ true) (s : State) :
    ∃ r, runHostStep h s = .refused r := by
  cases h with
  | write r v => exact ⟨_, if_neg hw⟩
  | read r => exact absurd rfl hw
  | reset => exact absurd rfl hw

/-- A step gives a next state if the pending host step is well formed, and is refused if it is not. -/
theorem step_next_or_refused (s : State) :
    (s.pendingWf = true ∧ ∃ t, step s = .next t) ∨ (s.pendingWf ≠ true ∧ ∃ r, step s = .refused r) := by
  cases hp : s.pending with
  | nil => exact .inl ⟨by rw [State.pendingWf, hp], s, step_of_pending_nil hp⟩
  | cons h rest =>
    have hwf : s.pendingWf = h.wf := by rw [State.pendingWf, hp]
    rw [hwf, step_of_pending_cons hp]
    by_cases hw : h.wf = true
    · exact .inl ⟨hw, exists_runHostStep_next hw _⟩
    · exact .inr ⟨hw, exists_runHostStep_refused hw _⟩

/-- Settles O51: a step's two answers, neither of them a fault. -/
theorem noStepFaults : Obligations.NoStepFaults := by
  refine ⟨fun s f hf => ?_, fun s => ?_⟩
  · rcases step_next_or_refused s with ⟨-, t, ht⟩ | ⟨-, r, hr⟩
    · cases ht.symm.trans hf
    · cases hr.symm.trans hf
  · rcases step_next_or_refused s with ⟨hwf, hnext⟩ | ⟨hwf, r, hr⟩
    · exact iff_of_true hnext hwf
    · exact iff_of_false (fun ⟨t, ht⟩ => by cases hr.symm.trans ht) hwf

/-! ### Illegal command words (R206) -/

/-- A word with a reserved bit set, or with OP zero, is rejected: no command's own word has either (R81, R82). -/
theorem exists_decodeCmd_error {c : Byte} (h : c.extractLsb' 3 5 ≠ 0#5 ∨ c.extractLsb' 0 3 = 0#3) :
    ∃ e, decodeCmd c = .error e := by
  rcases decodeCmd_cases c with ⟨-, hc⟩ | ⟨-, hc⟩ | ⟨i, rfl, -⟩
  · exact ⟨_, hc⟩
  · exact ⟨_, hc⟩
  · cases i <;> exact absurd h (by decide)

/-- Settles O7: an illegal word raises ILLEGAL_CMD as soon as CMD holds it. -/
theorem illegalWordWritesStatusOnly : Obligations.IllegalWordWritesStatusOnly := by
  intro s c h
  obtain ⟨e, hc⟩ := exists_decodeCmd_error h
  exact ⟨_, (runHostStep_write_cmd c s).trans (runCommand_of_illegal hc s), State.raise_cmd _ _,
    (State.raise_endsWith (r := .illegalCmd) rfl _).of_putCmd, hostStepReads_of_illegal hc s⟩

end Sys2Proof.Machine
end

section
/-! PROOFS. Reset (R240), and the commands whose inputs have been written (R243). -/

namespace Sys2Proof.Machine

/-! ### Reset (R240) -/

/-- Where STATUS alone is in the record of R35, it and the reserved numbers are what holds a value (R36). -/
theorem holdsValue_iff_of_specified {s : State} (h : s.specified = [0x03]) (n : Nat) :
    holdsValue s n = true ↔ n = 0x03 ∨ (0x07 ≤ n ∧ n ≤ 0x0F) := by
  simp [holdsValue, h, or_comm]

/-- Settles O13: reset, as a host step or at power-on, leaves STATUS alone in the record of R35. -/
theorem resetClearsStatusAndUnspecifiesTheRest : Obligations.ResetClearsStatusAndUnspecifiesTheRest :=
  ⟨fun s => ⟨hostReset s, rfl, rfl, fun _ => rfl, holdsValue_iff_of_specified rfl⟩, rfl, fun _ => rfl,
    holdsValue_iff_of_specified rfl⟩

/-- Settles O49: `State.reset_inv`, from which a reset step keeps the invariant too, says just this. -/
theorem resetMeetsTheInvariant : Obligations.ResetMeetsTheInvariant := State.reset_inv

/-! ### Commands whose inputs hold values (R243) -/

theorem holdsValue_of_mem_specified {s : State} {n : Nat} (h : n ∈ s.specified) : holdsValue s n = true := by
  simp [holdsValue, h]

/-- B64.DEC reads bytes of its token only (R55). -/
theorem exists_lt_of_mem_b64ReadNums {i k n : Nat} {s : State} (h : n ∈ b64ReadNums i k s) :
    ∃ j < k, n = 0x10 + (i + j) := by
  induction k generalizing i with
  | zero => cases h
  | succ k ih =>
    rw [b64ReadNums] at h
    cases hc : sextetCheck (s.bufByte i) with
    | error r =>
      rw [hc] at h
      exact ⟨0, by omega, List.mem_singleton.mp h⟩
    | ok p =>
      rw [hc] at h
      rcases List.mem_cons.mp h with rfl | h
      · exact ⟨0, by omega, rfl⟩
      · obtain ⟨j, hj, rfl⟩ := ih h
        exact ⟨j + 1, by omega, by omega⟩

/-- With a byte available VL64.DEC reads the header, and the token's other bytes only if all are available (R55). -/
theorem mem_vl64ReadNums_cases {avail n : Nat} {s : State} (h : n ∈ vl64ReadNums avail s) :
    1 ≤ avail ∧ (n = 0x10 ∨ (lengthField (s.bufByte 0) ≤ avail ∧
      ∃ k, 1 ≤ k ∧ k < lengthField (s.bufByte 0) ∧ n = 0x10 + k)) := by
  rw [vl64ReadNums] at h
  split_ifs at h with h0
  · cases h
  refine ⟨Nat.one_le_iff_ne_zero.mpr h0, ?_⟩
  cases hd : vl64Header (s.bufByte 0) with
  | error r =>
    rw [hd] at h
    exact .inl (List.mem_singleton.mp h)
  | ok d =>
    obtain ⟨-, -, -, hlen, -, -⟩ := vl64Header_ok hd
    have hl : lengthField (s.bufByte 0) = d.len.toNat := congrArg BitVec.toNat hlen.symm
    simp only [hd] at h
    split_ifs at h with ha
    · exact .inl (List.mem_singleton.mp h)
    rcases List.mem_cons.mp h with rfl | h
    · exact .inl rfl
    · obtain ⟨j, hj, rfl⟩ := List.mem_map.mp h
      have := List.mem_range.mp hj
      exact .inr ⟨by omega, 1 + j, by omega, by omega, rfl⟩

/-- A command whose reads all hold values does not fault in the stricter step. -/
theorem exists_strictStep_command {s : State} {i : Instr} {rest : List HostStep}
    (hp : s.pending = .write .cmd (.b8 (encode i)) :: rest) (h : ∀ n ∈ commandReads i s, n ∈ s.specified) :
    ∃ t, strictStep s = .next t ∧ step s = .next t := by
  have hc := decodeCmd_encode i
  obtain ⟨t, ht, -⟩ := exec_commandEnds i ({ s with pending := rest }.putCmd (encode i))
  have hstep : step s = .next t := (step_of_pending_command hp hc).trans ht
  refine ⟨t, (strictStep_of_held fun n hn => ?_).trans hstep, hstep⟩
  rw [stepReads_of_pending_command hp hc] at hn
  exact holdsValue_of_mem_specified (h n hn)

/-- Settles O53: each row of R243's table covers what its command reads. -/
theorem commandsRunOnceTheirInputsAreWritten : Obligations.CommandsRunOnceTheirInputsAreWritten := by
  intro s i rest hp h
  refine exists_strictStep_command hp ?_
  cases i with
  | sxChk | vl64Enclen | vl64Enc | vl64Declen => exact fun n hn => List.mem_singleton.mp hn ▸ h
  | vl64Dec =>
    obtain ⟨hlen, hhead, htail⟩ := h
    refine List.forall_mem_cons.mpr ⟨hlen, fun n hn => ?_⟩
    obtain ⟨-, hn⟩ := List.mem_ite_nil_left.mp hn
    obtain ⟨h1, rfl | ⟨ha, k, hk1, hk, rfl⟩⟩ := mem_vl64ReadNums_cases hn
    · exact hhead h1
    · exact htail ha k hk1 hk
  | b64Enc =>
    obtain ⟨hvalue, hlen⟩ := h
    refine List.forall_mem_cons.mpr ⟨hlen, fun n hn => ?_⟩
    obtain ⟨-, hn⟩ := List.mem_ite_nil_left.mp hn
    exact List.mem_singleton.mp hn ▸ hvalue
  | b64Dec =>
    obtain ⟨hlen, hbytes⟩ := h
    refine List.forall_mem_cons.mpr ⟨hlen, fun n hn => ?_⟩
    obtain ⟨hw, hn⟩ := List.mem_ite_nil_left.mp hn
    obtain ⟨k, hk, rfl⟩ := exists_lt_of_mem_b64ReadNums hn
    rw [Nat.zero_add]
    exact hbytes (Nat.not_lt.mp hw) k hk

end Sys2Proof.Machine
end

section
/-! PROOFS. The host's stream loop (R246): a turn loads BUF with the stream's next bytes and runs VL64.DEC on them, and
where they start with a token it takes that token's value and leaves the rest to the next turn. -/

namespace Sys2Proof.Machine

/-! ### Loading the stream's next bytes -/

/-- BUF will hold the bytes as they are: it is in canonical form, or no byte is what an unlisted index reads as. -/
def TakesBytes (s : State) (bytes : List Byte) : Prop :=
  Memory.wf s.buf ∨ ∀ b ∈ bytes, b ≠ Config.unlistedByte

theorem TakesBytes.take {s : State} {bytes : List Byte} (h : TakesBytes s bytes) (n : Nat) :
    TakesBytes s (bytes.take n) :=
  h.imp_right fun hne b hb => hne b (List.mem_of_mem_take hb)

theorem TakesBytes.putBytes_bufByte {s : State} {bytes : List Byte} (h : TakesBytes s bytes) {k : Nat}
    (hk : k < bytes.length) : (s.putBytes 0 bytes).bufByte k = bytes[k] := by
  rcases h with hwf | hne
  · simpa using State.putBytes_bufByte_same hwf 0 bytes k hk
  · simpa using s.putBytes_bufByte_same_of_ne 0 bytes hne k hk

theorem State.putBytes_cons (s : State) (a : Nat) (b : Byte) (bytes : List Byte) :
    s.putBytes a (b :: bytes) = (s.putBytes a [b]).putBytes (a + 1) bytes := rfl

/-- A host write of a byte of BUF (R32). -/
theorem runHostStep_write_buf {i : Nat} (hi : i < 16) (b : Byte) (s : State) :
    runHostStep (.write (.buf (Fin.ofNat 16 i)) (.b8 b)) s = .next (s.putBytes i [b]) := by
  rw [runHostStep_write_of_accepts rfl, regWrite, Fin.val_ofNat, Nat.mod_eq_of_lt hi]

theorem runHostSteps_loadSteps {i : Nat} {bytes : List Byte} (h : i + bytes.length ≤ 16) (s : State) :
    runHostSteps (loadSteps i bytes) s = .next (s.putBytes i bytes) := by
  induction bytes generalizing i s with
  | nil => rfl
  | cons b bytes ih =>
    rw [List.length_cons] at h
    rw [loadSteps, runHostSteps, runHostStep_write_buf (by omega), State.putBytes_cons]
    exact ih (by omega) _

/-- The block as a turn of the loop has VL64.DEC find it: the stream's next bytes in BUF, their number in LEN, and the
command's word in CMD. -/
def State.loaded (s : State) (stream : List Byte) : State :=
  ((s.putBytes 0 (stream.take Config.bufBytes)).putLen (BitVec.ofNat 5 (min stream.length Config.bufBytes))).putCmd
    (encode .vl64Dec)

theorem State.loaded_len_toNat (s : State) (stream : List Byte) :
    (s.loaded stream).len.toNat = min stream.length 16 := by
  simp only [State.loaded, State.putCmd_len, State.putLen_len, Config.bufBytes, BitVec.toNat_ofNat]
  omega

theorem State.loaded_bufByte {s : State} {stream : List Byte} (h : TakesBytes s stream) {k : Nat}
    (hk : k < min stream.length 16) : stream[k]? = some ((s.loaded stream).bufByte k) := by
  have hk' : k < (stream.take Config.bufBytes).length := by
    rw [List.length_take, Config.bufBytes]
    omega
  rw [State.loaded, State.putCmd_bufByte, State.putLen_bufByte, (h.take _).putBytes_bufByte hk', List.getElem_take,
    List.getElem?_eq_getElem]

theorem State.loaded_buf_wf {s : State} (h : Memory.wf s.buf) (stream : List Byte) :
    Memory.wf (s.loaded stream).buf := by
  simpa [State.loaded] using Memory.writeList_wf s.buf 0 (stream.take Config.bufBytes) h (by simp)

theorem runHostSteps_streamSteps {s t : State} {stream : List Byte} (h : exec .vl64Dec (s.loaded stream) = .next t) :
    runHostSteps (streamSteps stream) s = .next t := by
  rw [State.loaded] at h
  have hload := runHostSteps_loadSteps (i := 0) (bytes := stream.take Config.bufBytes) (by simp) s
  rw [streamSteps, runHostSteps_append, hload]
  simp only [runHostSteps, runHostStep_write_of_accepts (r := .len) (v := .b5 _) rfl, regWrite, runHostStep_write_cmd,
    runCommand_of_decode (decodeCmd_encode .vl64Dec), h]

/-! ### One turn of the loop -/

theorem decodeStream_of_ok {s t : State} {stream : List Byte} (hne : stream ≠ [])
    (ht : exec .vl64Dec (s.loaded stream) = .next t) (hok : t.status = 0x01#8) {turns : Nat} {r : StreamResult}
    (hr : decodeStream turns (stream.drop t.count.toNat) t = .next r) :
    decodeStream (turns + 1) stream s = .next { r with values := t.result :: r.values } := by
  rw [decodeStream, if_neg (by simpa using hne), runHostSteps_streamSteps ht]
  simp [hok, statusWord_ok, hr]

theorem decodeStream_of_not_ok {s t : State} {stream : List Byte} (hne : stream ≠ [])
    (ht : exec .vl64Dec (s.loaded stream) = .next t) (hbad : t.status ≠ 0x01#8) (turns : Nat) :
    decodeStream (turns + 1) stream s = .next { values := [], left := stream, block := t } := by
  rw [decodeStream, if_neg (by simpa using hne), runHostSteps_streamSteps ht]
  exact if_pos (by rwa [statusWord_ok])

/-! ### VL64.DEC on the loaded bytes -/

/-- VL64.DEC writes no byte of BUF. -/
theorem CommandEnds.buf_of_vl64Dec {s t : State} (h : CommandEnds .vl64Dec s t) : t.buf = s.buf := by
  cases h with
  | bad | dec => simp
  | sxChk hi | enclen hi | enc hi | declen hi | b64Enc hi | b64Dec hi => cases hi

/-- VL64.DEC that ends OK has found a whole token of sextet bytes (R117). -/
theorem CommandEnds.token_of_vl64Dec_ok {s t : State} (h : CommandEnds .vl64Dec s t) (hok : t.status = 0x01#8) :
    1 ≤ lengthField (s.bufByte 0) ∧ lengthField (s.bufByte 0) ≤ 6 ∧ lengthField (s.bufByte 0) ≤ s.len.toNat ∧
      ∀ k < lengthField (s.bufByte 0), IsSextet (s.bufByte k) := by
  cases h with
  | bad r hr => exact absurd hok (State.raise_status_ne_ok hr)
  | sxChk hi | enclen hi | enc hi | declen hi | b64Enc hi | b64Dec hi => cases hi
  | dec _ _ d hd ha m hm =>
    obtain ⟨hsextet, h1, h6, hlen, -, -⟩ := vl64Header_ok hd
    have hl : lengthField (s.bufByte 0) = d.len.toNat := congrArg BitVec.toNat hlen.symm
    obtain ⟨htail, -⟩ := tokenSum_of_vl64Accumulate h6 hm
    rw [hl]
    refine ⟨h1, h6, ha, fun k hk => ?_⟩
    rcases Nat.eq_zero_or_pos k with rfl | hk1
    · exact hsextet
    · exact htail k hk1 hk

/-- VL64.DEC of a BUF that starts with a value's token gives that value: VL64.ENC would write the same bytes, and
decoding those is the round trip of R126. -/
theorem exec_vl64Dec_of_token {s : State} {v : Word} (hm : magnitude v < 2 ^ 32)
    (hbuf : ∀ k < vl64EncodedLength (magnitude v), (vl64Token v)[k]? = some (s.bufByte k))
    (hl : vl64EncodedLength (magnitude v) ≤ s.len.toNat) (h16 : s.len.toNat ≤ 16) :
    ∃ t, exec .vl64Dec s = .next t ∧ t.status = 0x01#8 ∧ t.result = v ∧
      t.count.toNat = vl64EncodedLength (magnitude v) := by
  obtain ⟨e, u, henc, hdec, -, hok, hresult, hucount, hcount, -, -⟩ := vl64RoundTrip (s.putValue v) s.len hm hl h16
  have hsame : ∀ a < vl64EncodedLength (magnitude v), s.bufByte a = e.bufByte a := fun a ha => by
    cases henc.symm.trans (execVl64Enc_ok (s.putValue v) hm)
    rw [State.raise_bufByte, State.putCount_bufByte]
    exact (putBytes_vl64Token_bufByte (s.putValue v) (hbuf a ha)).symm
  obtain ⟨h1, h6, -, hsextet⟩ := (commandEnds_of_exec hdec).token_of_vl64Dec_ok hok
  obtain ⟨hfield, -⟩ := acceptedTokenLengthIsItsHeaderField _ _ hdec hok
  rw [hucount, hcount] at hfield
  obtain ⟨u', t, hdec', ht, hstatus, hsuccess, -, -⟩ := vl64DecIgnoresBytesPastTheToken (e.putLen s.len) s
    (hsextet 0 h1) h1 h6 (hfield ▸ hsame) (hfield ▸ hl) h16 (hfield ▸ hl) h16
  cases hdec.symm.trans hdec'
  obtain ⟨hres, hcnt⟩ := hsuccess hok
  exact ⟨t, ht, hstatus ▸ hok, hres ▸ hresult, hcnt ▸ hucount ▸ hcount⟩

theorem vl64Encode_eq_ok {v : Word} {l : BitVec 3} {tok : List Byte} (h : vl64Encode v = .ok (l, tok)) :
    magnitude v < 2 ^ 32 ∧ tok = vl64Token v := by
  by_cases hm : magnitude v < 2 ^ 32
  · cases h.symm.trans (vl64Encode_ok hm)
    exact ⟨hm, rfl⟩
  · cases h.symm.trans (vl64Encode_error (Nat.not_lt.mp hm))

/-- A turn on a stream that starts with a value's token takes that value and as many bytes as the token has, and
leaves BUF fit for the rest. -/
theorem exec_loaded_token {s : State} {v : Word} (hm : magnitude v < 2 ^ 32) {stream : List Byte}
    (hs : TakesBytes s (vl64Token v ++ stream)) :
    ∃ t, exec .vl64Dec (s.loaded (vl64Token v ++ stream)) = .next t ∧ t.status = 0x01#8 ∧ t.result = v ∧
      t.count.toNat = (vl64Token v).length ∧ TakesBytes t stream := by
  obtain ⟨-, h6⟩ := vl64EncodedLength_bounds _ hm
  have htok := vl64Token_length v hm
  have hlen := s.loaded_len_toNat (vl64Token v ++ stream)
  rw [List.length_append, htok] at hlen
  have hbuf : ∀ k < vl64EncodedLength (magnitude v),
      (vl64Token v)[k]? = some ((s.loaded (vl64Token v ++ stream)).bufByte k) := fun k hk => by
    rw [← State.loaded_bufByte hs (by rw [List.length_append, htok]; omega),
      List.getElem?_append_left (by omega)]
  obtain ⟨t, ht, hok, hresult, hcount⟩ := exec_vl64Dec_of_token hm hbuf (by omega) (by omega)
  refine ⟨t, ht, hok, hresult, hcount.trans htok.symm, ?_⟩
  rcases hs with hwf | hne
  · exact .inl ((commandEnds_of_exec ht).buf_of_vl64Dec ▸ State.loaded_buf_wf hwf _)
  · exact .inr fun b hb => hne b (List.mem_append_right _ hb)

/-! ### The whole loop -/

/-- The loop takes the values of the tokens that a stream starts with, a turn for each, and goes on with the rest. -/
theorem decodeStream_tokens {vs : List Word} {toks : List (List Byte)}
    (h : List.Forall₂ (fun v tok => ∃ l, vl64Encode v = .ok (l, tok)) vs toks) {rest : List Byte} {s : State}
    (hs : TakesBytes s (toks.flatten ++ rest)) :
    ∃ t, TakesBytes t rest ∧ ∀ turns r, decodeStream turns rest t = .next r →
      decodeStream (vs.length + turns) (toks.flatten ++ rest) s = .next { r with values := vs ++ r.values } := by
  induction h generalizing s with
  | nil => exact ⟨s, hs, fun turns r hr => by simpa using hr⟩
  | @cons v tok vs toks hv _ ih =>
    obtain ⟨l, hv⟩ := hv
    obtain ⟨hm, rfl⟩ := vl64Encode_eq_ok hv
    rw [List.flatten_cons, List.append_assoc] at hs ⊢
    obtain ⟨t, ht, hok, rfl, hcount, ht'⟩ := exec_loaded_token hm hs
    obtain ⟨u, hu, hloop⟩ := ih ht'
    refine ⟨u, hu, fun turns r hr => ?_⟩
    have hne : vl64Token t.result ++ (toks.flatten ++ rest) ≠ [] := List.cons_ne_nil _ _
    have hdrop : (vl64Token t.result ++ (toks.flatten ++ rest)).drop t.count.toNat = toks.flatten ++ rest := by
      rw [hcount, List.drop_left]
    rw [List.length_cons, Nat.add_right_comm]
    exact decodeStream_of_ok hne ht hok (hdrop.symm ▸ hloop turns r hr)

theorem ne_unlisted_of_mem_tokens {vs : List Word} {toks : List (List Byte)}
    (h : List.Forall₂ (fun v tok => ∃ l, vl64Encode v = .ok (l, tok)) vs toks) :
    ∀ b ∈ toks.flatten, b ≠ Config.unlistedByte := by
  induction h with
  | nil => exact List.forall_mem_nil _
  | cons hv _ ih =>
    obtain ⟨l, hv⟩ := hv
    obtain ⟨-, rfl⟩ := vl64Encode_eq_ok hv
    exact List.forall_mem_append.mpr ⟨vl64Token_ne_unlisted _, ih⟩

/-- Settles O47: no byte of the tokens is what an unlisted index reads as, so any BUF will do. -/
theorem streamLoopRecoversEveryValue : Obligations.StreamLoopRecoversEveryValue := by
  intro s vs toks h
  have hs : TakesBytes s (toks.flatten ++ []) := .inr (by simpa using ne_unlisted_of_mem_tokens h)
  obtain ⟨t, -, hloop⟩ := decodeStream_tokens h hs
  exact ⟨t, by simpa using hloop 0 _ rfl⟩

/-! ### The end of the loop -/

/-- VL64.DEC ends OK only if the loaded bytes start with a token that decodes. -/
theorem startsWithToken_of_loaded_ok {s t : State} {stream : List Byte} (hs : TakesBytes s stream)
    (ht : exec .vl64Dec (s.loaded stream) = .next t) (hok : t.status = 0x01#8) : StartsWithToken stream := by
  obtain ⟨h1, h6, hlen, hsextet⟩ := (commandEnds_of_exec ht).token_of_vl64Dec_ok hok
  rw [State.loaded_len_toNat] at hlen
  refine ⟨_, State.loaded_bufByte hs (by omega), h1, h6, by omega, fun b hb => ?_⟩
  obtain ⟨k, hk, rfl⟩ := List.mem_take_iff_getElem.mp hb
  have hbyte := State.loaded_bufByte hs (k := k) (by omega)
  rw [List.getElem?_eq_getElem (by omega)] at hbyte
  exact Option.some.inj hbyte ▸ hsextet k (by omega)

theorem Raise.code_ne_zero {r : Raise} (h : r ≠ .ok) : r.code ≠ 0#4 := by
  cases r with
  | ok => exact absurd rfl h
  | invalidHighBits | invalidLength | insufficientLength | outOfRange | badWidth | illegalCmd => simp [Raise.code]

/-- Settles O56: the loop takes the values, and VL64.DEC of bytes that start with no token that decodes raises a status
other than OK. -/
theorem streamLoopEndsAtTheFirstError : Obligations.StreamLoopEndsAtTheFirstError := by
  intro s vs toks rest turns hwf h hne hrest hturns
  obtain ⟨t, hs, hloop⟩ := decodeStream_tokens h (rest := rest) (s := s) (.inl hwf)
  obtain ⟨k, rfl⟩ := Nat.exists_eq_add_of_lt hturns
  obtain ⟨u, hu, hends⟩ := exec_commandEnds .vl64Dec (t.loaded rest)
  have hbad : u.status ≠ 0x01#8 := fun hok => hrest (startsWithToken_of_loaded_ok hs hu hok)
  obtain hok | ⟨r, hr, -, rfl⟩ := hends.ok_or_raised
  · exact absurd hok hbad
  refine ⟨_, by simpa [Nat.add_assoc] using hloop (k + 1) _ (decodeStream_of_not_ok hne hu hbad k), ?_, ?_⟩
  · rw [State.raise_status, statusDone_statusWord]
  · rw [State.raise_status, statusCode_statusWord]
    exact Raise.code_ne_zero hr

end Sys2Proof.Machine
end
